-- ==== Sys2Proof/Word.lean ====
section
/-! DEFINITION. The word types of the block: 8-bit bytes (R11), 16-bit operands and response values
(R11, R81, R82), 32-bit command, data and response words (R80, R82). -/

namespace Sys2Proof

/-- One data byte, wire byte, checksum sum or ring element: 8 bits, unsigned (R11). -/
abbrev Byte := BitVec 8

/-- A 16-bit unsigned operand or response value (R11, R81, R82). -/
abbrev Half := BitVec 16

/-- One 32-bit word of the command port or of the response port (R80, R82). -/
abbrev Word := BitVec 32

end Sys2Proof
end

