-- ==== Sys2Proof/Config.lean ====
section
/-! DEFINITION. What is fixed for one instance of the block (R10), and the one free value of the model.
R10 gives the parameters as ARGUMENTS of the model: they stand in `Params`, a plain record that `State`
carries and that no step changes, so that a statement about every state is a statement about every
legal choice of the parameters. -/

namespace Sys2Proof

/-- EXCLUSION_MODE (R10, R64): how a held guard stops a handler. -/
inductive ExclusionMode where
  | advisory
  | masked
deriving DecidableEq, Repr

/-- RACE_WINDOW (R10, R65): whether a handler can fire between "guard about to be set" and
"guard actually set". `opened` is the spec's OPEN. -/
inductive RaceWindow where
  | closed
  | opened
deriving DecidableEq, Repr

/-- In which micro-step of a handler RING_RACE is raised: `dispatch`, before the first step mark of the pseudocode of R130
and R132 (R16), or `access`, the handler's first micro-step after the guard test, its first ring access (R171, R65). The
rules differ and no ruling decides, so both are kept as the values of a parameter, as `90_conflicts.md` C9 keeps
RACE_WINDOW. The model's OWN parameter, not one of R10: DESIGN CHOICE (log entry 9), safe. -/
inductive RaceAt where
  | dispatch
  | access
deriving DecidableEq, Repr

/-- ACC_FULL_POLICY (R10, R158): what FC_PULL does with a full accumulation buffer that holds no END. -/
inductive AccFullPolicy where
  | flush
  | stall
deriving DecidableEq, Repr

/-- The implementation parameters of R10, and the model's own `raceAt`. "A value outside the legal range is refused when the instance is
built; no model exists for it": the legal ranges are fields, so an illegal instance cannot be written. -/
structure Params where
  /-- RX_CAP, the capacity of the inbound ring -/
  rxCap : Nat
  /-- TX_CAP, the capacity of the outbound ring -/
  txCap : Nat
  /-- ACC_CAP, the capacity of the accumulation buffer in bytes -/
  accCap : Nat
  /-- HW_TX_DEPTH, default 1 -/
  hwTxDepth : Nat := 1
  /-- HW_RX_DEPTH, default 1 -/
  hwRxDepth : Nat := 1
  /-- EXCLUSION_MODE, default ADVISORY -/
  exclusion : ExclusionMode := .advisory
  /-- RACE_WINDOW, default CLOSED -/
  race : RaceWindow := .closed
  /-- the model's own parameter (log entry 9): where RING_RACE is raised, default as the pseudocode of R130 and R132 has it -/
  raceAt : RaceAt := .dispatch
  /-- ACC_FULL_POLICY, default FLUSH -/
  accFull : AccFullPolicy := .flush
  rxCap_legal : 1 ≤ rxCap ∧ rxCap ≤ 65535 := by decide
  txCap_legal : 1 ≤ txCap ∧ txCap ≤ 65535 := by decide
  accCap_legal : 4 ≤ accCap ∧ accCap ≤ 65535 := by decide
  hwTxDepth_legal : 1 ≤ hwTxDepth := by decide
  hwRxDepth_legal : 1 ≤ hwRxDepth := by decide
deriving DecidableEq, Repr

/-- The parameters `State.reset` is built with. RX_CAP, TX_CAP and ACC_CAP are OPEN in the spec: the values
are those its test vectors use (95_test_vectors.md, conventions). DESIGN CHOICE (log entry 1), unsafe for a
statement that rests on them; no obligation does. -/
def Params.vectors : Params := { rxCap := 16, txCap := 16, accCap := 32 }

/-- W, the ring element width in bits: 8, fixed (R10, R98). -/
def elementWidth : Nat := 8

/-- THE FREE VALUE of the model: where the spec leaves it open which enabled agent takes the next micro-step
(R60, R181) and the schedule of the state names none, the number `freeMove k` picks, `k` being the count of
free choices made so far. It has no body: nothing can be proved of its values (log entry 2). -/
opaque Config.freeMove : Nat → Nat

end Sys2Proof
end

