-- ==== Sys2Proof/Syntax.lean ====
section
/-! DEFINITION. The commands and events of the block: one constructor per row of the opcode map (R84), the
pseudo-commands of R90 and the assembler syntax of R89. -/

namespace Sys2Proof

/-- RS, the ring select of a Format R command: 0 is `rx`, 1 is `tx` (R81). -/
inductive RingSel where
  | rx
  | tx
deriving DecidableEq, Repr

/-- One constructor per row of R84. The element-width code WC of RB_INIT has the one legal value 0 (R81) and
is no field. `evTxc` and `evRxd` are the two event codes: they name the handlers and are no host commands (R85). -/
inductive Instr where
  | rbInit (r : RingSel) (capacity : Half)
  | rbWrite (r : RingSel) (b : Byte)
  | rbRead (r : RingSel)
  | rbStatus (r : RingSel)
  | rbOcc (r : RingSel)
  | rbFree (r : RingSel)
  | tpInit
  | tpWrite (bytes : List Byte)
  | tpRead (n : Half)
  | tpReadable
  | tpWriteable
  | fcStart
  | fcPush (b : Byte)
  | fcFinish
  | fcPull
  | evTxc
  | evRxd
deriving DecidableEq, Repr

/-- The capacity of a ring: the parameter RX_CAP or TX_CAP (R22). -/
def Params.cap (p : Params) : RingSel → Nat
  | .rx => p.rxCap
  | .tx => p.txCap

/-! ### Pseudo-commands (R90) -/

/-- `FRAME [b0, ..., bn-1]` expands to `FC_START; FC_PUSH b0; ...; FC_PUSH bn-1; FC_FINISH`. -/
def Pseudo.frame (payload : List Byte) : List Instr :=
  .fcStart :: (payload.map .fcPush ++ [.fcFinish])

/-- `RB_CLEAR r` expands to `RB_INIT r, r.CAP, 8`. -/
def Pseudo.rbClear (p : Params) (r : RingSel) : List Instr := [.rbInit r (BitVec.ofNat 16 (p.cap r))]

/-- `TP_PUTB b` expands to `TP_WRITE [b]`. -/
def Pseudo.tpPutb (b : Byte) : List Instr := [.tpWrite [b]]

/-- `TP_GETB` expands to `TP_READ 1`. -/
def Pseudo.tpGetb : List Instr := [.tpRead 1]

/-- `TP_DRAIN` expands to `TP_READABLE` followed by `TP_READ v`, `v` the value the first command returned. -/
def Pseudo.tpDrain (v : Half) : List Instr := [.tpReadable, .tpRead v]

/-! ### Assembler syntax (R89), numbers in decimal -/

/-- A ring's name in the assembler. -/
def RingSel.asm : RingSel → String
  | .rx => "rx"
  | .tx => "tx"

/-- One command in the syntax of R89. The events have no assembler form (R85): they are shown by their names. -/
def Instr.asm : Instr → String
  | .rbInit r c => "RB_INIT " ++ r.asm ++ ", " ++ toString c.toNat ++ ", " ++ toString elementWidth
  | .rbWrite r b => "RB_WRITE " ++ r.asm ++ ", " ++ toString b.toNat
  | .rbRead r => "RB_READ " ++ r.asm
  | .rbStatus r => "RB_STATUS " ++ r.asm
  | .rbOcc r => "RB_OCC " ++ r.asm
  | .rbFree r => "RB_FREE " ++ r.asm
  | .tpInit => "TP_INIT"
  | .tpWrite bs => "TP_WRITE [" ++ String.intercalate ", " (bs.map fun b => toString b.toNat) ++ "]"
  | .tpRead n => "TP_READ " ++ toString n.toNat
  | .tpReadable => "TP_READABLE"
  | .tpWriteable => "TP_WRITEABLE"
  | .fcStart => "FC_START"
  | .fcPush b => "FC_PUSH " ++ toString b.toNat
  | .fcFinish => "FC_FINISH"
  | .fcPull => "FC_PULL"
  | .evTxc => "EV_TXC"
  | .evRxd => "EV_RXD"

end Sys2Proof
end

