-- ==== Sys2Proof/WellFormed.lean ====
section
/-! DEFINITION. The checks on an instruction that its type does not make: whether it has an encoding
(`wellFormed`), and whether the host port of an instance with given parameters accepts it (`accepted`). -/

namespace Sys2Proof

/-- An instruction has an encoding when the byte count of TP_WRITE fits its 16-bit operand N (R81, R83).
Every other operand has the width of its field. -/
def Instr.wellFormed : Instr → Bool
  | .tpWrite bs => decide (bs.length ≤ 65535)
  | .rbInit _ _ | .rbWrite _ _ | .rbRead _ | .rbStatus _ | .rbOcc _ | .rbFree _ => true
  | .tpInit | .tpRead _ | .tpReadable | .tpWriteable => true
  | .fcStart | .fcPush _ | .fcFinish | .fcPull => true
  | .evTxc | .evRxd => true

/-- The 15 commands; the two event codes are no host commands (R85). -/
def Instr.isCommand : Instr → Bool
  | .evTxc | .evRxd => false
  | .rbInit _ _ | .rbWrite _ _ | .rbRead _ | .rbStatus _ | .rbOcc _ | .rbFree _ => true
  | .tpInit | .tpWrite _ | .tpRead _ | .tpReadable | .tpWriteable => true
  | .fcStart | .fcPush _ | .fcFinish | .fcPull => true

/-- R86 (f): the capacity operand of RB_INIT equals the selected ring's CAP. -/
def Instr.capacityMatches (p : Params) : Instr → Bool
  | .rbInit r c => decide (c.toNat = p.cap r)
  | .rbWrite _ _ | .rbRead _ | .rbStatus _ | .rbOcc _ | .rbFree _ => true
  | .tpInit | .tpWrite _ | .tpRead _ | .tpReadable | .tpWriteable => true
  | .fcStart | .fcPush _ | .fcFinish | .fcPull => true
  | .evTxc | .evRxd => true

/-- What the host port accepts: a command (R85) with an encoding (R81) whose operands R86 does not refuse. -/
def Instr.accepted (p : Params) (i : Instr) : Bool :=
  i.isCommand && i.wellFormed && i.capacityMatches p

end Sys2Proof
end

