-- ==== Sys2Proof/Decode.lean ====
section
/-! DEFINITION. Decoding the 32-bit words of the command port (R81 to R88), total and rejecting by name, the
encoder written from the same tables, and the byte order of data words (R55). -/

namespace Sys2Proof

/-- Why words decode to no instruction. All but `noWord` and `short` are the ILLEGAL cases of R86. -/
inductive DecodeError where
  /-- no word is presented -/
  | noWord
  /-- fewer data words than the first word's length asks for (R87): the command is not there whole -/
  | short
  /-- R86 (a): an opcode outside R84 -/
  | opcode
  /-- R86 (b): RS is 2 or more -/
  | ringSelect
  /-- R86 (c): WC is not 0 -/
  | widthCode
  /-- R86 (d) and R81: a must-be-zero bit of a Format T or Format C word is set -/
  | reservedBits
  /-- R86 (e): a must-be-zero IMM bit of a Format R word is set -/
  | immediate
  /-- R86 (g) and (h): N or B is not 0 in a command without that operand -/
  | operand
  /-- R86 (i): a padding byte of TP_WRITE's last data word is not 0 -/
  | padding
  /-- R85, R86 (a): an event code presented as a command word -/
  | eventCode
deriving DecidableEq, Repr

/-! ### Fields of a command word (R81) -/

/-- OP, bits 31..24. -/
def opOf (w : Word) : Byte := w.extractLsb' 24 8
/-- WC, bits 23..20. -/
def wcOf (w : Word) : BitVec 4 := w.extractLsb' 20 4
/-- RS, bits 19..16. -/
def rsOf (w : Word) : BitVec 4 := w.extractLsb' 16 4
/-- Bits 23..16, must-be-zero in Formats T and C. -/
def midOf (w : Word) : Byte := w.extractLsb' 16 8
/-- IMM or N, bits 15..0. -/
def immOf (w : Word) : Half := w.extractLsb' 0 16
/-- Bits 15..8. -/
def immHiOf (w : Word) : Byte := w.extractLsb' 8 8
/-- B, or IMM[7:0], bits 7..0. -/
def byteOf (w : Word) : Byte := w.extractLsb' 0 8

/-! ### Data words (R55, R83): little-endian -/

/-- The four bytes of a data word, byte 0 in bits 7..0 (R55). -/
def wordBytes (w : Word) : List Byte :=
  [w.extractLsb' 0 8, w.extractLsb' 8 8, w.extractLsb' 16 8, w.extractLsb' 24 8]

/-- The word whose bytes are `b0` (bits 7..0) to `b3` (bits 31..24). -/
def bytesWord (b0 b1 b2 b3 : Byte) : Word := b3 ++ b2 ++ b1 ++ b0

/-- A block of bytes as data words, padding bytes 0 (R55, R82, R83). -/
def packBytes : List Byte → List Word
  | [] => []
  | [a] => [bytesWord a 0 0 0]
  | [a, b] => [bytesWord a b 0 0]
  | [a, b, c] => [bytesWord a b c 0]
  | a :: b :: c :: d :: rest => bytesWord a b c d :: packBytes rest

/-- The number of data words that carry `n` bytes: ceil(n / 4) (R80). -/
def dataWords (n : Nat) : Nat := (n + 3) / 4

/-- R87: a command's length in words, from its first word alone. -/
def commandLength (w : Word) : Nat :=
  if opOf w = 0x21 then 1 + dataWords (immOf w).toNat else 1

/-! ### Decoding -/

/-- The ring of a Format R word: WC must be 0 (R86 (c)), RS is 0 or 1 (R86 (b)). -/
def decodeRing (w : Word) : Except DecodeError RingSel :=
  if wcOf w ≠ 0 then .error .widthCode
  else if rsOf w = 0 then .ok .rx
  else if rsOf w = 1 then .ok .tx
  else .error .ringSelect

/-- A Format R word whose immediate must be 0 (R86 (e)). -/
def decodeRingOnly (w : Word) (mk : RingSel → Instr) : Except DecodeError Instr :=
  match decodeRing w with
  | .error e => .error e
  | .ok r => if immOf w = 0 then .ok (mk r) else .error .immediate

/-- A Format T word with `N = 0` (R86 (d) and (g)). -/
def decodeTNone (w : Word) (i : Instr) : Except DecodeError Instr :=
  if midOf w ≠ 0 then .error .reservedBits
  else if immOf w ≠ 0 then .error .operand
  else .ok i

/-- A Format C word with operand B (R81, R86 (d)); bits 15..8 are must-be-zero (R81, decision D17). DEDUCED (log entry 11). -/
def decodeC (w : Word) (mk : Byte → Except DecodeError Instr) : Except DecodeError Instr :=
  if midOf w ≠ 0 then .error .reservedBits
  else if immHiOf w ≠ 0 then .error .reservedBits
  else mk (byteOf w)

/-- A Format C word with `B = 0` (R86 (h)). -/
def decodeCNone (w : Word) (i : Instr) : Except DecodeError Instr :=
  decodeC w fun b => if b = 0 then .ok i else .error .operand

/-- TP_WRITE's operands (R83): `N` bytes from ceil(N/4) data words, padding 0 (R86 (i)). -/
def decodeTpWrite (w : Word) (rest : List Word) : Except DecodeError (Instr × List Word) :=
  if midOf w ≠ 0 then .error .reservedBits
  else
    let n := (immOf w).toNat
    let k := dataWords n
    if rest.length < k then .error .short
    else
      let bytes := (rest.take k).flatMap wordBytes
      if (bytes.drop n).all (· == 0) then .ok (.tpWrite (bytes.take n), rest.drop k)
      else .error .padding

/-- The one-word instruction of a first word other than TP_WRITE's. An event row fixes OP alone
(opcode_table.json, mask 0xFF000000). DEDUCED (log entry 12), safe. -/
def decodeOne (w : Word) : Except DecodeError Instr :=
  match opOf w with
  | 0x10#8 =>
    match decodeRing w with
    | .error e => .error e
    | .ok r => .ok (.rbInit r (immOf w))
  | 0x11#8 =>
    match decodeRing w with
    | .error e => .error e
    | .ok r => if immHiOf w = 0 then .ok (.rbWrite r (byteOf w)) else .error .immediate
  | 0x12#8 => decodeRingOnly w .rbRead
  | 0x13#8 => decodeRingOnly w .rbStatus
  | 0x14#8 => decodeRingOnly w .rbOcc
  | 0x15#8 => decodeRingOnly w .rbFree
  | 0x20#8 => decodeTNone w .tpInit
  | 0x22#8 => if midOf w ≠ 0 then .error .reservedBits else .ok (.tpRead (immOf w))
  | 0x23#8 => decodeTNone w .tpReadable
  | 0x24#8 => decodeTNone w .tpWriteable
  | 0x30#8 => decodeCNone w .fcStart
  | 0x31#8 => decodeC w fun b => .ok (.fcPush b)
  | 0x32#8 => decodeCNone w .fcFinish
  | 0x33#8 => decodeCNone w .fcPull
  | 0xE0#8 => .ok .evTxc
  | 0xE1#8 => .ok .evRxd
  | _ => .error .opcode

/-- The decoder: the instruction at the head of a list of words, and the words after it (R84, R87, R88).
It reads every row of the opcode map, the event codes among them. -/
def decode : List Word → Except DecodeError (Instr × List Word)
  | [] => .error .noWord
  | w :: rest =>
    if opOf w = 0x21 then decodeTpWrite w rest
    else
      match decodeOne w with
      | .error e => .error e
      | .ok i => .ok (i, rest)

/-- The decoder of the host port: an event code is no command (R85). -/
def decodeCommand (ws : List Word) : Except DecodeError (Instr × List Word) :=
  match decode ws with
  | .error e => .error e
  | .ok (i, rest) => if i.isCommand then .ok (i, rest) else .error .eventCode

/-- Whether the words hold the whole of their first command (R80, R87). -/
def wholeCommand : List Word → Bool
  | [] => false
  | w :: rest => decide (commandLength w ≤ 1 + rest.length)

/-! ### Encoding, from the same tables -/

/-- RS of a ring. -/
def ringCode : RingSel → BitVec 4
  | .rx => 0
  | .tx => 1

/-- A Format R word with WC = 0 (R81). -/
def formatR (op : Byte) (r : RingSel) (imm : Half) : Word := op ++ 0#4 ++ ringCode r ++ imm

/-- A Format T word (R81). -/
def formatT (op : Byte) (n : Half) : Word := op ++ 0#8 ++ n

/-- A Format C word (R81). -/
def formatC (op : Byte) (b : Byte) : Word := op ++ 0#16 ++ b

/-- The opcode of each row (R84). -/
def opcode : Instr → Byte
  | .rbInit _ _ => 0x10
  | .rbWrite _ _ => 0x11
  | .rbRead _ => 0x12
  | .rbStatus _ => 0x13
  | .rbOcc _ => 0x14
  | .rbFree _ => 0x15
  | .tpInit => 0x20
  | .tpWrite _ => 0x21
  | .tpRead _ => 0x22
  | .tpReadable => 0x23
  | .tpWriteable => 0x24
  | .fcStart => 0x30
  | .fcPush _ => 0x31
  | .fcFinish => 0x32
  | .fcPull => 0x33
  | .evTxc => 0xE0
  | .evRxd => 0xE1

/-- The first word of an instruction (R81, R83, R84). -/
def encodeHead : Instr → Word
  | .rbInit r c => formatR 0x10 r c
  | .rbWrite r b => formatR 0x11 r (b.setWidth 16)
  | .rbRead r => formatR 0x12 r 0
  | .rbStatus r => formatR 0x13 r 0
  | .rbOcc r => formatR 0x14 r 0
  | .rbFree r => formatR 0x15 r 0
  | .tpInit => formatT 0x20 0
  | .tpWrite bs => formatT 0x21 (BitVec.ofNat 16 bs.length)
  | .tpRead n => formatT 0x22 n
  | .tpReadable => formatT 0x23 0
  | .tpWriteable => formatT 0x24 0
  | .fcStart => formatC 0x30 0
  | .fcPush b => formatC 0x31 b
  | .fcFinish => formatC 0x32 0
  | .fcPull => formatC 0x33 0
  | .evTxc => formatC 0xE0 0
  | .evRxd => formatC 0xE1 0

/-- The data words after the first word: TP_WRITE's bytes (R83). -/
def encodeTail : Instr → List Word
  | .tpWrite bs => packBytes bs
  | .rbInit _ _ | .rbWrite _ _ | .rbRead _ | .rbStatus _ | .rbOcc _ | .rbFree _ => []
  | .tpInit | .tpRead _ | .tpReadable | .tpWriteable => []
  | .fcStart | .fcPush _ | .fcFinish | .fcPull => []
  | .evTxc | .evRxd => []

/-- The words of a well-formed instruction. -/
def encode (i : Instr) : List Word := encodeHead i :: encodeTail i

/-! ### The host's numbering of an instruction's bits -/

/-- The words of an instruction whose bits are `w`, bit 0 the least significant bit of the first word, padded
with zero words up to the length the first word asks for (R87). -/
def tableWords (nbits w : Nat) : List Word :=
  let v := w % 2 ^ nbits
  let given := (List.range ((nbits + 31) / 32)).map fun k => BitVec.ofNat 32 (v / 2 ^ (32 * k))
  match given with
  | [] => []
  | first :: _ => given ++ List.replicate (commandLength first - given.length) 0

/-- The instruction the decoder reads from the bits `w` of a row of `nbits` bits. -/
def decodeTableWord (nbits w : Nat) : Option Instr :=
  match decode (tableWords nbits w) with
  | .ok (i, _) => some i
  | .error _ => none

end Sys2Proof
end

