-- ==== Sys2Proof/Machine/State.lean ====
section
/-! DEFINITION. The state of one instance of the block (10_state.md), as plain data, the reasons a step can
stop, and the state after reset (R41, R190). -/

namespace Sys2Proof.Machine

/-- A unit-private storage space of 8-bit cells (R50): the written cells as (index, byte) pairs, indices strictly
rising. A cell that is not listed holds no value (R37). -/
abbrev Memory := List Host.Cell

/-- What a cell that nothing has written reads as: no value (R37, R41). -/
def unwrittenCell : Option Byte := none

/-- The canonical form of a storage space: indices strictly rising. No entry equals what an unlisted cell reads
as, since an entry always has a value. -/
abbrev Memory.wf (m : Memory) : Prop := m.Pairwise fun x y => x.1 < y.1

/-- A ring (R22). Its CAP is a parameter. `count` is kept beside the two indices. The indices are natural numbers that the
invariant keeps in range. DESIGN CHOICE (log entry 14). -/
structure Ring where
  /-- the backing array -/
  buf : Memory
  /-- the index of the oldest occupied cell -/
  head : Nat
  /-- the index of the next cell to be written -/
  tail : Nat
  /-- the number of occupied cells -/
  count : Nat
deriving DecidableEq, Repr

/-- The Transport (R26, R28). -/
structure Transport where
  /-- the advisory guard over `tx` -/
  writeLock : Bool
  /-- the advisory guard over `rx` -/
  readLock : Bool
  /-- the line enable -/
  lineEn : Bool
  /-- hidden race flag, used when RACE_WINDOW is OPEN -/
  hostInTx : Bool
  /-- hidden race flag, used when RACE_WINDOW is OPEN -/
  hostInRx : Bool
deriving DecidableEq, Repr

/-- The PHY (R29). -/
structure Phy where
  /-- the transmit slot, oldest first -/
  txq : List Byte
  /-- the receive slot, oldest first -/
  rxq : List Byte
  /-- the transmit-complete pending latch -/
  txPending : Bool
  /-- the receive-data pending latch -/
  rxPending : Bool
  /-- every byte shifted onto the line, oldest first (an observation) -/
  wireOut : List Byte
  /-- the bytes the line environment will still deliver, next first (a free input) -/
  wireIn : List Byte
deriving DecidableEq, Repr

/-- `isr.active` (R31, R36): NONE = 0, TXC = 1, RXD = 2. -/
inductive Handler where
  | none
  | txc
  | rxd
deriving DecidableEq, Repr

/-- The handler context (R31). `loopDone` is the position inside the running handler: the test that ends its drain
loop has been made and its exit micro-step is next (R62 gives both a micro-step of their own). DEDUCED (log entry 8), safe. -/
structure Isr where
  active : Handler
  loopDone : Bool
deriving DecidableEq, Repr

/-- `fc.encState` (R32, R36): IDLE = 0, ENCODING = 1. -/
inductive EncState where
  | idle
  | encoding
deriving DecidableEq, Repr

/-- The FrameCodec (R32, R33). -/
structure Codec where
  encState : EncState
  sum1 : Byte
  sum2 : Byte
  /-- the accumulation buffer -/
  acc : Memory
  /-- how many bytes of it are populated -/
  fill : Nat
deriving DecidableEq, Repr

/-- A position in the body of TP_WRITE (R121): the micro-step that is next. -/
inductive WritePos where
  /-- evaluate the spin condition `tx.count < tx.CAP` -/
  | spin
  /-- OPEN only: set `hostInTx` before a byte's guarded region -/
  | mark
  /-- set `writeLock` before the byte's RingPut -/
  | lock
  /-- RingPut the byte -/
  | put
  /-- clear the guard after the byte -/
  | unlock
  /-- OPEN only: set `hostInTx` before the kick -/
  | kickMark
  /-- set `writeLock` before the kick -/
  | kickLock
  /-- one iteration of the kick, or the test that ends it -/
  | kick
  /-- clear the guard after the kick -/
  | kickUnlock
deriving DecidableEq, Repr

/-- A position in the body of TP_READ (R124). -/
inductive ReadPos where
  /-- OPEN only: set `hostInRx` before a byte's guarded region -/
  | mark
  /-- set `readLock` before the byte's RingGet -/
  | lock
  /-- RingGet the byte -/
  | get
  /-- clear the guard after the byte -/
  | unlock
  /-- OPEN only: set `hostInRx` before the final drain -/
  | drainMark
  /-- set `readLock` before the final drain -/
  | drainLock
  /-- one iteration of the final drain, or the test that ends it -/
  | drain
  /-- clear the guard after the final drain -/
  | drainUnlock
deriving DecidableEq, Repr

/-- `host.phase` (R21): the position inside the command's pseudocode, with its loop counters and the sub-operation
of a codec command. `todo` are the bytes of the running TP_WRITE body still to be queued, `later` the wire bytes
whose bodies ChanWrite runs after it (R147); `left` counts the bytes a TP_READ body still has to dequeue, `out` are
those it has dequeued. -/
inductive Phase where
  /-- the command's first micro-step is next; also the value while the HOST is idle -/
  | start
  /-- the first micro-step of a TP_WRITE body that a codec command runs -/
  | writeEnter (todo : List Byte) (later : List Byte)
  /-- inside a TP_WRITE body -/
  | write (pos : WritePos) (todo : List Byte) (later : List Byte)
  /-- the first micro-step of the TP_READ body that FC_PULL runs -/
  | readEnter (left : Nat)
  /-- inside a TP_READ body -/
  | read (pos : ReadPos) (left : Nat) (out : List Byte)
  /-- FC_PULL: Steps 2 to 6 are next -/
  | decode
deriving DecidableEq, Repr

/-- One response (R82). -/
structure Response where
  status : Byte
  fcode : Byte
  value : Half
  data : List Byte
deriving DecidableEq, Repr

/-- The HOST: its sequencer (R21), the words presented on the command port and not yet taken (R80), and the
responses emitted on the response port, oldest first (R82, R187). -/
structure HostPort where
  /-- `host.cmd`; `none` is NONE -/
  cmd : Option Instr
  /-- `host.phase` -/
  phase : Phase
  port : List Word
  responses : List Response
deriving DecidableEq, Repr

/-- A micro-step of one agent (R60), or the external reset (R190). A schedule is a list of these. -/
inductive Move where
  /-- the HOST: acceptance, or the next micro-step of the command in progress -/
  | host
  /-- the ISR: dispatch of EV_TXC -/
  | dispatchTxc
  /-- the ISR: dispatch of EV_RXD -/
  | dispatchRxd
  /-- the ISR: the running handler's next micro-step -/
  | isr
  /-- the PHY: PhyShiftOut -/
  | shiftOut
  /-- the PHY: PhyArrive -/
  | arrive
  /-- the external reset -/
  | reset
deriving DecidableEq, Repr

/-- The agents that raise faults (R170, R175). -/
inductive Agent where
  | host
  | isr
deriving DecidableEq, Repr

/-- Everything the spec gives one instance, with the parameters it was built with and the schedule: the moves
that are to be taken next (`sched`, the environment's choice of interleaving and of resets) and the number of free
choices made (`tick`). -/
structure State where
  params : Params
  rx : Ring
  tx : Ring
  tp : Transport
  phy : Phy
  isr : Isr
  host : HostPort
  fc : Codec
  /-- the sticky cause code, 0 for no fault (R35) -/
  fault : Byte
  sched : List Move
  tick : Nat
deriving DecidableEq, Repr

/-- The reasons a step stops. -/
inductive Fault where
  /-- Raised by every micro-step asked for while `fault` is not 0, and by `step` when the block is stopped and no
  reset is scheduled: no agent steps until reset (R175). The code is the cause, one of R170. DESIGN CHOICE (log entry 6).
  Safe. -/
  | blockStopped (code : Byte)
  /-- Raised by a read of a ring or accumulation cell that holds no value: R37 calls it a fault of the model, an
  internal error (log entry 13). No state that meets `Safety.Inv` raises it. Safe. -/
  | unwrittenCell
deriving DecidableEq, Repr

/-- The reasons a micro-step has no meaning. -/
inductive Refusal where
  /-- Raised by exec's arm of an instruction that has no meaning yet. Safe. -/
  | notModelled (mnemonic : String)
  /-- Raised by exec of an instruction whose next micro-step is not enabled in the state (R60, R80, R177): another
  command is in progress, a handler is running, or the event may not be dispatched. `step` asks only for enabled
  micro-steps. DESIGN CHOICE (log entry 15). Safe. -/
  | notEnabled
  /-- Raised by exec of a command whose `host.phase` is no position of its pseudocode. No state that meets
  `Safety.Inv` raises it. Safe. -/
  | noSuchPhase
deriving DecidableEq, Repr

/-- The three outcomes of a micro-step of this block. -/
abbrev Result := Host.Outcome State Fault Refusal

/-! ### Updates -/

/-- The state with `rx` replaced. -/
def State.withRx (s : State) (x : Ring) : State := { s with rx := x }
/-- The state with `tx` replaced. -/
def State.withTx (s : State) (x : Ring) : State := { s with tx := x }
/-- The state with `tp` replaced. -/
def State.withTp (s : State) (x : Transport) : State := { s with tp := x }
/-- The state with `phy` replaced. -/
def State.withPhy (s : State) (x : Phy) : State := { s with phy := x }
/-- The state with `isr` replaced. -/
def State.withIsr (s : State) (x : Isr) : State := { s with isr := x }
/-- The state with `host` replaced. -/
def State.withHost (s : State) (x : HostPort) : State := { s with host := x }
/-- The state with `fc` replaced. -/
def State.withFc (s : State) (x : Codec) : State := { s with fc := x }
/-- The state with `fault` replaced. -/
def State.withFault (s : State) (x : Byte) : State := { s with fault := x }
/-- The state with `sched` replaced. -/
def State.withSched (s : State) (x : List Move) : State := { s with sched := x }
/-- The state with `tick` replaced. -/
def State.withTick (s : State) (x : Nat) : State := { s with tick := x }

/-! ### Reset (R41, R190) -/

/-- A ring after reset: EMPTY, indices 0, no cell written. -/
def Ring.reset : Ring := { buf := [], head := 0, tail := 0, count := 0 }

/-- The Transport after reset: guards, hidden flags and line enable 0. -/
def Transport.reset : Transport :=
  { writeLock := false, readLock := false, lineEn := false, hostInTx := false, hostInRx := false }

/-- The PHY after reset. `wireIn` is the environment's and no part of reset (R191): nothing is waiting here. -/
def Phy.reset : Phy :=
  { txq := [], rxq := [], txPending := false, rxPending := false, wireOut := [], wireIn := [] }

/-- The handler context after reset. -/
def Isr.reset : Isr := { active := .none, loopDone := false }

/-- The HOST after reset: idle, nothing presented, nothing answered. `phase` is `start`: R41 gives no value for it
while `cmd` is NONE. DESIGN CHOICE (log entry 4), unsafe. -/
def HostPort.reset : HostPort := { cmd := none, phase := .start, port := [], responses := [] }

/-- The codec after reset: IDLE, sums 0, `fill` 0, no cell written. -/
def Codec.reset : Codec := { encState := .idle, sum1 := 0, sum2 := 0, acc := [], fill := 0 }

/-- The block with parameters `p` right after reset, with an environment that presents and schedules nothing. -/
def State.resetWith (p : Params) : State :=
  { params := p, rx := Ring.reset, tx := Ring.reset, tp := Transport.reset, phy := Phy.reset,
    isr := Isr.reset, host := HostPort.reset, fc := Codec.reset, fault := 0, sched := [], tick := 0 }

/-- The machine right after reset, built with the parameters of the spec's test vectors (log entry 1). -/
def State.reset : State := State.resetWith Params.vectors

end Sys2Proof.Machine
end

