-- ==== Sys2Proof/Machine/Flags.lean ====
section
/-! DEFINITION. The derived status values: ring status and occupancy (R24, R25), the PHY status bits (R30, R115,
R116), and the tests of the mode switches. No flag is stored (R25). -/

namespace Sys2Proof.Machine

/-- `occupied(r)` (R25). -/
def ringOccupied (r : Ring) : Nat := r.count

/-- `free(r)` (R25). -/
def ringFree (cap : Nat) (r : Ring) : Nat := cap - r.count

/-- `empty(r)` (R25). -/
def ringEmpty (r : Ring) : Bool := r.count == 0

/-- `full(r)` (R25). -/
def ringFull (cap : Nat) (r : Ring) : Bool := r.count == cap

/-- The occupancy status of a ring (R24). -/
inductive RingStatus where
  | empty
  | part
  | full
deriving DecidableEq, Repr

/-- `status(r)` (R24). -/
def ringStatus (cap : Nat) (r : Ring) : RingStatus :=
  if ringEmpty r then .empty else if ringFull cap r then .full else .part

/-- The numeric encoding of the status in responses: EMPTY = 0, PARTIAL = 1, FULL = 2 (R24). -/
def statusCode : RingStatus → Half
  | .empty => 0
  | .part => 1
  | .full => 2

/-- `PhyTxFull()` (R30, R115). -/
def phyTxFull (s : State) : Bool := s.phy.txq.length == s.params.hwTxDepth

/-- `PhyRxAvail()` (R30, R116). -/
def phyRxAvail (s : State) : Bool := decide (0 < s.phy.rxq.length)

/-- RACE_WINDOW = OPEN (R65). -/
def raceOpen (s : State) : Bool := s.params.race == .opened

/-- EXCLUSION_MODE = ADVISORY (R64). -/
def advisory (s : State) : Bool := s.params.exclusion == .advisory

end Sys2Proof.Machine
end

