-- ==== Sys2Proof/Machine/Operands.lean ====
section
/-! DEFINITION. Operand and response forms: the selected ring (R83), zero extension (R13, R83), the packing of a
response into words (R82). -/

namespace Sys2Proof.Machine

/-- `zext_16(v)` of a byte (R13, R102). -/
def zext16 (v : Byte) : Half := v.setWidth 16

/-- A count as the 16-bit value of a response (R11, R105). -/
def countValue (n : Nat) : Half := BitVec.ofNat 16 n

/-- `{hi, lo}`: the 16-bit value `hi * 256 + lo` (R13). -/
def pair16 (hi lo : Byte) : Half := hi ++ lo

/-- The ring a Format R command selects (R83). -/
def selected (r : RingSel) (s : State) : Ring :=
  match r with
  | .rx => s.rx
  | .tx => s.tx

/-- The state with the selected ring replaced. -/
def withSelected (r : RingSel) (x : Ring) (s : State) : State :=
  match r with
  | .rx => s.withRx x
  | .tx => s.withTx x

/-- The response word `{status[31:24], fcode[23:16], value[15:0]}` (R82). -/
def responseWord (r : Response) : Word := r.status ++ r.fcode ++ r.value

/-- A response on the response port: its word, then its data words (R82, R55). -/
def responseWords (r : Response) : List Word := responseWord r :: packBytes r.data

end Sys2Proof.Machine
end

