-- ==== Sys2Proof/Machine/Ops.lean ====
section
/-! DEFINITION. The shared operations: storage cells, the ring primitives (R95 to R97), the PHY primitives (R113,
R114), completing a command (R82), taking a fault (R175), entering and leaving a handler (R178, R179), reset (R190),
and the frame of a HOST command's micro-step (R60, R80). -/

namespace Sys2Proof.Machine

/-! ### Storage cells -/

/-- Read one cell. -/
def Memory.read : Memory → Nat → Option Byte
  | [], _ => unwrittenCell
  | (a, b) :: m, k => if a = k then some b else Memory.read m k

/-- Write one cell, keeping the canonical form. -/
def Memory.write : Memory → Nat → Byte → Memory
  | [], k, v => [(k, v)]
  | (a, b) :: m, k, v =>
    if k < a then (k, v) :: (a, b) :: m
    else if k = a then (k, v) :: m
    else (a, b) :: Memory.write m k v

/-- Write the bytes `vs` to the cells from `k` on, in order. -/
def Memory.writeList : Memory → Nat → List Byte → Memory
  | m, _, [] => m
  | m, k, v :: vs => Memory.writeList (Memory.write m k v) (k + 1) vs

/-- Read `n` cells from `k` on; no value if one of them holds none. -/
def Memory.readList (m : Memory) : Nat → Nat → Option (List Byte)
  | _, 0 => some []
  | k, n + 1 =>
    match Memory.read m k, Memory.readList m (k + 1) n with
    | some b, some bs => some (b :: bs)
    | _, _ => none

/-! ### Ring primitives (R95 to R97) -/

/-- The result of RingPut (R95). -/
inductive PutResult where
  | ok
  | dropped
deriving DecidableEq, Repr

/-- `RingPut(r, v)` (R94, R95): a write to a FULL ring is rejected and changes nothing. -/
def ringPut (cap : Nat) (r : Ring) (v : Byte) : Ring × PutResult :=
  if ringFull cap r then (r, .dropped)
  else ({ buf := Memory.write r.buf r.tail v, head := r.head, tail := (r.tail + 1) % cap, count := r.count + 1 }, .ok)

/-- The result of RingGet (R96): the oldest byte and the ring without it, or EMPTY_READ, or the read of a cell with
no value (R37). -/
inductive GetResult where
  | byte (v : Byte) (r : Ring)
  | empty
  | noValue
deriving DecidableEq, Repr

/-- `RingGet(r)` (R96). The cell keeps its value (R38). -/
def ringGet (cap : Nat) (r : Ring) : GetResult :=
  if ringEmpty r then .empty
  else
    match Memory.read r.buf r.head with
    | none => .noValue
    | some v => .byte v { buf := r.buf, head := (r.head + 1) % cap, tail := r.tail, count := r.count - 1 }

/-- `RingReset(r)` (R97): cell values stay (R38). -/
def ringReset (r : Ring) : Ring := { buf := r.buf, head := 0, tail := 0, count := 0 }

/-- `contents(r)` (R23): the occupied cells, oldest first. -/
def contents (cap : Nat) (r : Ring) : List Byte :=
  (List.range r.count).filterMap fun k => Memory.read r.buf ((r.head + k) % cap)

/-! ### PHY primitives (R113, R114) -/

/-- `PhyTxPush(v)` (R113): into a full slot the byte is dropped with no other effect. -/
def phyTxPush (v : Byte) (s : State) : State :=
  if phyTxFull s then s else s.withPhy { s.phy with txq := s.phy.txq ++ [v] }

/-- `PhyRxPop()` (R114): the oldest byte of the receive slot and the state without it; `none` on an empty slot, where
the caller raises EMPTY_READ. -/
def phyRxPop (s : State) : Option (Byte × State) :=
  match s.phy.rxq with
  | [] => none
  | b :: rest => some (b, s.withPhy { s.phy with rxq := rest })

/-! ### Fault codes (R170) -/

/-- 0x01 EMPTY_READ. -/
def codeEmptyRead : Byte := 0x01
/-- 0x02 CODEC_STATE. -/
def codeCodecState : Byte := 0x02
/-- 0x03 RING_RACE. -/
def codeRingRace : Byte := 0x03
/-- 0x04 ILLEGAL. -/
def codeIllegal : Byte := 0x04
/-- 0x05 NOT_INIT. -/
def codeNotInit : Byte := 0x05

/-! ### Completing a command, taking a fault (R82, R175) -/

/-- Status OK (R82). -/
def statusOk : Byte := 0x00
/-- Status DROPPED (R82). -/
def statusDropped : Byte := 0x01
/-- Status FAULTED (R82). -/
def statusFaulted : Byte := 0xFF

/-- Emit a response and set `host.cmd <- NONE` (R82). -/
def emit (r : Response) (s : State) : State :=
  s.withHost { s.host with cmd := none, phase := .start, responses := s.host.responses ++ [r] }

/-- `respond(status, value, data)` of a command that does not fault (R82). -/
def respond (status : Byte) (value : Half) (data : List Byte) (s : State) : State :=
  emit { status := status, fcode := 0, value := value, data := data } s

/-- `raise Fault(code)` (R175): `fault` gets the code; if the faulting agent is the HOST it emits
`respond(FAULTED, 0, [])` with `fcode = fault`. A fault of a handler leaves the HOST's command without a response
(R170). -/
def takeFault (who : Agent) (code : Byte) (s : State) : State :=
  match who with
  | .host => emit { status := statusFaulted, fcode := code, value := 0, data := [] } (s.withFault code)
  | .isr => s.withFault code

/-- The outcome of a HOST micro-step that raises `code`: the state after taking the fault. -/
def raiseHost (code : Byte) (s : State) : Result := .next (takeFault .host code s)

/-- Reset (R190): every field of the block at its value of R41. The environment stays as it is: the line's `wireIn`
(R191), the words still on the command port, the responses already emitted, the schedule. DESIGN CHOICE (log entry 5),
unsafe. -/
def applyReset (s : State) : State :=
  let r := State.resetWith s.params
  { r with
    phy := { r.phy with wireIn := s.phy.wireIn }
    host := { r.host with port := s.host.port, responses := s.host.responses }
    sched := s.sched
    tick := s.tick }

/-! ### Handler entry and exit (R178, R179) -/

/-- Dispatch sets `isr.active` to the handler's name; nothing else changes (R178). -/
def enterHandler (h : Handler) (s : State) : State := s.withIsr { active := h, loopDone := false }

/-- The pending bit of a handler cleared (R176). -/
def clearPending (h : Handler) (s : State) : State :=
  match h with
  | .none => s
  | .txc => s.withPhy { s.phy with txPending := false }
  | .rxd => s.withPhy { s.phy with rxPending := false }

/-- A handler's last micro-step clears its own pending bit and sets `isr.active <- NONE`; nothing is restored,
because nothing was saved (R179). -/
def exitHandler (h : Handler) (s : State) : State :=
  (clearPending h s).withIsr { active := .none, loopDone := false }

/-- The test that ends a handler's drain loop has been made (R62). -/
def endLoop (s : State) : State := s.withIsr { s.isr with loopDone := true }

/-! ### Moves of one byte between a ring and the PHY (R61 (d)) -/

/-- `PhyTxPush(RingGet(tx))`, by the agent `who`. -/
def moveTxToPhy (who : Agent) (s : State) : Result :=
  match ringGet s.params.txCap s.tx with
  | .empty => .next (takeFault who codeEmptyRead s)
  | .noValue => .fault .unwrittenCell
  | .byte v r => .next (phyTxPush v (s.withTx r))

/-- `RingPut(rx, PhyRxPop())`, by the agent `who`. -/
def movePhyToRx (who : Agent) (s : State) : Result :=
  match phyRxPop s with
  | none => .next (takeFault who codeEmptyRead s)
  | some (v, s') => .next (s'.withRx (ringPut s'.params.rxCap s'.rx v).1)

/-! ### A HOST command's micro-step -/

/-- The phase of the command in progress replaced (R21). -/
def setPhase (ph : Phase) (s : State) : State := s.withHost { s.host with phase := ph }

/-- The acceptance micro-step of a command whose words have been taken (R80): `host.cmd` gets the command. A command
that R86 refuses faults ILLEGAL, before any state other than `fault` changes. -/
def acceptCommand (i : Instr) (s : State) : State :=
  if i.accepted s.params then s.withHost { s.host with cmd := some i, phase := .start }
  else takeFault .host codeIllegal s

/-- One micro-step of the command `i`: its acceptance if the HOST is idle (R80), else the micro-step `body` that its
phase says is next, if it is the command in progress. No micro-step while `fault` is not 0 (R175), none of the HOST
while a handler runs (R31). -/
def hostCommand (i : Instr) (body : State → Result) (s : State) : Result :=
  if s.fault ≠ 0 then .fault (.blockStopped s.fault)
  else if s.isr.active ≠ .none then .refused .notEnabled
  else
    match s.host.cmd with
    | none => .next (acceptCommand i s)
    | some j => if j = i then body s else .refused .notEnabled

/-- `require tp.lineEn == 1`, else `raise Fault(NOT_INIT)` (R172). -/
def requireLine (body : State → Result) (s : State) : Result :=
  if s.tp.lineEn then body s else raiseHost codeNotInit s

end Sys2Proof.Machine
end

