-- ==== Sys2Proof/Machine/Frame.lean ====
section
/-! DEFINITION. The wire form of a frame (R141 to R151, R154) as functions on byte lists. -/

namespace Sys2Proof.Machine

/-- Frame start (R141). -/
def START : Byte := 0xF7
/-- Frame end (R141). -/
def END : Byte := 0x7F
/-- Escape introducer (R141). -/
def ESC : Byte := 0xF6
/-- The escape mask (R141). -/
def XMASK : Byte := 0x20

/-- `b in RES`: one of the three reserved byte values (R142). -/
def reserved (b : Byte) : Bool := b == START || b == END || b == ESC

/-- The escaping filter (R142). -/
def esc (b : Byte) : List Byte := if reserved b then [ESC, b ^^^ XMASK] else [b]

/-- One checksum step, sums mod 256 (R143). -/
def flStep (s : Byte × Byte) (b : Byte) : Byte × Byte := (s.1 + b, s.2 + (s.1 + b))

/-- `Fletcher(p)` (R143). -/
def fletcher (p : List Byte) : Byte × Byte := p.foldl flStep (0, 0)

/-- `Encode(p)` (R149). -/
def encodeFrame (p : List Byte) : List Byte :=
  [START] ++ p.flatMap esc ++ esc (fletcher p).1 ++ esc (fletcher p).2 ++ [END]

/-- `Unescape(y)` (R154): the bytes recovered, and whether the region is well formed. -/
def unescape : List Byte → List Byte × Bool
  | [] => ([], true)
  | [b] => if b = ESC then ([], false) else ([b], true)
  | b :: c :: rest =>
    if b = ESC then
      let u := unescape rest
      ((c ^^^ XMASK) :: u.1, u.2)
    else
      let u := unescape (c :: rest)
      (b :: u.1, u.2)

/-- Steps 4 and 5 (R159, R160) on the bytes strictly between START and END: the payload of a frame that is well
formed, has its two checksum bytes and verifies. -/
def verify (y : List Byte) : Option (List Byte) :=
  let u := unescape y
  if u.2 && decide (2 ≤ u.1.length) then
    let n := u.1.length - 2
    let payload := u.1.take n
    if u.1.drop n = [(fletcher payload).1, (fletcher payload).2] then some payload else none
  else none

/-- The bytes from the first START on (R157). -/
def fromStart (bs : List Byte) : List Byte := bs.dropWhile fun b => b != START

/-- The bytes before the first END (R158). -/
def beforeEnd (bs : List Byte) : List Byte := bs.takeWhile fun b => b != END

/-- The bytes from the first END on (R158). -/
def fromEnd (bs : List Byte) : List Byte := bs.dropWhile fun b => b != END

end Sys2Proof.Machine
end

