-- ==== Sys2Proof/Machine/Transport.lean ====
section
/-! DEFINITION. The TP_* commands (41_transport.md), micro-step by micro-step (R61). The bodies of TP_WRITE and
TP_READ are written once: the codec runs the same micro-steps (R111). -/

namespace Sys2Proof.Machine

/-! ### Guards (R26, R28) -/

/-- The guard and the hidden flag over `tx` cleared, one micro-step (R28). -/
def clearTxGuard (s : State) : State := s.withTp { s.tp with writeLock := false, hostInTx := false }

/-- The guard and the hidden flag over `rx` cleared, one micro-step (R28). -/
def clearRxGuard (s : State) : State := s.withTp { s.tp with readLock := false, hostInRx := false }

/-- `tp.writeLock <- 1`. -/
def setWriteLock (s : State) : State := s.withTp { s.tp with writeLock := true }

/-- `tp.readLock <- 1`. -/
def setReadLock (s : State) : State := s.withTp { s.tp with readLock := true }

/-- `tp.hostInTx <- 1` (OPEN). -/
def markTx (s : State) : State := s.withTp { s.tp with hostInTx := true }

/-- `tp.hostInRx <- 1` (OPEN). -/
def markRx (s : State) : State := s.withTp { s.tp with hostInRx := true }

/-! ### The body of TP_WRITE (R121) -/

/-- Where a byte's guarded region begins: with the hidden flag under OPEN, else with the guard (R65). -/
def guardTxPos (s : State) : WritePos := if raceOpen s then .mark else .lock

/-- The position the body goes to with the bytes `todo` still to be queued: the next byte's spin, or the kick's
guard. -/
def nextWritePos (todo : List Byte) (s : State) : WritePos :=
  match todo with
  | _ :: _ => .spin
  | [] => if raceOpen s then .kickMark else .kickLock

/-- After the kick's guard is cleared: `done` if no wire byte of the codec is left, in the same micro-step, else the
next byte's body (R147). -/
def endWrite (done : State → Result) (later : List Byte) (s : State) : Result :=
  match later with
  | [] => done s
  | b :: rest => .next (setPhase (.writeEnter [b] rest) s)

/-- One micro-step of the TP_WRITE body at `pos` (R121). -/
def writeAt (done : State → Result) (pos : WritePos) (todo later : List Byte) (s : State) : Result :=
  match pos with
  | .spin =>
    if s.tx.count < s.params.txCap then .next (setPhase (.write (guardTxPos s) todo later) s)
    else .next (setPhase (.write .spin todo later) s)
  | .mark => .next (setPhase (.write .lock todo later) (markTx s))
  | .lock => .next (setPhase (.write .put todo later) (setWriteLock s))
  | .put =>
    match todo with
    | [] => .refused .noSuchPhase
    | b :: _ => .next (setPhase (.write .unlock todo later) (s.withTx (ringPut s.params.txCap s.tx b).1))
  | .unlock =>
    .next (setPhase (.write (nextWritePos todo.tail s) todo.tail later) (clearTxGuard s))
  | .kickMark => .next (setPhase (.write .kickLock todo later) (markTx s))
  | .kickLock => .next (setPhase (.write .kick todo later) (setWriteLock s))
  | .kick =>
    if phyTxFull s || ringEmpty s.tx then .next (setPhase (.write .kickUnlock todo later) s)
    else moveTxToPhy .host s
  | .kickUnlock => endWrite done later (clearTxGuard s)

/-- The first micro-step of a TP_WRITE body: the line must be enabled, then the first thing the body does. DEDUCED from the
`step` marks (log entry 7). -/
def enterWrite (done : State → Result) (todo later : List Byte) (s : State) : Result :=
  requireLine (fun s => writeAt done (nextWritePos todo s) todo later s) s

/-! ### The body of TP_READ (R124) -/

/-- The position the body goes to with `left` bytes still to dequeue. -/
def nextReadPos (left : Nat) (s : State) : ReadPos :=
  if left = 0 then (if raceOpen s then .drainMark else .drainLock)
  else (if raceOpen s then .mark else .lock)

/-- One micro-step of the TP_READ body at `pos` (R124). `done` gets the bytes dequeued; it runs in the micro-step that
clears the final drain's guard. -/
def readAt (done : List Byte → State → Result) (pos : ReadPos) (left : Nat) (out : List Byte) (s : State) : Result :=
  match pos with
  | .mark => .next (setPhase (.read .lock left out) (markRx s))
  | .lock => .next (setPhase (.read .get left out) (setReadLock s))
  | .get =>
    match ringGet s.params.rxCap s.rx with
    | .empty => raiseHost codeEmptyRead s
    | .noValue => .fault .unwrittenCell
    | .byte v r => .next (setPhase (.read .unlock left (out ++ [v])) (s.withRx r))
  | .unlock =>
    .next (setPhase (.read (nextReadPos (left - 1) s) (left - 1) out) (clearRxGuard s))
  | .drainMark => .next (setPhase (.read .drainLock left out) (markRx s))
  | .drainLock => .next (setPhase (.read .drain left out) (setReadLock s))
  | .drain =>
    if ringFull s.params.rxCap s.rx || !phyRxAvail s then .next (setPhase (.read .drainUnlock left out) s)
    else movePhyToRx .host s
  | .drainUnlock => done out (clearRxGuard s)

/-- The first micro-step of a TP_READ body. -/
def enterRead (done : List Byte → State → Result) (left : Nat) (s : State) : Result :=
  requireLine (fun s => readAt done (nextReadPos left s) left [] s) s

/-! ### The commands -/

/-- TP_INIT (R120). -/
def execTpInit (s : State) : Result :=
  hostCommand .tpInit
    (fun s =>
      .next (respond statusOk 0 []
        (((s.withRx (ringReset s.rx)).withTx (ringReset s.tx)).withTp
          { writeLock := false, readLock := false, lineEn := true, hostInTx := false, hostInRx := false }))) s

/-- TP_WRITE completes: `respond(OK, N, [])` (R121). -/
def tpWriteDone (bytes : List Byte) (s : State) : Result :=
  .next (respond statusOk (countValue bytes.length) [] s)

/-- TP_WRITE (R121). -/
def execTpWrite (bytes : List Byte) (s : State) : Result :=
  hostCommand (.tpWrite bytes)
    (fun s =>
      match s.host.phase with
      | .start => enterWrite (tpWriteDone bytes) bytes [] s
      | .write pos todo later => writeAt (tpWriteDone bytes) pos todo later s
      | .writeEnter _ _ | .readEnter _ | .read _ _ _ | .decode => .refused .noSuchPhase) s

/-- TP_READ completes: `respond(OK, N, out)` (R124). -/
def tpReadDone (n : Half) (out : List Byte) (s : State) : Result := .next (respond statusOk n out s)

/-- TP_READ (R124). -/
def execTpRead (n : Half) (s : State) : Result :=
  hostCommand (.tpRead n)
    (fun s =>
      match s.host.phase with
      | .start => enterRead (tpReadDone n) n.toNat s
      | .read pos left out => readAt (tpReadDone n) pos left out s
      | .writeEnter _ _ | .write _ _ _ | .readEnter _ | .decode => .refused .noSuchPhase) s

/-- TP_READABLE (R127). -/
def execTpReadable (s : State) : Result :=
  hostCommand .tpReadable
    (requireLine fun s => .next (respond statusOk (countValue (ringOccupied s.rx)) [] s)) s

/-- TP_WRITEABLE (R128). -/
def execTpWriteable (s : State) : Result :=
  hostCommand .tpWriteable
    (requireLine fun s => .next (respond statusOk (countValue (ringFree s.params.txCap s.tx)) [] s)) s

end Sys2Proof.Machine
end

