-- ==== Sys2Proof/Machine/Codec.lean ====
section
/-! DEFINITION. The FC_* commands (42_framecodec.md). Their channel is the Transport of the same instance: they run the
micro-steps of the TP_WRITE and TP_READ bodies (R111). -/

namespace Sys2Proof.Machine

/-! ### Encode -/

/-- `ChanWrite(list)`: one TP_WRITE body with `N = 1` for each byte, in order (R147). It is set up at the end of a
command's first micro-step. -/
def chanWrite (bytes : List Byte) (s : State) : Result :=
  match bytes with
  | [] => .refused .noSuchPhase
  | b :: rest => .next (setPhase (.writeEnter [b] rest) s)

/-- The micro-steps of an encode command after its first: the bodies of its ChanWrite, then `done`. -/
def chanMicro (first : State → Result) (done : State → Result) (s : State) : Result :=
  match s.host.phase with
  | .start => first s
  | .writeEnter todo later => enterWrite done todo later s
  | .write pos todo later => writeAt done pos todo later s
  | .readEnter _ | .read _ _ _ | .decode => .refused .noSuchPhase

/-- The encoder's state must be `e`, else CODEC_STATE (R144). -/
def requireEnc (e : EncState) (body : State → Result) (s : State) : Result :=
  if s.fc.encState = e then body s else raiseHost codeCodecState s

/-- FC_START's first micro-step: the checks, then ChanWrite of START (R145). -/
def fcStartFirst (s : State) : Result :=
  requireLine (requireEnc .idle (chanWrite [START])) s

/-- FC_START's end: sums 0, ENCODING, `respond(OK, 0, [])` (R145). -/
def fcStartDone (s : State) : Result :=
  .next (respond statusOk 0 [] (s.withFc { s.fc with sum1 := 0, sum2 := 0, encState := .encoding }))

/-- FC_START (R145). -/
def execFcStart (s : State) : Result := hostCommand .fcStart (chanMicro fcStartFirst fcStartDone) s

/-- The running sums advanced by one payload byte (R143, R146). -/
def pushSums (b : Byte) (s : State) : State :=
  let f := flStep (s.fc.sum1, s.fc.sum2) b
  s.withFc { s.fc with sum1 := f.1, sum2 := f.2 }

/-- FC_PUSH's first micro-step: the checks, the sums, then ChanWrite of the escaped byte (R146). -/
def fcPushFirst (b : Byte) (s : State) : Result :=
  requireLine (requireEnc .encoding fun s => chanWrite (esc b) (pushSums b s)) s

/-- FC_PUSH's end: `respond(OK, 0, [])` (R146). -/
def fcPushDone (s : State) : Result := .next (respond statusOk 0 [] s)

/-- FC_PUSH (R146). -/
def execFcPush (b : Byte) (s : State) : Result := hostCommand (.fcPush b) (chanMicro (fcPushFirst b) fcPushDone) s

/-- The wire bytes of FC_FINISH: the escaped checksum, low byte first, then END (R148). -/
def finishBytes (s : State) : List Byte := esc s.fc.sum1 ++ esc s.fc.sum2 ++ [END]

/-- FC_FINISH's first micro-step (R148). -/
def fcFinishFirst (s : State) : Result :=
  requireLine (requireEnc .encoding fun s => chanWrite (finishBytes s) s) s

/-- FC_FINISH's end: IDLE, the sums kept, `respond(OK, {sum2, sum1}, [])` (R148). -/
def fcFinishDone (s : State) : Result :=
  .next (respond statusOk (pair16 s.fc.sum2 s.fc.sum1) [] (s.withFc { s.fc with encState := .idle }))

/-- FC_FINISH (R148). -/
def execFcFinish (s : State) : Result := hostCommand .fcFinish (chanMicro fcFinishFirst fcFinishDone) s

/-! ### Decode -/

/-- The populated part of the accumulation buffer moved: the bytes `bs` at offset 0, `fill` their number. -/
def accMoved (bs : List Byte) (c : Codec) : Codec :=
  { c with acc := Memory.writeList c.acc 0 bs, fill := bs.length }

/-- The populated part discarded: `fc.fill <- 0`. -/
def accCleared (c : Codec) : Codec := { c with fill := 0 }

/-- Step 6 (R161): the region through END is retired; `rest` are the bytes past END. -/
def retire (rest : List Byte) (c : Codec) : Codec :=
  match fromStart rest with
  | [] => accCleared c
  | b :: bs => accMoved (b :: bs) c

/-- Steps 3 to 6 (R158 to R161) on a buffer that holds START followed by `body`: the payload reported (empty for
length 0) and the codec left behind. -/
def stepsFromStart (p : Params) (body : List Byte) (c : Codec) : List Byte × Codec :=
  match fromEnd body with
  | [] => ([], if c.fill = p.accCap ∧ p.accFull = .flush then accCleared c else c)
  | _ :: rest => ((verify (beforeEnd body)).getD [], retire rest c)

/-- Steps 2 to 6 (R157 to R161) on the populated bytes `bs` of the accumulation buffer. -/
def stepsTwoToSix (p : Params) (bs : List Byte) (c : Codec) : List Byte × Codec :=
  match fromStart bs with
  | [] => ([], accCleared c)
  | b :: body => stepsFromStart p body (accMoved (b :: body) c)

/-- FC_PULL's last micro-step: Steps 2 to 6, then `respond(OK, length, payload)` (R155). A populated cell without a
value is an internal error (R37). -/
def fcPullDecode (s : State) : Result :=
  match Memory.readList s.fc.acc 0 s.fc.fill with
  | none => .fault .unwrittenCell
  | some bs =>
    let r := stepsTwoToSix s.params bs s.fc
    .next (respond statusOk (countValue r.1.length) r.1 (s.withFc r.2))

/-- FC_PULL's first micro-step: `n <- readableCount()`, clamped to the free space of the accumulation buffer (R156). -/
def fcPullFirst (s : State) : Result :=
  requireLine (fun s => .next (setPhase (.readEnter (min (ringOccupied s.rx) (s.params.accCap - s.fc.fill))) s)) s

/-- The end of the ingest: the bytes read go to the accumulation buffer at `fill` (R156), in the micro-step that clears the
last guard. DEDUCED from the `step` marks (log entry 7), unsafe. -/
def fcPullIngest (bytes : List Byte) (s : State) : Result :=
  .next (setPhase .decode (s.withFc
    { s.fc with acc := Memory.writeList s.fc.acc s.fc.fill bytes, fill := s.fc.fill + bytes.length }))

/-- FC_PULL (R155). -/
def execFcPull (s : State) : Result :=
  hostCommand .fcPull
    (fun s =>
      match s.host.phase with
      | .start => fcPullFirst s
      | .readEnter left => enterRead fcPullIngest left s
      | .read pos left out => readAt fcPullIngest pos left out s
      | .decode => fcPullDecode s
      | .writeEnter _ _ | .write _ _ _ => .refused .noSuchPhase) s

end Sys2Proof.Machine
end

