-- ==== Sys2Proof/Machine/Handlers.lean ====
section
/-! DEFINITION. The two hardware-event handlers (R130, R132) and their dispatch (R177), micro-step by micro-step: the
dispatch with the guard test, one micro-step per loop iteration or ending test, then the exit (R62). The race is raised in
the dispatch (R130, R132) or at the first ring access (R65, R171): the parameter `raceAt` says which (log entry 9). -/

namespace Sys2Proof.Machine

/-- Whether the dispatch of EV_TXC is enabled, `fault == 0` and `isr.active == NONE` apart (R177 (a)). -/
def txcWaiting (s : State) : Bool := s.tp.lineEn && s.phy.txPending && (advisory s || !s.tp.writeLock)

/-- Whether the dispatch of EV_RXD is enabled, `fault == 0` and `isr.active == NONE` apart (R177 (b)). -/
def rxdWaiting (s : State) : Bool := s.tp.lineEn && s.phy.rxPending && (advisory s || !s.tp.readLock)

/-- The dispatch micro-step of a handler whose guard is `guard` and whose hidden flag is `hidden`: it enters the handler, with
the guard held it exits at once, and with the guard clear and the flag set under OPEN it raises RING_RACE (R130, R132, R178);
with `raceAt = access` that is left to the first ring access (R65, R171; log entry 9). -/
def dispatchHandler (h : Handler) (guard hidden : Bool) (s : State) : Result :=
  let entered := enterHandler h s
  if guard then .next (exitHandler h entered)
  else if raceOpen s && hidden && s.params.raceAt == .dispatch then .next (takeFault .isr codeRingRace entered)
  else .next entered

/-- A micro-step of a running handler that touches its ring, whose hidden flag is `hidden`: under OPEN with the flag set the
access raises RING_RACE in place of `access` (R28, R65, R171). No HOST micro-step falls inside a handler, so the flag is
as the guard test found it. With `raceAt = dispatch` no run comes here with the flag set (log entry 9). -/
def ringAccess (hidden : Bool) (access : State → Result) (s : State) : Result :=
  if raceOpen s && hidden then .next (takeFault .isr codeRingRace s) else access s

/-- One iteration of EV_TXC's drain loop: the test that ends it, or the move of one byte (R130). -/
def txcDrain (s : State) : Result :=
  if ringEmpty s.tx || phyTxFull s then .next (endLoop s) else moveTxToPhy .isr s

/-- One iteration of EV_RXD's drain loop (R132). -/
def rxdDrain (s : State) : Result :=
  if ringFull s.params.rxCap s.rx || !phyRxAvail s then .next (endLoop s) else movePhyToRx .isr s

/-- One micro-step of the running EV_TXC: the exit, or an iteration of its loop (R62, R130). -/
def txcMicro (s : State) : Result :=
  if s.isr.loopDone then .next (exitHandler .txc s) else ringAccess s.tp.hostInTx txcDrain s

/-- One micro-step of the running EV_RXD (R62, R132). -/
def rxdMicro (s : State) : Result :=
  if s.isr.loopDone then .next (exitHandler .rxd s) else ringAccess s.tp.hostInRx rxdDrain s

/-- EV_TXC, the transmit-complete handler (R130): its dispatch if no handler runs and it may be dispatched (R177), its
next micro-step if it is running. -/
def execEvTxc (s : State) : Result :=
  if s.fault ≠ 0 then .fault (.blockStopped s.fault)
  else
    match s.isr.active with
    | .none => if txcWaiting s then dispatchHandler .txc s.tp.writeLock s.tp.hostInTx s else .refused .notEnabled
    | .txc => txcMicro s
    | .rxd => .refused .notEnabled

/-- EV_RXD, the receive-data handler (R132). -/
def execEvRxd (s : State) : Result :=
  if s.fault ≠ 0 then .fault (.blockStopped s.fault)
  else
    match s.isr.active with
    | .none => if rxdWaiting s then dispatchHandler .rxd s.tp.readLock s.tp.hostInRx s else .refused .notEnabled
    | .rxd => rxdMicro s
    | .txc => .refused .notEnabled

end Sys2Proof.Machine
end

