-- ==== Sys2Proof/Machine/Ring.lean ====
section
/-! DEFINITION. The RB_* commands (40_ringbuffer.md): each is one micro-step (R61 (e)), takes no guard and needs no
TP_INIT (R108). -/

namespace Sys2Proof.Machine

/-- RB_INIT (R99). The capacity operand has been checked at acceptance (R86 (f)). -/
def execRbInit (r : RingSel) (capacity : Half) (s : State) : Result :=
  hostCommand (.rbInit r capacity)
    (fun s => .next (respond statusOk 0 [] (withSelected r (ringReset (selected r s)) s))) s

/-- The response status of RB_WRITE (R100). -/
def putStatus : PutResult → Byte
  | .ok => statusOk
  | .dropped => statusDropped

/-- RB_WRITE (R100). -/
def execRbWrite (r : RingSel) (b : Byte) (s : State) : Result :=
  hostCommand (.rbWrite r b)
    (fun s =>
      let put := ringPut (s.params.cap r) (selected r s) b
      .next (respond (putStatus put.2) 0 [] (withSelected r put.1 s))) s

/-- RB_READ (R102): EMPTY_READ on an EMPTY ring. -/
def execRbRead (r : RingSel) (s : State) : Result :=
  hostCommand (.rbRead r)
    (fun s =>
      match ringGet (s.params.cap r) (selected r s) with
      | .empty => raiseHost codeEmptyRead s
      | .noValue => .fault .unwrittenCell
      | .byte v ring => .next (respond statusOk (zext16 v) [] (withSelected r ring s))) s

/-- RB_STATUS (R104). -/
def execRbStatus (r : RingSel) (s : State) : Result :=
  hostCommand (.rbStatus r)
    (fun s => .next (respond statusOk (statusCode (ringStatus (s.params.cap r) (selected r s))) [] s)) s

/-- RB_OCC (R105). -/
def execRbOcc (r : RingSel) (s : State) : Result :=
  hostCommand (.rbOcc r) (fun s => .next (respond statusOk (countValue (ringOccupied (selected r s))) [] s)) s

/-- RB_FREE (R106). -/
def execRbFree (r : RingSel) (s : State) : Result :=
  hostCommand (.rbFree r)
    (fun s => .next (respond statusOk (countValue (ringFree (s.params.cap r) (selected r s))) [] s)) s

end Sys2Proof.Machine
end

