-- ==== Sys2Proof/Machine/Dispatch.lean ====
section
/-! DEFINITION. exec: one micro-step of an instruction, one arm per constructor. -/

namespace Sys2Proof.Machine

def exec (i : Instr) (s : State) : Host.Outcome State Fault Refusal :=
  match i with
  | .rbInit r capacity => Sys2Proof.Machine.execRbInit r capacity s
  | .rbWrite r b => Sys2Proof.Machine.execRbWrite r b s
  | .rbRead r => Sys2Proof.Machine.execRbRead r s
  | .rbStatus r => Sys2Proof.Machine.execRbStatus r s
  | .rbOcc r => Sys2Proof.Machine.execRbOcc r s
  | .rbFree r => Sys2Proof.Machine.execRbFree r s
  | .tpInit => Sys2Proof.Machine.execTpInit s
  | .tpWrite bytes => Sys2Proof.Machine.execTpWrite bytes s
  | .tpRead n => Sys2Proof.Machine.execTpRead n s
  | .tpReadable => Sys2Proof.Machine.execTpReadable s
  | .tpWriteable => Sys2Proof.Machine.execTpWriteable s
  | .fcStart => Sys2Proof.Machine.execFcStart s
  | .fcPush b => Sys2Proof.Machine.execFcPush b s
  | .fcFinish => Sys2Proof.Machine.execFcFinish s
  | .fcPull => Sys2Proof.Machine.execFcPull s
  | .evTxc => Sys2Proof.Machine.execEvTxc s
  | .evRxd => Sys2Proof.Machine.execEvRxd s

end Sys2Proof.Machine
end

