-- ==== Sys2Proof/Machine/Phy.lean ====
section
/-! DEFINITION. The PHY's micro-steps (R63): PhyShiftOut (R117) and PhyArrive (R118). -/

namespace Sys2Proof.Machine

/-- `PhyShiftOut` (R117): the oldest byte of the transmit slot goes onto the line; the transmit-complete event is
raised when the slot becomes empty, and only then. -/
def phyShiftOut (s : State) : State :=
  match s.phy.txq with
  | [] => s
  | b :: rest =>
    s.withPhy { s.phy with
      txq := rest, wireOut := s.phy.wireOut ++ [b], txPending := rest.isEmpty || s.phy.txPending }

/-- `PhyArrive` (R118): the next byte of the line environment goes into the receive slot if it has room, else it is
dropped silently; the receive event is raised either way. -/
def phyArrive (s : State) : State :=
  match s.phy.wireIn with
  | [] => s
  | b :: rest =>
    s.withPhy { s.phy with
      wireIn := rest
      rxq := if s.phy.rxq.length < s.params.hwRxDepth then s.phy.rxq ++ [b] else s.phy.rxq
      rxPending := true }

end Sys2Proof.Machine
end

