-- ==== Sys2Proof/Machine/Schedule.lean ====
section
/-! DEFINITION. Which micro-steps are enabled (R60, R177), and which one is next. Which enabled agent takes the next
micro-step is free (R60, R181): the schedule in the state names it, and where the schedule names none the free value
`Config.freeMove` picks. DESIGN CHOICE (log entry 2), safe. -/

namespace Sys2Proof.Machine

/-- The HOST has a micro-step: a command is in progress, or the words of a whole command are presented (R60, R80). -/
def hostHasWork (s : State) : Bool := s.host.cmd.isSome || wholeCommand s.host.port

/-- Whether a move is enabled (R60, R117, R118, R177). The external reset always is. -/
def enabled (s : State) : Move → Bool
  | .host => s.fault == 0 && s.isr.active == .none && hostHasWork s
  | .dispatchTxc => s.fault == 0 && s.isr.active == .none && txcWaiting s
  | .dispatchRxd => s.fault == 0 && s.isr.active == .none && rxdWaiting s
  | .isr => s.fault == 0 && s.isr.active != .none
  | .shiftOut => s.fault == 0 && s.tp.lineEn && !s.phy.txq.isEmpty
  | .arrive => s.fault == 0 && s.tp.lineEn && !s.phy.wireIn.isEmpty
  | .reset => true

/-- The agents' micro-steps. Reset is none of them: it comes from outside and happens only where the schedule says. -/
def agentMoves : List Move := [.host, .isr, .dispatchTxc, .dispatchRxd, .shiftOut, .arrive]

/-- The agents' micro-steps that are enabled. -/
def enabledMoves (s : State) : List Move := agentMoves.filter (enabled s)

/-- The move that is next and the state with the choice taken off: the first enabled move of the schedule, those before
it dropped; when the schedule has none, the only enabled micro-step, or a free choice among several. `none`: no
micro-step is enabled and no reset is scheduled. -/
def chooseMove (s : State) : Option (Move × State) :=
  match s.sched.dropWhile fun m => !enabled s m with
  | m :: rest => some (m, s.withSched rest)
  | [] =>
    match enabledMoves s with
    | [] => none
    | [m] => some (m, s.withSched [])
    | m :: ms => some ((m :: ms).getD (Config.freeMove s.tick % (ms.length + 1)) m, (s.withSched []).withTick (s.tick + 1))

end Sys2Proof.Machine
end

