-- ==== Sys2Proof/Machine/Perform.lean ====
section
/-! DEFINITION. What a chosen move does. Everything an agent does is exec of an instruction or one of the PHY's two
micro-steps. -/

namespace Sys2Proof.Machine

/-- The words of the next command taken off the port (R80), and exec of it, which is its acceptance micro-step. Words that
decode to no command fault ILLEGAL in that micro-step (R86, R174). A command is taken whole: while data words are missing
there is nothing to accept, and `hostHasWork` does not ask for it. DESIGN CHOICE (log entry 10), unsafe. -/
def acceptNext (s : State) : Result :=
  match s.host.port with
  | [] => .refused .notEnabled
  | w :: ws =>
    match decodeCommand (w :: ws) with
    | .ok (i, rest) => exec i (s.withHost { s.host with port := rest })
    | .error .short => .refused .notEnabled
    | .error _ => raiseHost codeIllegal (s.withHost { s.host with port := (w :: ws).drop (commandLength w) })

/-- The HOST's micro-step: the command in progress, or the acceptance of the next one. -/
def hostMove (s : State) : Result :=
  match s.host.cmd with
  | some i => exec i s
  | none => acceptNext s

/-- The running handler's next micro-step. -/
def isrMove (s : State) : Result :=
  match s.isr.active with
  | .none => .refused .notEnabled
  | .txc => exec .evTxc s
  | .rxd => exec .evRxd s

/-- What a move does to the state. -/
def perform (m : Move) (s : State) : Result :=
  match m with
  | .host => hostMove s
  | .dispatchTxc => exec .evTxc s
  | .dispatchRxd => exec .evRxd s
  | .isr => isrMove s
  | .shiftOut => .next (phyShiftOut s)
  | .arrive => .next (phyArrive s)
  | .reset => .next (applyReset s)

/-- What happens when no micro-step is enabled and no reset is scheduled: the stopped block stays stopped (R175); a block
without a fault waits for its environment, unchanged but for the schedule, of which no move was enabled. DESIGN CHOICE (log
entry 6), safe. -/
def rest (s : State) : Result :=
  if s.fault ≠ 0 then .fault (.blockStopped s.fault) else .next (s.withSched [])

/-- The next micro-step. -/
def nextMicroStep (s : State) : Result :=
  match chooseMove s with
  | some (m, s') => perform m s'
  | none => rest s

/-! ### Placing an instruction as the next one -/

/-- The HOST idle and not stopped, so that it accepts what is presented next. -/
def hostIdle (s : State) : State :=
  (((s.withFault 0).withIsr { active := .none, loopDone := false }).withHost
    { s.host with cmd := none, phase := .start })

/-- A command presented first on the command port, and the HOST's micro-step next. -/
def presentCommand (ws : List Word) (s : State) : State :=
  let s := hostIdle s
  (s.withHost { s.host with port := ws ++ s.host.port }).withSched (.host :: s.sched)

/-- The transmit-complete event pending on an enabled line, with the guard not masking it, and the dispatch of its handler
next. -/
def presentTxc (s : State) : State :=
  let s := s.withFault 0
  (((s.withIsr { active := .none, loopDone := false }).withTp
    { s.tp with lineEn := true, writeLock := if advisory s then s.tp.writeLock else false }).withPhy
    { s.phy with txPending := true }).withSched (.dispatchTxc :: s.sched)

/-- The receive event pending on an enabled line, with the guard not masking it, and the dispatch of its handler next. -/
def presentRxd (s : State) : State :=
  let s := s.withFault 0
  (((s.withIsr { active := .none, loopDone := false }).withTp
    { s.tp with lineEn := true, readLock := if advisory s then s.tp.readLock else false }).withPhy
    { s.phy with rxPending := true }).withSched (.dispatchRxd :: s.sched)

/-- The state in which the instruction whose words are `ws` is the next one to run: a command stands on the command port;
an event code stands for its pending event, since it is no command (R85). -/
def presentWords (ws : List Word) (s : State) : State :=
  match ws with
  | [] => s
  | w :: rest =>
    match opOf w with
    | 0xE0#8 => presentTxc s
    | 0xE1#8 => presentRxd s
    | _ => presentCommand (w :: rest) s

end Sys2Proof.Machine
end

