-- ==== Sys2Proof/Machine/Step.lean ====
section
/-! DEFINITION. One step of the machine: one micro-step of one agent (R60), or an external reset (R190). -/

namespace Sys2Proof.Machine

/-- One step. -/
def step (s : State) : Host.Outcome State Fault Refusal := nextMicroStep s

/-- The state in which the next step runs the instruction whose bits are `w` (log entry 3). -/
def State.withFetchWord (s : State) (nbits w : Nat) : State := presentWords (tableWords nbits w) s

end Sys2Proof.Machine
end

