-- ==== Sys2Proof/Safety.lean ====
section
/-! DEFINITION. What counts as a good state and a safe run, in the terms the statements use: the invariants the spec
gives (R23, R27, R28, R33, R34, R37, R170, R171, and the at-most-one-accessor invariant of 90_conflicts.md C9), the
conditions under which an agent steps, and the observations of the laws of R129. -/

namespace Sys2Proof.Safety

open Sys2Proof.Machine

/-! ### Rings, PHY, codec -/

/-- The ring invariant of R23, with every occupied cell holding a value (R37) and every cell inside the array (R22). -/
structure RingOk (cap : Nat) (r : Ring) : Prop where
  canonical : Memory.wf r.buf
  inside : ∀ c ∈ r.buf, c.1 < cap
  head_lt : r.head < cap
  count_le : r.count ≤ cap
  tail_eq : r.tail = (r.head + r.count) % cap
  written : ∀ k, k < r.count → (Memory.read r.buf ((r.head + k) % cap)).isSome

/-- The slots never hold more than their depth (R29). -/
structure PhyOk (s : State) : Prop where
  txq_le : s.phy.txq.length ≤ s.params.hwTxDepth
  rxq_le : s.phy.rxq.length ≤ s.params.hwRxDepth

/-- The accumulation buffer: `fill` in range and every populated cell holding a value (R33), every cell inside the buffer. -/
structure AccOk (p : Params) (c : Codec) : Prop where
  canonical : Memory.wf c.acc
  inside : ∀ x ∈ c.acc, x.1 < p.accCap
  fill_le : c.fill ≤ p.accCap
  written : ∀ k, k < c.fill → (Memory.read c.acc k).isSome

/-- R34: between ingest and decode apart, the accumulation buffer is empty or begins with START. -/
def StartAtZero (s : State) : Prop :=
  s.host.phase ≠ .decode → s.fc.fill = 0 ∨ Memory.read s.fc.acc 0 = some START

/-! ### Guards -/

/-- The phase is inside a region guarded by `writeLock` (R121). -/
def holdsTx : Phase → Bool
  | .write .put _ _ | .write .unlock _ _ | .write .kick _ _ | .write .kickUnlock _ _ => true
  | .write .spin _ _ | .write .mark _ _ | .write .lock _ _ | .write .kickMark _ _ | .write .kickLock _ _ => false
  | .start | .writeEnter _ _ | .readEnter _ | .read _ _ _ | .decode => false

/-- The phase is one in which `hostInTx` is set under OPEN (R28, R121). -/
def marksTx : Phase → Bool
  | .write .lock _ _ | .write .put _ _ | .write .unlock _ _ => true
  | .write .kickLock _ _ | .write .kick _ _ | .write .kickUnlock _ _ => true
  | .write .spin _ _ | .write .mark _ _ | .write .kickMark _ _ => false
  | .start | .writeEnter _ _ | .readEnter _ | .read _ _ _ | .decode => false

/-- The phase is inside a region guarded by `readLock` (R124). -/
def holdsRx : Phase → Bool
  | .read .get _ _ | .read .unlock _ _ | .read .drain _ _ | .read .drainUnlock _ _ => true
  | .read .mark _ _ | .read .lock _ _ | .read .drainMark _ _ | .read .drainLock _ _ => false
  | .start | .writeEnter _ _ | .readEnter _ | .write _ _ _ | .decode => false

/-- The phase is one in which `hostInRx` is set under OPEN (R28, R124). -/
def marksRx : Phase → Bool
  | .read .lock _ _ | .read .get _ _ | .read .unlock _ _ => true
  | .read .drainLock _ _ | .read .drain _ _ | .read .drainUnlock _ _ => true
  | .read .mark _ _ | .read .drainMark _ _ => false
  | .start | .writeEnter _ _ | .readEnter _ | .write _ _ _ | .decode => false

/-- While the block is not stopped, the guards and the hidden flags are set exactly in the regions their commands guard
(R27, R28). -/
structure GuardsOk (s : State) : Prop where
  writeLock_eq : s.tp.writeLock = holdsTx s.host.phase
  readLock_eq : s.tp.readLock = holdsRx s.host.phase
  hostInTx_eq : s.tp.hostInTx = (raceOpen s && marksTx s.host.phase)
  hostInRx_eq : s.tp.hostInRx = (raceOpen s && marksRx s.host.phase)

/-! ### The HOST's position -/

/-- A position of the TP_WRITE body with the bytes it needs, and with the room its spin has seen (R121, R123). -/
def WritePosOk (s : State) (pos : WritePos) (todo : List Byte) : Prop :=
  match pos with
  | .spin => todo ≠ []
  | .mark => todo ≠ [] ∧ s.tx.count < s.params.txCap ∧ raceOpen s = true
  | .lock | .put => todo ≠ [] ∧ s.tx.count < s.params.txCap
  | .unlock => todo ≠ []
  | .kickMark => todo = [] ∧ raceOpen s = true
  | .kickLock | .kick | .kickUnlock => todo = []

/-- A position of the TP_READ body with the bytes it still has to dequeue (R124). -/
def ReadPosOk (s : State) (pos : ReadPos) (left : Nat) : Prop :=
  match pos with
  | .mark => 0 < left ∧ raceOpen s = true
  | .lock | .get | .unlock => 0 < left
  | .drainMark => left = 0 ∧ raceOpen s = true
  | .drainLock | .drain | .drainUnlock => left = 0

/-- The bytes FC_PULL's ingest still dequeues are in `rx` (R155: its TP_READ body never finds the ring empty). -/
def PullCovered (s : State) (pos : ReadPos) (left : Nat) : Prop :=
  match pos with
  | .mark | .lock | .get => left ≤ s.rx.count
  | .unlock => left - 1 ≤ s.rx.count
  | .drainMark | .drainLock | .drain | .drainUnlock => True

/-- The bytes a TP_READ body has not dequeued yet: at `unlock` the current byte is dequeued already. -/
def remaining (pos : ReadPos) (left : Nat) : Nat := if pos = .unlock then left - 1 else left

/-- The command runs TP_WRITE bodies, one wire byte each (R147). -/
def IsEncode (cmd : Option Instr) : Prop :=
  cmd = some .fcStart ∨ (∃ b, cmd = some (.fcPush b)) ∨ cmd = some .fcFinish

/-- The loop data of a TP_WRITE body belong to the command in progress: a suffix of TP_WRITE's bytes, or at most the one wire
byte of a codec's body (R121, R147). -/
def WriterOk (cmd : Option Instr) (todo later : List Byte) : Prop :=
  (∃ bytes, cmd = some (.tpWrite bytes) ∧ todo <:+ bytes ∧ later = []) ∨ (IsEncode cmd ∧ todo.length ≤ 1)

/-- The loop data of a TP_READ body belong to the command in progress (R124, R156). -/
def ReaderOk (s : State) (pos : ReadPos) (left : Nat) (out : List Byte) : Prop :=
  (∃ n, s.host.cmd = some (.tpRead n) ∧ remaining pos left + out.length = n.toNat) ∨
  (s.host.cmd = some .fcPull ∧ s.fc.fill + remaining pos left + out.length ≤ s.params.accCap ∧ PullCovered s pos left)

/-- The phase is a position of the pseudocode of the command in progress (R21). -/
def PhaseOk (s : State) : Prop :=
  match s.host.phase with
  | .start => True
  | .writeEnter todo _ => IsEncode s.host.cmd ∧ todo.length = 1
  | .write pos todo later => WriterOk s.host.cmd todo later ∧ WritePosOk s pos todo
  | .readEnter left => s.host.cmd = some .fcPull ∧ left ≤ s.rx.count ∧ s.fc.fill + left ≤ s.params.accCap
  | .read pos left out => ReaderOk s pos left out ∧ ReadPosOk s pos left
  | .decode => s.host.cmd = some .fcPull

/-- The HOST: its position is one of its command, the command was accepted (R80, R86), and a command past its first
micro-step that uses the line has the line enabled (R172). -/
structure HostOk (s : State) : Prop where
  phase_ok : PhaseOk s
  idle_start : s.host.cmd = none → s.host.phase = .start
  accepted : ∀ i, s.host.cmd = some i → i.accepted s.params = true
  line : s.host.phase ≠ .start → s.tp.lineEn = true

/-! ### The ISR and the line -/

/-- At most one of the main context and a handler accesses a ring: while a handler runs, the guard of its ring is clear, and
the HOST had not begun to take it, when RING_RACE is raised in the dispatch or the handler has accessed the ring to the end of
its loop (C9; R65, R130, R132). With RING_RACE at the first ring access a handler that the hidden flag meets faults there (log
entry 9). -/
structure Exclusion (s : State) : Prop where
  txc : s.isr.active = .txc →
    s.tp.writeLock = false ∧ (s.isr.loopDone = true ∨ s.params.raceAt = .dispatch → s.tp.hostInTx = false)
  rxd : s.isr.active = .rxd →
    s.tp.readLock = false ∧ (s.isr.loopDone = true ∨ s.params.raceAt = .dispatch → s.tp.hostInRx = false)

/-- No handler runs and nothing waits on a line that is not enabled (R119). -/
structure LineOk (s : State) : Prop where
  isr_line : s.isr.active ≠ .none → s.tp.lineEn = true
  idle_loop : s.isr.active = .none → s.isr.loopDone = false
  off : s.tp.lineEn = false → s.phy.txq = [] ∧ s.phy.rxq = [] ∧ s.phy.txPending = false ∧ s.phy.rxPending = false

/-- The fault register holds 0 or a code of R170; RING_RACE only under OPEN (R171). -/
structure FaultOk (s : State) : Prop where
  code : s.fault.toNat ≤ 5
  race : s.fault = codeRingRace → raceOpen s = true

/-- The invariant of the block: every micro-step keeps it, and reset has it. -/
structure Inv (s : State) : Prop where
  rx : RingOk s.params.rxCap s.rx
  tx : RingOk s.params.txCap s.tx
  phy : PhyOk s
  acc : AccOk s.params s.fc
  start : StartAtZero s
  host : HostOk s
  line : LineOk s
  faultOk : FaultOk s
  guards : s.fault = 0 → GuardsOk s
  exclusion : s.fault = 0 → Exclusion s

/-! ### When an agent steps -/

/-- The HOST may take a micro-step: no fault, no handler running (R60). -/
abbrev HostFree (s : State) : Prop := s.fault = 0 ∧ s.isr.active = .none

/-- The HOST may take a micro-step and its command is `i`. -/
abbrev Running (i : Instr) (s : State) : Prop := HostFree s ∧ s.host.cmd = some i

/-- The command `i` has been accepted and its first execution micro-step is next. -/
abbrev Ready (i : Instr) (s : State) : Prop := Running i s ∧ s.host.phase = .start

/-- A run is safe when the block has not faulted (R175). -/
def NoFault (s : State) : Prop := s.fault = 0

/-- The HOST may take a micro-step and has no command (R80). -/
abbrev IdleHost (s : State) : Prop := HostFree s ∧ s.host.cmd = none

/-! ### How a command ends -/

/-- `t` is `s` with its command completed by the response `r` (R82) and nothing else changed. The phase of an idle HOST is
left open: the spec gives none (log entry 4). -/
def Answers (r : Response) (s t : State) : Prop :=
  ∃ ph, t = s.withHost { s.host with cmd := none, phase := ph, responses := s.host.responses ++ [r] }

/-- `t` is `s` after the HOST's command has faulted with `code` (R82, R175) and nothing else has changed. -/
def Faults (code : Byte) (s t : State) : Prop :=
  Answers { status := 0xFF, fcode := code, value := 0, data := [] } (s.withFault code) t

/-! ### Runs of one instruction with no other agent between its micro-steps ("no interleaving", 95_test_vectors.md) -/

/-- Micro-steps of the instruction `i` up to the first state in which `stop` holds, at most `n` of them. -/
def execUntil (stop : State → Bool) (i : Instr) : Nat → State → Option State
  | 0, _ => none
  | n + 1, s =>
    match exec i s with
    | .next t => if stop t then some t else execUntil stop i n t
    | .fault _ | .refused _ => none

/-- The HOST has no command in progress. -/
def hostDone (s : State) : Bool := s.host.cmd.isNone

/-- No handler is running. -/
def isrDone (s : State) : Bool := s.isr.active == .none

/-- The commands are accepted and executed one after the other, each to its response, without a fault. -/
def CompletesAll : List Instr → State → State → Prop
  | [], s, t => t = s
  | i :: is, s, u => ∃ n t, execUntil hostDone i n s = some t ∧ t.fault = 0 ∧ CompletesAll is t u

/-! ### Illegal command words (R86) -/

/-- The opcodes of Format R commands (R84). -/
def ringOpcodes : List Byte := [0x10, 0x11, 0x12, 0x13, 0x14, 0x15]
/-- The opcodes of Format T commands (R84). -/
def transportOpcodes : List Byte := [0x20, 0x21, 0x22, 0x23, 0x24]
/-- The opcodes of Format C commands (R84). -/
def codecOpcodes : List Byte := [0x30, 0x31, 0x32, 0x33]

/-- The cases of R86 that the words alone decide, in its order, (f) apart; the last case is the must-be-zero field
[15:8] of Format C (R81, decision D17), which R86 does not list. -/
abbrev IllegalWords (w : Word) (ws : List Word) : Prop :=
  opOf w ∉ ringOpcodes ++ transportOpcodes ++ codecOpcodes ∨
  (opOf w ∈ ringOpcodes ∧ 2 ≤ (rsOf w).toNat) ∨
  wcOf w ≠ 0 ∨
  (opOf w ∈ transportOpcodes ++ codecOpcodes ∧ midOf w ≠ 0) ∨
  (opOf w = 0x11 ∧ immHiOf w ≠ 0) ∨
  (opOf w ∈ [0x12, 0x13, 0x14, 0x15] ∧ immOf w ≠ 0) ∨
  (opOf w ∈ [0x20, 0x23, 0x24] ∧ immOf w ≠ 0) ∨
  (opOf w ∈ [0x30, 0x32, 0x33] ∧ byteOf w ≠ 0) ∨
  (opOf w = 0x21 ∧ ∃ b ∈ ((ws.take (dataWords (immOf w).toNat)).flatMap wordBytes).drop (immOf w).toNat, b ≠ 0) ∨
  (opOf w ∈ codecOpcodes ∧ immHiOf w ≠ 0)

/-- R86 (f): RB_INIT whose capacity differs from the selected ring's. -/
abbrev IllegalCapacity (p : Params) (w : Word) : Prop :=
  opOf w = 0x10 ∧ (immOf w).toNat ≠ p.cap (if rsOf w = 0 then .rx else .tx)

/-! ### Rings as queues -/

/-- One access of a ring by its primitives (R93). -/
inductive RingOp where
  | put (v : Byte)
  | get
deriving DecidableEq, Repr

/-- The values the gets return, the values the puts accept, and the ring left behind; `none` when a get meets an EMPTY
ring or a cell with no value. -/
def ringRun (cap : Nat) : List RingOp → Ring → Option (List Byte × List Byte × Ring)
  | [], r => some ([], [], r)
  | .put v :: ops, r =>
    match ringRun cap ops (ringPut cap r v).1 with
    | none => none
    | some (got, put, r') => some (got, (if (ringPut cap r v).2 = .ok then v :: put else put), r')
  | .get :: ops, r =>
    match ringGet cap r with
    | .byte v r₁ =>
      match ringRun cap ops r₁ with
      | none => none
      | some (got, put, r') => some (v :: got, put, r')
    | .empty | .noValue => none

/-! ### FC_PULL on byte lists -/

/-- Steps 2 to 6 (R157 to R161) on the bytes of the accumulation buffer, as lists: the payload reported and the bytes
left behind. -/
def pullOutcome (p : Params) (bs : List Byte) : List Byte × List Byte :=
  match bs.dropWhile (· != START) with
  | [] => ([], [])
  | s0 :: body =>
    match body.dropWhile (· != END) with
    | [] => ([], if (s0 :: body).length = p.accCap ∧ p.accFull = .flush then [] else s0 :: body)
    | _ :: rest => ((verify (body.takeWhile (· != END))).getD [], rest.dropWhile (· != START))

/-- Successive pulls, the `k`-th one ingesting the `k`-th chunk: the payloads reported and the bytes left behind. -/
def pulls (p : Params) : List Byte → List (List Byte) → List (List Byte) × List Byte
  | acc, [] => ([], acc)
  | acc, c :: cs =>
    let o := pullOutcome p (acc ++ c)
    let r := pulls p o.2 cs
    (o.1 :: r.1, r.2)

/-! ### Groups of instructions -/

/-- The commands that use the line and need TP_INIT (R172). -/
def usesLine : Instr → Bool
  | .tpWrite _ | .tpRead _ | .tpReadable | .tpWriteable => true
  | .fcStart | .fcPush _ | .fcFinish | .fcPull => true
  | .rbInit _ _ | .rbWrite _ _ | .rbRead _ | .rbStatus _ | .rbOcc _ | .rbFree _ | .tpInit => false
  | .evTxc | .evRxd => false

/-- The commands that run TP_WRITE bodies (R121, R147). -/
def writesChannel : Instr → Bool
  | .tpWrite _ | .fcStart | .fcPush _ | .fcFinish => true
  | .rbInit _ _ | .rbWrite _ _ | .rbRead _ | .rbStatus _ | .rbOcc _ | .rbFree _ | .tpInit => false
  | .tpRead _ | .tpReadable | .tpWriteable | .fcPull | .evTxc | .evRxd => false

/-- The commands that run a TP_READ body (R124, R156). -/
def readsChannel : Instr → Bool
  | .tpRead _ | .fcPull => true
  | .rbInit _ _ | .rbWrite _ _ | .rbRead _ | .rbStatus _ | .rbOcc _ | .rbFree _ | .tpInit => false
  | .tpWrite _ | .tpReadable | .tpWriteable | .fcStart | .fcPush _ | .fcFinish | .evTxc | .evRxd => false

/-! ### Observations -/

/-- The outbound bytes in order: those on the wire, then those in the transmit slot, then those in `tx` (R129). -/
def outbound (s : State) : List Byte := s.phy.wireOut ++ s.phy.txq ++ contents s.params.txCap s.tx

/-- The inbound bytes the block holds in order: those in `rx`, then those in the receive slot (R129). -/
def inbound (s : State) : List Byte := contents s.params.rxCap s.rx ++ s.phy.rxq

/-- The bytes populated in the accumulation buffer, from offset 0 (R33). -/
def accBytes (s : State) : List Byte := (Memory.readList s.fc.acc 0 s.fc.fill).getD []

/-- The transmitter is stranded (R197): idle while bytes wait in `tx`. -/
def Stranded (s : State) : Prop := s.phy.txq = [] ∧ s.phy.txPending = false ∧ 0 < s.tx.count

/-- A TP_WRITE that spins on a FULL `tx` while the transmitter is idle and no handler is about to drain it (R197 case 1). -/
structure Hung (s : State) : Prop where
  inv : Inv s
  noFault : s.fault = 0
  spinning : ∃ bytes todo later, s.host.cmd = some (.tpWrite bytes) ∧ s.host.phase = .write .spin todo later
  full : s.tx.count = s.params.txCap
  idle : s.phy.txq = [] ∧ s.phy.txPending = false
  noHandler : s.isr.active ≠ .txc

/-- The command reaches the ring `r` directly, or resets it: RB_INIT, RB_WRITE or RB_READ on it (R72), or TP_INIT. -/
def Direct (r : RingSel) (cmd : Option Instr) : Prop :=
  (∃ c, cmd = some (.rbInit r c)) ∨ (∃ b, cmd = some (.rbWrite r b)) ∨ cmd = some (.rbRead r) ∨ cmd = some .tpInit

end Sys2Proof.Safety
end

