-- ==== Sys2Proof/Certificates/Slice0/Obligations.lean ====
section
/-! DEFINITION. The statements for the provers. Every statement about a command's effect gives the whole next state, or
names what it leaves open. "The phase" is `host.phase` (R21): its constructors are the positions of the pseudocode, and its
value while the HOST is idle is left open everywhere (log entry 4). -/

section Statements

open Sys2Proof Sys2Proof.Machine Sys2Proof.Safety

/-! ### Encoding -/

/-- R91: the ten encoding examples, in both directions. -/
def Obligations.EncodingExamples : Prop :=
  ∀ x ∈ ([(.rbInit .rx 4, [0x10000004]), (.rbInit .tx 16, [0x10010010]), (.rbWrite .tx 0xAB, [0x110100AB]),
      (.rbRead .rx, [0x12000000]), (.rbStatus .tx, [0x13010000]),
      (.tpWrite [0xAA, 0xBB, 0xCC], [0x21000003, 0x00CCBBAA]),
      (.tpWrite [1, 2, 3, 4, 5], [0x21000005, 0x04030201, 0x00000005]),
      (.tpRead 3, [0x22000003]), (.fcPush 0xF7, [0x310000F7]), (.fcPull, [0x33000000])] : List (Instr × List Word)),
    decode x.2 = .ok (x.1, []) ∧ encode x.1 = x.2

/-- Decoding the encoding of a well-formed instruction gives it back, whatever words follow. -/
def Obligations.DecodeOfEncode : Prop :=
  ∀ (i : Instr) (rest : List Word), i.wellFormed = true → decode (encode i ++ rest) = .ok (i, rest)

/-- R88: what the host port decodes is a command, and the words it took are that command's one encoding, so no two rows
share a word and no bit of a legal word is dropped. -/
def Obligations.DecodedWordsAreTheEncoding : Prop :=
  ∀ (ws : List Word) (i : Instr) (rest : List Word), decodeCommand ws = .ok (i, rest) →
    i.isCommand = true ∧ i.wellFormed = true ∧ ws = encode i ++ rest

/-- R87: the length comes from the first word alone, `1 + ceil(N / 4)` words for TP_WRITE and one word otherwise, and the
decoder reads those words and no others. -/
def Obligations.LengthFromFirstWord : Prop :=
  (∀ w : Word, opOf w = 0x21 →
    (immOf w).toNat ≤ 4 * (commandLength w - 1) ∧ 4 * (commandLength w - 1) < (immOf w).toNat + 4 ∧ 1 ≤ commandLength w) ∧
  (∀ w : Word, opOf w ≠ 0x21 → commandLength w = 1) ∧
  (∀ (w : Word) (ws : List Word), commandLength w ≤ 1 + ws.length →
    decode (w :: ws) ≠ .error .short ∧
    decode (w :: ws) =
      (decode ((w :: ws).take (commandLength w))).map fun x => (x.1, (w :: ws).drop (commandLength w)))

/-- R81, R84 to R86: a whole command decodes exactly when its words are none of the illegal ones. The capacity of RB_INIT is
checked at acceptance (R86 (f)). The last of the illegal cases, bits 15..8 of Format C, is no case of R86: it is read from R81
and decision D17 (log entry 11). -/
def Obligations.LegalWordsDecode : Prop :=
  ∀ (w : Word) (ws : List Word), commandLength w ≤ 1 + ws.length →
    ((∃ i rest, decodeCommand (w :: ws) = .ok (i, rest)) ↔ ¬ IllegalWords w ws)

/-- R86, R174: an illegal command faults with ILLEGAL in the acceptance micro-step, and no state other than `fault` changes: it
is answered FAULTED. What then stands on the port is left open, and a 0x21 word whose data words are missing is no whole
command (log entry 10). The last case of `IllegalWords` is read from R81 and decision D17 (log entry 11). -/
def Obligations.IllegalCommandFaults : Prop :=
  ∀ (s : State) (w : Word) (ws : List Word), IdleHost s → s.host.port = w :: ws → commandLength w ≤ 1 + ws.length →
    IllegalWords w ws ∨ IllegalCapacity s.params w →
    ∃ t port, hostMove s = .next t ∧ Faults 0x04 (s.withHost { s.host with port := port }) t

/-- R55: byte `4k + j` of a block is bits `[8j+7 : 8j]` of data word `k`, both ways, with padding bytes 0, and the words are
`ceil(n / 4)` in number. -/
def Obligations.DataWordsLittleEndian : Prop :=
  (∀ l : List Byte, (packBytes l).length = (l.length + 3) / 4) ∧
  (∀ (l : List Byte) (k j : Nat) (w : Word), j < 4 → (packBytes l)[k]? = some w →
    w.extractLsb' (8 * j) 8 = l.getD (4 * k + j) 0) ∧
  (∀ (ws : List Word) (k j : Nat) (w : Word), j < 4 → ws[k]? = some w →
    (ws.flatMap wordBytes)[4 * k + j]? = some (w.extractLsb' (8 * j) 8))

/-! ### Acceptance, steps, agents -/

/-- R80: an idle HOST takes the whole of a command's words in one acceptance micro-step; a HOST with a command in progress
takes none; a stopped block accepts nothing. -/
def Obligations.AcceptanceMicroStep : Prop :=
  (∀ (s : State) (i : Instr) (rest : List Word), IdleHost s → i.accepted s.params = true →
    s.host.port = encode i ++ rest →
    hostMove s = .next (s.withHost { s.host with cmd := some i, phase := .start, port := rest })) ∧
  (∀ (s t : State) (i : Instr), Running i s → hostMove s = .next t → t.host.port = s.host.port) ∧
  (∀ s : State, s.fault ≠ 0 → enabled s .host = false)

/-- R82, R80: while a command runs it has given no response; it ends with exactly one, whose status is FAULTED exactly when
it has faulted, and whose `fcode` is the fault code; on the port that is the word `{status, fcode, value}`, then the data
words. -/
def Obligations.OneResponsePerCommand : Prop :=
  (∀ (i : Instr) (s t : State), i.isCommand = true → Running i s → exec i s = .next t →
    (t.host.cmd = some i ∧ t.host.responses = s.host.responses ∧ t.fault = 0) ∨
    (t.host.cmd = none ∧ ∃ r, t.host.responses = s.host.responses ++ [r] ∧ r.fcode = t.fault ∧
      (r.status = 0xFF ↔ t.fault ≠ 0) ∧ (r.status = 0x00 ∨ r.status = 0x01 ∨ r.status = 0xFF))) ∧
  (∀ r : Response, ∃ w, responseWords r = w :: packBytes r.data ∧
    w.extractLsb' 24 8 = r.status ∧ w.extractLsb' 16 8 = r.fcode ∧ w.extractLsb' 0 16 = r.value)

/-- A step is exec of the decoded instruction: of the next command's (its acceptance), of the command in progress, or of an
event's handler. What stands around exec is the schedule: its first entry, when enabled, is the move taken (R60: which
agent is next is free); without a schedule the only enabled move is. The schedule is the model's (log entries 2 and 3). -/
def Obligations.StepRunsDecodedInstruction : Prop :=
  (∀ (s : State) (i : Instr) (rest : List Word) (q : List Move), IdleHost s →
    decodeCommand s.host.port = .ok (i, rest) → s.sched = .host :: q →
    step s = exec i ((s.withSched q).withHost { s.host with port := rest })) ∧
  (∀ (s : State) (i : Instr) (q : List Move), Running i s → s.sched = .host :: q → step s = exec i (s.withSched q)) ∧
  (∀ (s : State) (q : List Move), HostFree s → txcWaiting s = true → s.sched = .dispatchTxc :: q →
    step s = exec .evTxc (s.withSched q)) ∧
  (∀ (s : State) (q : List Move), HostFree s → rxdWaiting s = true → s.sched = .dispatchRxd :: q →
    step s = exec .evRxd (s.withSched q)) ∧
  (∀ (s : State) (q : List Move), s.fault = 0 → s.isr.active = .txc → s.sched = .isr :: q →
    step s = exec .evTxc (s.withSched q)) ∧
  (∀ (s : State) (q : List Move), s.fault = 0 → s.isr.active = .rxd → s.sched = .isr :: q →
    step s = exec .evRxd (s.withSched q)) ∧
  (∀ (s : State) (m : Move) (q : List Move), enabled s m = true → s.sched = m :: q → step s = perform m (s.withSched q)) ∧
  (∀ (s : State) (m : Move), s.sched = [] → enabledMoves s = [m] → step s = perform m s)

/-- R31, R60, R62: while a handler runs the HOST takes no micro-step: no step but a reset changes its command, its phase, its
responses, its port, the guards or the codec. -/
def Obligations.HostWaitsForHandler : Prop :=
  ∀ s t : State, s.isr.active ≠ .none → .reset ∉ s.sched → step s = .next t →
    t.host = s.host ∧ t.tp = s.tp ∧ t.fc = s.fc

/-! ### RingBuffer -/

/-- R99, R97: RB_INIT empties the ring and keeps its cells; a capacity that differs from the ring's is ILLEGAL. -/
def Obligations.RbInitResult : Prop :=
  (∀ (r : RingSel) (c : Half) (s : State), Ready (.rbInit r c) s →
    ∃ t, exec (.rbInit r c) s = .next t ∧
      Answers ⟨0x00, 0, 0, []⟩ (withSelected r { selected r s with head := 0, tail := 0, count := 0 } s) t ∧
      ringStatus (t.params.cap r) (selected r t) = .empty ∧ ringFree (t.params.cap r) (selected r t) = t.params.cap r) ∧
  (∀ (r : RingSel) (c : Half) (s : State), IdleHost s → c.toNat ≠ s.params.cap r →
    ∃ t, exec (.rbInit r c) s = .next t ∧ Faults 0x04 s t)

/-- R100, R94, R95: RB_WRITE appends its byte at `tail`, or is DROPPED by a FULL ring with the state unchanged. -/
def Obligations.RbWriteResult : Prop :=
  ∀ (r : RingSel) (b : Byte) (s : State), Ready (.rbWrite r b) s →
    ((selected r s).count = s.params.cap r →
      ∃ t, exec (.rbWrite r b) s = .next t ∧ Answers ⟨0x01, 0, 0, []⟩ s t) ∧
    ((selected r s).count ≠ s.params.cap r →
      ∃ t, exec (.rbWrite r b) s = .next t ∧
        Answers ⟨0x00, 0, 0, []⟩
          (withSelected r
            { buf := Memory.write (selected r s).buf (selected r s).tail b
              head := (selected r s).head
              tail := ((selected r s).tail + 1) % s.params.cap r
              count := (selected r s).count + 1 } s) t)

/-- R102, R96: RB_READ returns the byte at `head`, zero-extended, and moves past it; an EMPTY ring faults EMPTY_READ. The
premise is the ring invariant (R23, R37): the occupied cells hold values. -/
def Obligations.RbReadResult : Prop :=
  ∀ (r : RingSel) (s : State), Ready (.rbRead r) s → RingOk (s.params.cap r) (selected r s) →
    ((selected r s).count = 0 → ∃ t, exec (.rbRead r) s = .next t ∧ Faults 0x01 s t) ∧
    ((selected r s).count ≠ 0 →
      ∃ t v, exec (.rbRead r) s = .next t ∧ Memory.read (selected r s).buf (selected r s).head = some v ∧
        Answers ⟨0x00, 0, v.setWidth 16, []⟩
          (withSelected r
            { buf := (selected r s).buf
              head := ((selected r s).head + 1) % s.params.cap r
              tail := (selected r s).tail
              count := (selected r s).count - 1 } s) t)

/-- R104 to R106: RB_STATUS, RB_OCC and RB_FREE report the status code, the occupied count and the free count, and change
nothing. The premise is the ring invariant. -/
def Obligations.RbReportResults : Prop :=
  ∀ (r : RingSel) (s : State), RingOk (s.params.cap r) (selected r s) →
    (Ready (.rbStatus r) s →
      ∃ t, exec (.rbStatus r) s = .next t ∧
        Answers ⟨0x00, 0, if (selected r s).count = 0 then 0 else if (selected r s).count = s.params.cap r then 2 else 1, []⟩ s t) ∧
    (Ready (.rbOcc r) s →
      ∃ t v, exec (.rbOcc r) s = .next t ∧ Answers ⟨0x00, 0, v, []⟩ s t ∧ v.toNat = (selected r s).count) ∧
    (Ready (.rbFree r) s →
      ∃ t v, exec (.rbFree r) s = .next t ∧ Answers ⟨0x00, 0, v, []⟩ s t ∧
        v.toNat = s.params.cap r - (selected r s).count)

/-- R93: over any interleaving of puts and gets, the values returned, then those still held, are those held at first, then
those successfully put, in order; and the ring invariant of R23 is kept. -/
def Obligations.FifoLaw : Prop :=
  ∀ (cap : Nat) (ops : List RingOp) (r r' : Ring) (got put : List Byte), RingOk cap r →
    ringRun cap ops r = some (got, put, r') →
    got ++ contents cap r' = contents cap r ++ put ∧ RingOk cap r'

/-- R101: the capacity law, as commands issued one after the other by an idle HOST. -/
def Obligations.CapacityLaw : Prop :=
  ∀ (s : State) (r : RingSel) (vs : List Byte) (v w : Byte), Inv s → IdleHost s → (selected r s).count = 0 →
    vs.length = s.params.cap r →
    ∃ t t₁ t₂ t₃,
      CompletesAll (vs.map (.rbWrite r)) s t ∧
      t.host.responses = s.host.responses ++ List.replicate vs.length ⟨0x00, 0, 0, []⟩ ∧
      contents (t.params.cap r) (selected r t) = vs ∧
      ringStatus (t.params.cap r) (selected r t) = .full ∧ ringFree (t.params.cap r) (selected r t) = 0 ∧
      CompletesAll [.rbWrite r v] t t₁ ∧ t₁.host.responses = t.host.responses ++ [⟨0x01, 0, 0, []⟩] ∧
      selected r t₁ = selected r t ∧
      CompletesAll [.rbRead r] t₁ t₂ ∧
      ringStatus (t₂.params.cap r) (selected r t₂) = (if s.params.cap r = 1 then .empty else .part) ∧
      CompletesAll [.rbWrite r w] t₂ t₃ ∧ t₃.host.responses = t₂.host.responses ++ [⟨0x00, 0, 0, []⟩]

/-! ### Transport -/

/-- R120: TP_INIT empties both rings (their cells stay, R38), clears the guards and the hidden flags, enables the line, and
leaves the PHY and the codec as they are. -/
def Obligations.TpInitResult : Prop :=
  ∀ s : State, Ready .tpInit s →
    ∃ t, exec .tpInit s = .next t ∧
      Answers ⟨0x00, 0, 0, []⟩
        (((s.withRx { s.rx with head := 0, tail := 0, count := 0 }).withTx { s.tx with head := 0, tail := 0, count := 0 }).withTp
          { writeLock := false, readLock := false, lineEn := true, hostInTx := false, hostInRx := false }) t

/-- R127, R128: TP_READABLE and TP_WRITEABLE report the occupied count of `rx` and the free count of `tx`, and change nothing;
without the line they fault NOT_INIT. The premise on `rx.count` is of the ring invariant. -/
def Obligations.TpCountResults : Prop :=
  ∀ s : State, s.rx.count ≤ s.params.rxCap →
    (Ready .tpReadable s →
      (s.tp.lineEn = true → ∃ t v, exec .tpReadable s = .next t ∧ Answers ⟨0x00, 0, v, []⟩ s t ∧ v.toNat = s.rx.count) ∧
      (s.tp.lineEn = false → ∃ t, exec .tpReadable s = .next t ∧ Faults 0x05 s t)) ∧
    (Ready .tpWriteable s →
      (s.tp.lineEn = true →
        ∃ t v, exec .tpWriteable s = .next t ∧ Answers ⟨0x00, 0, v, []⟩ s t ∧ v.toNat = s.params.txCap - s.tx.count) ∧
      (s.tp.lineEn = false → ∃ t, exec .tpWriteable s = .next t ∧ Faults 0x05 s t))

/-- R172: before TP_INIT the eight commands that use the line fault NOT_INIT; the RB_* commands and TP_INIT never do. -/
def Obligations.NotInitFaults : Prop :=
  ∀ (i : Instr) (s : State), Ready i s →
    (usesLine i = true → s.tp.lineEn = false → ∃ t, exec i s = .next t ∧ Faults 0x05 s t) ∧
    (usesLine i = false → ∀ t, exec i s = .next t → t.fault ≠ 0x05)

/-- R121: TP_WRITE micro-step by micro-step. The first and the last are TP_WRITE's own; the body between them is also the one
the codec runs (R147), so it is stated of every command that runs it. That the line check shares a micro-step with the first
spin test or guard set, and the last guard's clearing one with the response, is log entry 7. -/
def Obligations.TpWriteMicroSteps : Prop :=
  (∀ (bytes : List Byte) (s : State), Ready (.tpWrite bytes) s →
    (s.tp.lineEn = false → ∃ t, exec (.tpWrite bytes) s = .next t ∧ Faults 0x05 s t) ∧
    (s.tp.lineEn = true → bytes ≠ [] →
      exec (.tpWrite bytes) s = .next (setPhase
        (if s.tx.count < s.params.txCap then .write (if s.params.race = .opened then .mark else .lock) bytes []
         else .write .spin bytes []) s)) ∧
    (s.tp.lineEn = true → bytes = [] → s.params.race = .opened →
      exec (.tpWrite bytes) s = .next (setPhase (.write .kickLock [] []) (s.withTp { s.tp with hostInTx := true }))) ∧
    (s.tp.lineEn = true → bytes = [] → s.params.race = .closed →
      exec (.tpWrite bytes) s = .next (setPhase (.write .kick [] []) (s.withTp { s.tp with writeLock := true })))) ∧
  (∀ (i : Instr) (s : State) (todo later : List Byte), writesChannel i = true → Running i s →
    (s.host.phase = .write .spin todo later →
      exec i s = .next (setPhase
        (if s.tx.count < s.params.txCap then .write (if s.params.race = .opened then .mark else .lock) todo later
         else .write .spin todo later) s)) ∧
    (s.host.phase = .write .mark todo later →
      exec i s = .next (setPhase (.write .lock todo later) (s.withTp { s.tp with hostInTx := true }))) ∧
    (s.host.phase = .write .lock todo later →
      exec i s = .next (setPhase (.write .put todo later) (s.withTp { s.tp with writeLock := true }))) ∧
    (∀ b rest, todo = b :: rest → s.host.phase = .write .put todo later → s.tx.count ≠ s.params.txCap →
      exec i s = .next (setPhase (.write .unlock todo later) (s.withTx
        { buf := Memory.write s.tx.buf s.tx.tail b, head := s.tx.head
          tail := (s.tx.tail + 1) % s.params.txCap, count := s.tx.count + 1 }))) ∧
    (∀ b rest, todo = b :: rest → s.host.phase = .write .unlock todo later →
      exec i s = .next (setPhase
        (.write (if rest ≠ [] then .spin else if s.params.race = .opened then .kickMark else .kickLock) rest later)
        (s.withTp { s.tp with writeLock := false, hostInTx := false }))) ∧
    (s.host.phase = .write .kickMark todo later →
      exec i s = .next (setPhase (.write .kickLock todo later) (s.withTp { s.tp with hostInTx := true }))) ∧
    (s.host.phase = .write .kickLock todo later →
      exec i s = .next (setPhase (.write .kick todo later) (s.withTp { s.tp with writeLock := true }))) ∧
    (s.host.phase = .write .kick todo later → s.phy.txq.length = s.params.hwTxDepth ∨ s.tx.count = 0 →
      exec i s = .next (setPhase (.write .kickUnlock todo later) s)) ∧
    (∀ v, s.host.phase = .write .kick todo later → s.phy.txq.length ≠ s.params.hwTxDepth → s.tx.count ≠ 0 →
      Memory.read s.tx.buf s.tx.head = some v →
      exec i s = .next ((s.withTx
        { buf := s.tx.buf, head := (s.tx.head + 1) % s.params.txCap, tail := s.tx.tail, count := s.tx.count - 1 }).withPhy
        { s.phy with txq := s.phy.txq ++ [v] }))) ∧
  (∀ (bytes todo : List Byte) (s : State), Running (.tpWrite bytes) s → s.host.phase = .write .kickUnlock todo [] →
    ∃ t, exec (.tpWrite bytes) s = .next t ∧
      Answers ⟨0x00, 0, BitVec.ofNat 16 bytes.length, []⟩
        (s.withTp { s.tp with writeLock := false, hostInTx := false }) t)

/-- R123: in every state that meets the invariant, the RingPut of a TP_WRITE body finds room and appends its byte. -/
def Obligations.TpWriteNeverDrops : Prop :=
  ∀ (i : Instr) (s : State) (b : Byte) (todo later : List Byte), Inv s → Running i s →
    s.host.phase = .write .put (b :: todo) later →
    (ringPut s.params.txCap s.tx b).2 = .ok ∧
    ∃ t, exec i s = .next t ∧ contents t.params.txCap t.tx = contents s.params.txCap s.tx ++ [b]

/-- R121 to R123: a TP_WRITE that finds room for its bytes, with no other agent stepping, queues them behind the bytes waiting
already, fills the transmit slot from the front of the queue, responds with N, and changes nothing else. -/
def Obligations.TpWriteCompletes : Prop :=
  ∀ (bytes : List Byte) (s : State), Inv s → Ready (.tpWrite bytes) s → s.tp.lineEn = true →
    s.tx.count + bytes.length ≤ s.params.txCap →
    ∃ n t, execUntil hostDone (.tpWrite bytes) n s = some t ∧
      t.phy.txq = (s.phy.txq ++ contents s.params.txCap s.tx ++ bytes).take s.params.hwTxDepth ∧
      contents s.params.txCap t.tx = (s.phy.txq ++ contents s.params.txCap s.tx ++ bytes).drop s.params.hwTxDepth ∧
      RingOk s.params.txCap t.tx ∧
      (∀ a, (∀ k, k < bytes.length → a ≠ (s.tx.tail + k) % s.params.txCap) →
        Memory.read t.tx.buf a = Memory.read s.tx.buf a) ∧
      Answers ⟨0x00, 0, BitVec.ofNat 16 bytes.length, []⟩
        ((s.withTx t.tx).withPhy { s.phy with txq := t.phy.txq }) t

/-- R124: TP_READ micro-step by micro-step. The first and the last are TP_READ's own; the body between them is also the one
FC_PULL runs (R156), so it is stated of both. That the line check shares a micro-step with the first guard set, and the last
guard's clearing one with the response, is log entry 7. -/
def Obligations.TpReadMicroSteps : Prop :=
  (∀ (n : Half) (s : State), Ready (.tpRead n) s →
    (s.tp.lineEn = false → ∃ t, exec (.tpRead n) s = .next t ∧ Faults 0x05 s t) ∧
    (s.tp.lineEn = true → s.params.race = .opened →
      exec (.tpRead n) s = .next (setPhase (.read (if n = 0 then .drainLock else .lock) n.toNat [])
        (s.withTp { s.tp with hostInRx := true }))) ∧
    (s.tp.lineEn = true → s.params.race = .closed →
      exec (.tpRead n) s = .next (setPhase (.read (if n = 0 then .drain else .get) n.toNat [])
        (s.withTp { s.tp with readLock := true })))) ∧
  (∀ (i : Instr) (s : State) (left : Nat) (out : List Byte), readsChannel i = true → Running i s →
    (s.host.phase = .read .mark left out →
      exec i s = .next (setPhase (.read .lock left out) (s.withTp { s.tp with hostInRx := true }))) ∧
    (s.host.phase = .read .lock left out →
      exec i s = .next (setPhase (.read .get left out) (s.withTp { s.tp with readLock := true }))) ∧
    (s.host.phase = .read .get left out → s.rx.count = 0 → ∃ t, exec i s = .next t ∧ Faults 0x01 s t) ∧
    (∀ v, s.host.phase = .read .get left out → s.rx.count ≠ 0 → Memory.read s.rx.buf s.rx.head = some v →
      exec i s = .next (setPhase (.read .unlock left (out ++ [v])) (s.withRx
        { buf := s.rx.buf, head := (s.rx.head + 1) % s.params.rxCap, tail := s.rx.tail, count := s.rx.count - 1 }))) ∧
    (s.host.phase = .read .unlock left out →
      exec i s = .next (setPhase
        (.read (if left - 1 = 0 then (if s.params.race = .opened then .drainMark else .drainLock)
          else (if s.params.race = .opened then .mark else .lock)) (left - 1) out)
        (s.withTp { s.tp with readLock := false, hostInRx := false }))) ∧
    (s.host.phase = .read .drainMark left out →
      exec i s = .next (setPhase (.read .drainLock left out) (s.withTp { s.tp with hostInRx := true }))) ∧
    (s.host.phase = .read .drainLock left out →
      exec i s = .next (setPhase (.read .drain left out) (s.withTp { s.tp with readLock := true }))) ∧
    (s.host.phase = .read .drain left out → s.rx.count = s.params.rxCap ∨ s.phy.rxq = [] →
      exec i s = .next (setPhase (.read .drainUnlock left out) s)) ∧
    (∀ v rest, s.host.phase = .read .drain left out → s.rx.count ≠ s.params.rxCap → s.phy.rxq = v :: rest →
      exec i s = .next ((s.withPhy { s.phy with rxq := rest }).withRx
        { buf := Memory.write s.rx.buf s.rx.tail v, head := s.rx.head
          tail := (s.rx.tail + 1) % s.params.rxCap, count := s.rx.count + 1 }))) ∧
  (∀ (n : Half) (s : State) (left : Nat) (out : List Byte), Running (.tpRead n) s →
    s.host.phase = .read .drainUnlock left out →
    ∃ t, exec (.tpRead n) s = .next t ∧
      Answers ⟨0x00, 0, n, out⟩ (s.withTp { s.tp with readLock := false, hostInRx := false }) t)

/-- R124, R125: a TP_READ of bytes that are there, with no other agent stepping, returns the oldest N bytes of `rx`, then moves
what the receive slot holds into `rx` as far as there is room, and changes nothing else. -/
def Obligations.TpReadCompletes : Prop :=
  ∀ (n : Half) (s : State), Inv s → Ready (.tpRead n) s → s.tp.lineEn = true → n.toNat ≤ s.rx.count →
    ∃ k t, execUntil hostDone (.tpRead n) k s = some t ∧
      contents s.params.rxCap t.rx = (contents s.params.rxCap s.rx).drop n.toNat ++
        s.phy.rxq.take (s.params.rxCap - (s.rx.count - n.toNat)) ∧
      RingOk s.params.rxCap t.rx ∧
      (∀ a, (∀ j, j < s.phy.rxq.length → a ≠ (s.rx.tail + j) % s.params.rxCap) →
        Memory.read t.rx.buf a = Memory.read s.rx.buf a) ∧
      Answers ⟨0x00, 0, n, (contents s.params.rxCap s.rx).take n.toNat⟩
        ((s.withRx t.rx).withPhy { s.phy with rxq := s.phy.rxq.drop (s.params.rxCap - (s.rx.count - n.toNat)) }) t

/-- R126: there is no check up front: a TP_READ of more bytes than arrive dequeues those that are there, then faults EMPTY_READ
at the dequeue that finds `rx` empty. -/
def Obligations.TpReadOfTooMuchFaults : Prop :=
  ∀ (n : Half) (s : State), Inv s → Ready (.tpRead n) s → s.tp.lineEn = true → s.rx.count < n.toNat →
    ∃ k t, execUntil hostDone (.tpRead n) k s = some t ∧ s.rx.count < k ∧ t.rx.count = 0 ∧ t.fault = 0x01 ∧
      t.host.responses = s.host.responses ++ [⟨0xFF, 0x01, 0, []⟩] ∧
      t.tx = s.tx ∧ t.phy = s.phy ∧ t.fc = s.fc ∧ t.isr = s.isr

/-! ### Handlers and PHY -/

/-- R177: when a handler may be dispatched. -/
def Obligations.DispatchConditions : Prop :=
  (∀ s : State, enabled s .dispatchTxc = true ↔
    s.fault = 0 ∧ s.tp.lineEn = true ∧ s.isr.active = .none ∧ s.phy.txPending = true ∧
      (s.params.exclusion = .advisory ∨ s.tp.writeLock = false)) ∧
  (∀ s : State, enabled s .dispatchRxd = true ↔
    s.fault = 0 ∧ s.tp.lineEn = true ∧ s.isr.active = .none ∧ s.phy.rxPending = true ∧
      (s.params.exclusion = .advisory ∨ s.tp.readLock = false))

/-- R130, R132, R178, R179, R64, R65, R171: the handlers micro-step by micro-step. The dispatch enters the handler and changes
nothing else, with the guard clear; it exits at once and consumes the event, with the guard held. The running handler moves
one byte for each micro-step, tests that its loop is over, and exits. Under OPEN with the guard clear and the hidden flag set,
the dispatch raises RING_RACE, as R130's and R132's pseudocode has it, or the running handler's first access of the ring does,
as R65 and R171 have it (no ruling decides: the model's parameter `raceAt`, log entry 9); either way no third micro-step of
the handler is taken, nothing but `isr` and `fault` has changed, and the HOST gets no response. `loopDone`, which
tells the ending test from the exit, is the model's (log entry 8). -/
def Obligations.HandlerMicroSteps : Prop :=
  (∀ s : State, enabled s .dispatchTxc = true →
    (s.tp.writeLock = false → ¬ (s.params.race = .opened ∧ s.tp.hostInTx = true) →
      exec .evTxc s = .next (s.withIsr { active := .txc, loopDone := false })) ∧
    (s.tp.writeLock = false → s.params.race = .opened → s.tp.hostInTx = true →
      (s.params.raceAt = .dispatch → exec .evTxc s = .next ((s.withIsr { active := .txc, loopDone := false }).withFault 0x03)) ∧
      (s.params.raceAt = .access → exec .evTxc s = .next (s.withIsr { active := .txc, loopDone := false })) ∧
      ∃ n, n ≤ 2 ∧ execUntil (fun u => u.fault != 0) .evTxc n s = some ((s.withIsr { active := .txc, loopDone := false }).withFault 0x03)) ∧
    (s.tp.writeLock = true →
      exec .evTxc s = .next ((s.withPhy { s.phy with txPending := false }).withIsr { active := .none, loopDone := false }))) ∧
  (∀ s : State, enabled s .dispatchRxd = true →
    (s.tp.readLock = false → ¬ (s.params.race = .opened ∧ s.tp.hostInRx = true) →
      exec .evRxd s = .next (s.withIsr { active := .rxd, loopDone := false })) ∧
    (s.tp.readLock = false → s.params.race = .opened → s.tp.hostInRx = true →
      (s.params.raceAt = .dispatch → exec .evRxd s = .next ((s.withIsr { active := .rxd, loopDone := false }).withFault 0x03)) ∧
      (s.params.raceAt = .access → exec .evRxd s = .next (s.withIsr { active := .rxd, loopDone := false })) ∧
      ∃ n, n ≤ 2 ∧ execUntil (fun u => u.fault != 0) .evRxd n s = some ((s.withIsr { active := .rxd, loopDone := false }).withFault 0x03)) ∧
    (s.tp.readLock = true →
      exec .evRxd s = .next ((s.withPhy { s.phy with rxPending := false }).withIsr { active := .none, loopDone := false }))) ∧
  (∀ s : State, s.fault = 0 → s.isr = { active := .txc, loopDone := false } →
    (s.params.race = .opened → s.tp.hostInTx = true → exec .evTxc s = .next (s.withFault 0x03)) ∧
    (¬ (s.params.race = .opened ∧ s.tp.hostInTx = true) →
      (s.tx.count = 0 ∨ s.phy.txq.length = s.params.hwTxDepth →
        exec .evTxc s = .next (s.withIsr { active := .txc, loopDone := true })) ∧
      (∀ v, s.tx.count ≠ 0 → s.phy.txq.length ≠ s.params.hwTxDepth → Memory.read s.tx.buf s.tx.head = some v →
        exec .evTxc s = .next ((s.withTx
          { buf := s.tx.buf, head := (s.tx.head + 1) % s.params.txCap, tail := s.tx.tail, count := s.tx.count - 1 }).withPhy
          { s.phy with txq := s.phy.txq ++ [v] })))) ∧
  (∀ s : State, s.fault = 0 → s.isr = { active := .txc, loopDone := true } →
    exec .evTxc s = .next ((s.withPhy { s.phy with txPending := false }).withIsr { active := .none, loopDone := false })) ∧
  (∀ s : State, s.fault = 0 → s.isr = { active := .rxd, loopDone := false } →
    (s.params.race = .opened → s.tp.hostInRx = true → exec .evRxd s = .next (s.withFault 0x03)) ∧
    (¬ (s.params.race = .opened ∧ s.tp.hostInRx = true) →
      (s.rx.count = s.params.rxCap ∨ s.phy.rxq = [] →
        exec .evRxd s = .next (s.withIsr { active := .rxd, loopDone := true })) ∧
      (∀ v rest, s.rx.count ≠ s.params.rxCap → s.phy.rxq = v :: rest →
        exec .evRxd s = .next ((s.withPhy { s.phy with rxq := rest }).withRx
          { buf := Memory.write s.rx.buf s.rx.tail v, head := s.rx.head
            tail := (s.rx.tail + 1) % s.params.rxCap, count := s.rx.count + 1 })))) ∧
  (∀ s : State, s.fault = 0 → s.isr = { active := .rxd, loopDone := true } →
    exec .evRxd s = .next ((s.withPhy { s.phy with rxPending := false }).withIsr { active := .none, loopDone := false }))

/-- R130, R131 (e), R178, R179: a dispatched EV_TXC whose guard is clear, with no PHY step inside it, moves bytes from `tx` to
the transmit slot until the one is empty or the other full, clears its pending bit, returns in at most `tx.count + 3`
micro-steps, and changes nothing else. -/
def Obligations.EvTxcCompletes : Prop :=
  ∀ s : State, Inv s → enabled s .dispatchTxc = true → s.tp.writeLock = false → s.tp.hostInTx = false →
    ∃ n t, n ≤ s.tx.count + 3 ∧ execUntil isrDone .evTxc n s = some t ∧
      t.phy.txq = (s.phy.txq ++ contents s.params.txCap s.tx).take s.params.hwTxDepth ∧
      contents s.params.txCap t.tx = (s.phy.txq ++ contents s.params.txCap s.tx).drop s.params.hwTxDepth ∧
      RingOk s.params.txCap t.tx ∧ t.tx.buf = s.tx.buf ∧
      t = (s.withTx t.tx).withPhy { s.phy with txq := t.phy.txq, txPending := false }

/-- R132, R133 (d), R178, R179: a dispatched EV_RXD whose guard is clear, with no PHY step inside it, moves bytes from the
receive slot to `rx` until the one is empty or the other FULL, clears its pending bit, returns in at most
`rx.CAP - rx.count + 3` micro-steps, and changes nothing else. -/
def Obligations.EvRxdCompletes : Prop :=
  ∀ s : State, Inv s → enabled s .dispatchRxd = true → s.tp.readLock = false → s.tp.hostInRx = false →
    ∃ n t, n ≤ s.params.rxCap - s.rx.count + 3 ∧ execUntil isrDone .evRxd n s = some t ∧
      contents s.params.rxCap t.rx = contents s.params.rxCap s.rx ++ s.phy.rxq.take (s.params.rxCap - s.rx.count) ∧
      RingOk s.params.rxCap t.rx ∧
      (∀ a, (∀ j, j < s.phy.rxq.length → a ≠ (s.rx.tail + j) % s.params.rxCap) →
        Memory.read t.rx.buf a = Memory.read s.rx.buf a) ∧
      t = (s.withRx t.rx).withPhy
        { s.phy with rxq := s.phy.rxq.drop (s.params.rxCap - s.rx.count), rxPending := false }

/-- R117, R118: the two micro-steps of the PHY: when they are enabled and all they change. -/
def Obligations.PhyMicroSteps : Prop :=
  (∀ s : State, enabled s .shiftOut = true ↔ s.tp.lineEn = true ∧ s.fault = 0 ∧ s.phy.txq ≠ []) ∧
  (∀ (s : State) (b : Byte) (rest : List Byte), s.phy.txq = b :: rest →
    perform .shiftOut s = .next (s.withPhy { s.phy with
      txq := rest, wireOut := s.phy.wireOut ++ [b], txPending := if rest = [] then true else s.phy.txPending })) ∧
  (∀ s : State, enabled s .arrive = true ↔ s.tp.lineEn = true ∧ s.fault = 0 ∧ s.phy.wireIn ≠ []) ∧
  (∀ (s : State) (b : Byte) (rest : List Byte), s.phy.wireIn = b :: rest →
    perform .arrive s = .next (s.withPhy { s.phy with
      wireIn := rest, rxPending := true
      rxq := if s.phy.rxq.length < s.params.hwRxDepth then s.phy.rxq ++ [b] else s.phy.rxq }))

/-- R39, R71, R135, R170: a handler or the PHY changes neither the HOST, the codec nor the guards; `tx` only shrinks and `rx`
only grows; one micro-step touches the transmit side or the receive side, not both; the one fault it can raise is RING_RACE,
under OPEN. -/
def Obligations.HandlerAndPhyFrame : Prop :=
  ∀ (s t : State) (m : Move), m ∈ [.isr, .dispatchTxc, .dispatchRxd, .shiftOut, .arrive] → perform m s = .next t →
    t.params = s.params ∧ t.host = s.host ∧ t.fc = s.fc ∧ t.tp = s.tp ∧ t.sched = s.sched ∧ t.tick = s.tick ∧
    t.tx.count ≤ s.tx.count ∧ s.rx.count ≤ t.rx.count ∧
    (t.fault = s.fault ∨ (t.fault = 0x03 ∧ s.params.race = .opened)) ∧
    ((t.rx = s.rx ∧ t.phy.rxq = s.phy.rxq ∧ t.phy.rxPending = s.phy.rxPending ∧ t.phy.wireIn = s.phy.wireIn) ∨
     (t.tx = s.tx ∧ t.phy.txq = s.phy.txq ∧ t.phy.txPending = s.phy.txPending ∧ t.phy.wireOut = s.phy.wireOut))

/-! ### Faults and reset -/

/-- R175, R35: while `fault` is not 0 no instruction has a micro-step, no move but the reset is enabled, a step without a
scheduled reset stops, and the only step there is clears the fault. The stop is the model's outcome for "no agent steps". -/
def Obligations.FaultStopsTheBlock : Prop :=
  ∀ s : State, s.fault ≠ 0 →
    (∀ i, exec i s = .fault (.blockStopped s.fault)) ∧
    (∀ m, enabled s m = true → m = .reset) ∧
    (.reset ∉ s.sched → step s = .fault (.blockStopped s.fault)) ∧
    (∀ t, step s = .next t → t.fault = 0)

/-- R170, R155: which micro-step raises which code, from a state that meets the invariant; FC_PULL never raises EMPTY_READ. -/
def Obligations.FaultCauses : Prop :=
  ∀ (i : Instr) (s t : State), Inv s → s.fault = 0 → exec i s = .next t →
    (t.fault = 0x01 → (∃ r, i = .rbRead r ∧ (selected r s).count = 0) ∨ (∃ n, i = .tpRead n ∧ s.rx.count = 0)) ∧
    (t.fault = 0x02 → (i = .fcStart ∧ s.fc.encState = .encoding) ∨
      ((i = .fcFinish ∨ ∃ b, i = .fcPush b) ∧ s.fc.encState = .idle)) ∧
    (t.fault = 0x03 → s.params.race = .opened ∧
      ((i = .evTxc ∧ s.tp.writeLock = false ∧ s.tp.hostInTx = true) ∨
       (i = .evRxd ∧ s.tp.readLock = false ∧ s.tp.hostInRx = true))) ∧
    (t.fault = 0x04 → s.host.cmd = none ∧ i.accepted s.params = false) ∧
    (t.fault = 0x05 → usesLine i = true ∧ s.tp.lineEn = false) ∧
    t.fault.toNat ≤ 0x05

/-- R144, R173, R181 (c): a codec command in the wrong encoder state faults CODEC_STATE before it writes anything; ILLEGAL and
NOT_INIT are checked before it. -/
def Obligations.CodecStateChecks : Prop :=
  (∀ s : State, s.tp.lineEn = true →
    (Ready .fcStart s → s.fc.encState = .encoding → ∃ t, exec .fcStart s = .next t ∧ Faults 0x02 s t) ∧
    (∀ b, Ready (.fcPush b) s → s.fc.encState = .idle → ∃ t, exec (.fcPush b) s = .next t ∧ Faults 0x02 s t) ∧
    (Ready .fcFinish s → s.fc.encState = .idle → ∃ t, exec .fcFinish s = .next t ∧ Faults 0x02 s t)) ∧
  (∀ (i : Instr) (s : State), IsEncode (some i) → Ready i s → s.tp.lineEn = false →
    ∃ t, exec i s = .next t ∧ Faults 0x05 s t) ∧
  (∀ (i : Instr) (s : State), IdleHost s → i.isCommand = true → i.accepted s.params = false →
    ∃ t, exec i s = .next t ∧ Faults 0x04 s t)

/-- R190, R41, R191: reset gives every field of the block its reset value and leaves the line environment's bytes. -/
def Obligations.ResetValues : Prop :=
  ∀ s : State, ∃ t, perform .reset s = .next t ∧
    t.rx.head = 0 ∧ t.rx.tail = 0 ∧ t.rx.count = 0 ∧ t.tx.head = 0 ∧ t.tx.tail = 0 ∧ t.tx.count = 0 ∧
    (∀ k, Memory.read t.rx.buf k = none) ∧ (∀ k, Memory.read t.tx.buf k = none) ∧
    t.tp.writeLock = false ∧ t.tp.readLock = false ∧ t.tp.lineEn = false ∧
    t.tp.hostInTx = false ∧ t.tp.hostInRx = false ∧
    t.phy.txq = [] ∧ t.phy.rxq = [] ∧ t.phy.txPending = false ∧ t.phy.rxPending = false ∧ t.phy.wireOut = [] ∧
    t.phy.wireIn = s.phy.wireIn ∧ t.isr.active = .none ∧ t.host.cmd = none ∧
    t.fc.encState = .idle ∧ t.fc.sum1 = 0 ∧ t.fc.sum2 = 0 ∧ t.fc.fill = 0 ∧ (∀ k, Memory.read t.fc.acc k = none) ∧
    t.fault = 0 ∧ t.params = s.params

/-! ### Wire form -/

/-- R142: the escaping filter, its three pairs, and that no second byte of a pair is reserved. -/
def Obligations.EscapingFilter : Prop :=
  (∀ b : Byte, (b = 0xF7 ∨ b = 0x7F ∨ b = 0xF6) → esc b = [0xF6, b ^^^ 0x20]) ∧
  (∀ b : Byte, b ≠ 0xF7 → b ≠ 0x7F → b ≠ 0xF6 → esc b = [b]) ∧
  esc 0xF7 = [0xF6, 0xD7] ∧ esc 0x7F = [0xF6, 0x5F] ∧ esc 0xF6 = [0xF6, 0xD6] ∧
  (∀ b c d : Byte, esc b = [c, d] → d ≠ 0xF7 ∧ d ≠ 0x7F ∧ d ≠ 0xF6)

/-- R143: the checksum's step, mod 256, and the fold from (0, 0); its packed value has `sum2` in the high byte. -/
def Obligations.ChecksumArithmetic : Prop :=
  (∀ s₁ s₂ b : Byte,
    (flStep (s₁, s₂) b).1.toNat = (s₁.toNat + b.toNat) % 256 ∧
    (flStep (s₁, s₂) b).2.toNat = (s₂.toNat + (s₁.toNat + b.toNat) % 256) % 256) ∧
  fletcher [] = (0, 0) ∧ (∀ (p : List Byte) (b : Byte), fletcher (p ++ [b]) = flStep (fletcher p) b) ∧
  (∀ s₁ s₂ : Byte, (pair16 s₂ s₁).toNat = s₂.toNat * 256 + s₁.toNat)

/-- R168, R169: the known vector, and the source's frame, which decodes back to its payload. -/
def Obligations.ChecksumVectors : Prop :=
  fletcher [1, 2, 3, 4, 5] = (0x0F, 0x23) ∧ pair16 0x23 0x0F = 0x230F ∧
  fletcher [0x01, 0x02, 0xF7] = (0xFA, 0xFE) ∧
  encodeFrame [0x01, 0x02, 0xF7] = [0xF7, 0x01, 0x02, 0xF6, 0xD7, 0xFA, 0xFE, 0x7F] ∧
  (∀ p : Params, pullOutcome p [0xF7, 0x01, 0x02, 0xF6, 0xD7, 0xFA, 0xFE, 0x7F] = ([0x01, 0x02, 0xF7], []))

/-- R151: in a frame START stands only at offset 0, END only at the last offset, and ESC only before a byte that is none of the
three. -/
def Obligations.WireProperty : Prop :=
  ∀ (p : List Byte) (k : Nat) (b : Byte), (encodeFrame p)[k]? = some b →
    (b = 0xF7 ↔ k = 0) ∧ (b = 0x7F ↔ k + 1 = (encodeFrame p).length) ∧
    (b = 0xF6 → ∃ c, (encodeFrame p)[k + 1]? = some c ∧ c ≠ 0xF7 ∧ c ≠ 0x7F ∧ c ≠ 0xF6)

/-- R150: the bounds of a frame's length, and the shortest frame. -/
def Obligations.FrameLength : Prop :=
  (∀ p : List Byte, 4 + p.length ≤ (encodeFrame p).length ∧ (encodeFrame p).length ≤ 2 + 2 * (p.length + 2)) ∧
  encodeFrame [] = [0xF7, 0x00, 0x00, 0x7F]

/-- R154, R157 to R161, R164, R166: a buffer that holds garbage without START, then a frame, then any bytes, gives that frame's
payload and keeps the bytes from the next START on. -/
def Obligations.PullFindsTheFrame : Prop :=
  ∀ (par : Params) (p garbage tail : List Byte), 0xF7 ∉ garbage →
    pullOutcome par (garbage ++ encodeFrame p ++ tail) = (p, tail.dropWhile (· != 0xF7))

/-- R164, R166: garbage without START and END and then a frame, split in any way over successive pulls that each ingest a
chunk, give nothing until the last chunk, then the payload, and leave nothing behind, if the buffer can hold them. -/
def Obligations.RoundTripAcrossPulls : Prop :=
  ∀ (par : Params) (p garbage last : List Byte) (chunks : List (List Byte)),
    0xF7 ∉ garbage → 0x7F ∉ garbage → last ≠ [] →
    chunks.flatten ++ last = garbage ++ encodeFrame p → garbage.length + (encodeFrame p).length ≤ par.accCap →
    pulls par [] (chunks ++ [last]) = (List.replicate chunks.length [] ++ [p], [])

/-- R165, its first two cases: a payload byte, or the low checksum byte, replaced by another byte that is neither END nor ESC
is detected; and its third case: the false accept of `90_conflicts.md` C8. The replaced byte is one that was sent
unescaped. -/
def Obligations.CorruptionDetected : Prop :=
  (∀ (par : Params) (x y : List Byte) (b c : Byte), reserved b = false → c ≠ b → c ≠ 0x7F → c ≠ 0xF6 →
    pullOutcome par ([0xF7] ++ x.flatMap esc ++ [c] ++ y.flatMap esc ++ esc (fletcher (x ++ [b] ++ y)).1 ++
      esc (fletcher (x ++ [b] ++ y)).2 ++ [0x7F]) = ([], [])) ∧
  (∀ (par : Params) (p : List Byte) (c : Byte), reserved (fletcher p).1 = false → c ≠ (fletcher p).1 → c ≠ 0x7F →
    c ≠ 0xF6 →
    pullOutcome par ([0xF7] ++ p.flatMap esc ++ [c] ++ esc (fletcher p).2 ++ [0x7F]) = ([], [])) ∧
  (∀ (par : Params) (p : List Byte) (c : Byte), reserved (fletcher p).2 = false → c ≠ (fletcher p).2 → c ≠ 0x7F →
    c ≠ 0xF6 →
    pullOutcome par ([0xF7] ++ p.flatMap esc ++ esc (fletcher p).1 ++ [c] ++ [0x7F]) = ([], [])) ∧
  (∀ par : Params, encodeFrame [0x15, 0x15, 0x15] = [0xF7, 0x15, 0x15, 0x15, 0x3F, 0x7E, 0x7F] ∧
    pullOutcome par [0xF7, 0x15, 0x15, 0x15, 0x7F, 0x7E, 0x7F] = ([0x15], []))

/-! ### FrameCodec commands -/

/-- R145 to R148: the codec's own micro-steps: the first of FC_START, FC_PUSH and FC_FINISH (after the checks of R144), the
change from one wire byte's TP_WRITE body to the next, and the last (their boundaries: log entry 7). The bodies' micro-steps
are those of TpWriteMicroSteps. -/
def Obligations.EncodeMicroSteps : Prop :=
  (∀ s : State, s.tp.lineEn = true →
    (Ready .fcStart s → s.fc.encState = .idle →
      exec .fcStart s = .next (setPhase (.writeEnter [0xF7] []) s)) ∧
    (∀ b x xs, Ready (.fcPush b) s → s.fc.encState = .encoding → esc b = x :: xs →
      exec (.fcPush b) s = .next (setPhase (.writeEnter [x] xs)
        (s.withFc { s.fc with sum1 := (flStep (s.fc.sum1, s.fc.sum2) b).1, sum2 := (flStep (s.fc.sum1, s.fc.sum2) b).2 }))) ∧
    (∀ x xs, Ready .fcFinish s → s.fc.encState = .encoding → esc s.fc.sum1 ++ esc s.fc.sum2 ++ [0x7F] = x :: xs →
      exec .fcFinish s = .next (setPhase (.writeEnter [x] xs) s))) ∧
  (∀ (i : Instr) (s : State) (b : Byte) (later : List Byte), IsEncode (some i) → Running i s → s.tp.lineEn = true →
    s.host.phase = .writeEnter [b] later →
    exec i s = .next (setPhase
      (if s.tx.count < s.params.txCap then .write (if s.params.race = .opened then .mark else .lock) [b] later
       else .write .spin [b] later) s)) ∧
  (∀ (i : Instr) (s : State) (b : Byte) (todo later : List Byte), IsEncode (some i) → Running i s →
    s.host.phase = .write .kickUnlock todo (b :: later) →
    exec i s = .next (setPhase (.writeEnter [b] later) (s.withTp { s.tp with writeLock := false, hostInTx := false }))) ∧
  (∀ (s : State) (todo : List Byte), s.host.phase = .write .kickUnlock todo [] →
    (Running .fcStart s →
      ∃ t, exec .fcStart s = .next t ∧ Answers ⟨0x00, 0, 0, []⟩
        ((s.withTp { s.tp with writeLock := false, hostInTx := false }).withFc
          { s.fc with sum1 := 0, sum2 := 0, encState := .encoding }) t) ∧
    (∀ b, Running (.fcPush b) s →
      ∃ t, exec (.fcPush b) s = .next t ∧
        Answers ⟨0x00, 0, 0, []⟩ (s.withTp { s.tp with writeLock := false, hostInTx := false }) t) ∧
    (Running .fcFinish s →
      ∃ t, exec .fcFinish s = .next t ∧ Answers ⟨0x00, 0, pair16 s.fc.sum2 s.fc.sum1, []⟩
        ((s.withTp { s.tp with writeLock := false, hostInTx := false }).withFc { s.fc with encState := .idle }) t))

/-- R145 to R148: FC_START, FC_PUSH and FC_FINISH in their encoder states, with room for their wire bytes in `tx` and no other
agent stepping: they queue START, the escaped byte, or the escaped checksum (low byte first) and END behind the bytes waiting
already, with the codec and the response as the rules say and nothing else changed. -/
def Obligations.EncodeCommandsComplete : Prop :=
  ∀ (i : Instr) (s : State) (wire : List Byte) (fc' : Codec) (value : Half), Inv s → Ready i s → s.tp.lineEn = true →
    ((i = .fcStart ∧ s.fc.encState = .idle ∧ wire = [0xF7] ∧
        fc' = { s.fc with encState := .encoding, sum1 := 0, sum2 := 0 } ∧ value = 0) ∨
     (∃ b, i = .fcPush b ∧ s.fc.encState = .encoding ∧ wire = esc b ∧
        fc' = { s.fc with sum1 := (flStep (s.fc.sum1, s.fc.sum2) b).1, sum2 := (flStep (s.fc.sum1, s.fc.sum2) b).2 } ∧
        value = 0) ∨
     (i = .fcFinish ∧ s.fc.encState = .encoding ∧ wire = esc s.fc.sum1 ++ esc s.fc.sum2 ++ [0x7F] ∧
        fc' = { s.fc with encState := .idle } ∧ value = pair16 s.fc.sum2 s.fc.sum1)) →
    s.tx.count + wire.length ≤ s.params.txCap →
    ∃ n t, execUntil hostDone i n s = some t ∧
      t.phy.txq = (s.phy.txq ++ contents s.params.txCap s.tx ++ wire).take s.params.hwTxDepth ∧
      contents s.params.txCap t.tx = (s.phy.txq ++ contents s.params.txCap s.tx ++ wire).drop s.params.hwTxDepth ∧
      RingOk s.params.txCap t.tx ∧
      (∀ a, (∀ k, k < wire.length → a ≠ (s.tx.tail + k) % s.params.txCap) →
        Memory.read t.tx.buf a = Memory.read s.tx.buf a) ∧
      Answers ⟨0x00, 0, value, []⟩ (((s.withTx t.tx).withPhy { s.phy with txq := t.phy.txq }).withFc fc') t

/-- R149: the commands of `FRAME p`, issued one after the other by an idle HOST with room for the frame in `tx`, write exactly
`Encode(p)` to the channel, in order, and FC_FINISH answers with the checksum. -/
def Obligations.FrameCommandsWriteTheFrame : Prop :=
  (∀ p : List Byte, encodeFrame p =
    [0xF7] ++ p.flatMap esc ++ esc (fletcher p).1 ++ esc (fletcher p).2 ++ [0x7F]) ∧
  (∀ (p : List Byte) (s : State), Inv s → IdleHost s → s.tp.lineEn = true → s.fc.encState = .idle →
    s.tx.count + (encodeFrame p).length ≤ s.params.txCap →
    ∃ t, CompletesAll (Pseudo.frame p) s t ∧ outbound t = outbound s ++ encodeFrame p ∧
      t.host.responses = s.host.responses ++ List.replicate (p.length + 1) ⟨0x00, 0, 0, []⟩ ++
        [⟨0x00, 0, pair16 (fletcher p).2 (fletcher p).1, []⟩] ∧
      t.fc.encState = .idle ∧ t.fc.acc = s.fc.acc ∧ t.fc.fill = s.fc.fill ∧ t.rx = s.rx)

/-- R155, R156: FC_PULL's own micro-steps: the readable count, clamped to the free space of the buffer; the TP_READ body's
first; the ingest at its end; Steps 2 to 6 and the response. The body's micro-steps are those of TpReadMicroSteps. The premise
of the last clause is the invariant of the accumulation buffer (R33, R37). The micro-step boundaries inside the ingest are
log entry 7. -/
def Obligations.PullMicroSteps : Prop :=
  (∀ s : State, Ready .fcPull s → s.tp.lineEn = true →
    exec .fcPull s = .next (setPhase (.readEnter (min s.rx.count (s.params.accCap - s.fc.fill))) s)) ∧
  (∀ (s : State) (left : Nat), Running .fcPull s → s.tp.lineEn = true → s.host.phase = .readEnter left →
    (s.params.race = .opened →
      exec .fcPull s = .next (setPhase (.read (if left = 0 then .drainLock else .lock) left [])
        (s.withTp { s.tp with hostInRx := true }))) ∧
    (s.params.race = .closed →
      exec .fcPull s = .next (setPhase (.read (if left = 0 then .drain else .get) left [])
        (s.withTp { s.tp with readLock := true })))) ∧
  (∀ (s : State) (left : Nat) (out : List Byte), Running .fcPull s → s.host.phase = .read .drainUnlock left out →
    exec .fcPull s = .next (setPhase .decode ((s.withTp { s.tp with readLock := false, hostInRx := false }).withFc
      { s.fc with acc := Memory.writeList s.fc.acc s.fc.fill out, fill := s.fc.fill + out.length }))) ∧
  (∀ s : State, Running .fcPull s → s.host.phase = .decode → AccOk s.params s.fc →
    ∃ t, exec .fcPull s = .next t ∧ accBytes t = (pullOutcome s.params (accBytes s)).2 ∧
      (∀ a, s.fc.fill ≤ a → Memory.read t.fc.acc a = Memory.read s.fc.acc a) ∧
      Answers ⟨0x00, 0, BitVec.ofNat 16 (pullOutcome s.params (accBytes s)).1.length, (pullOutcome s.params (accBytes s)).1⟩
        (s.withFc { s.fc with acc := t.fc.acc, fill := (pullOutcome s.params (accBytes s)).2.length }) t)

/-- R155 to R162: FC_PULL with no other agent stepping ingests the readable bytes that fit, reports what Steps 2 to 6 find in
the buffer, keeps what they leave, moves the receive slot into `rx` as far as there is room, and changes nothing else. -/
def Obligations.FcPullCompletes : Prop :=
  ∀ (s : State) (k : Nat) (out : List Byte × List Byte), Inv s → Ready .fcPull s → s.tp.lineEn = true →
    k = min s.rx.count (s.params.accCap - s.fc.fill) →
    out = pullOutcome s.params (accBytes s ++ (contents s.params.rxCap s.rx).take k) →
    ∃ n t, execUntil hostDone .fcPull n s = some t ∧ accBytes t = out.2 ∧
      contents s.params.rxCap t.rx =
        (contents s.params.rxCap s.rx).drop k ++ s.phy.rxq.take (s.params.rxCap - (s.rx.count - k)) ∧
      RingOk s.params.rxCap t.rx ∧
      (∀ a, (∀ j, j < s.phy.rxq.length → a ≠ (s.rx.tail + j) % s.params.rxCap) →
        Memory.read t.rx.buf a = Memory.read s.rx.buf a) ∧
      (∀ a, s.fc.fill + k ≤ a → Memory.read t.fc.acc a = Memory.read s.fc.acc a) ∧
      Answers ⟨0x00, 0, BitVec.ofNat 16 out.1.length, out.1⟩
        (((s.withRx t.rx).withPhy { s.phy with rxq := s.phy.rxq.drop (s.params.rxCap - (s.rx.count - k)) }).withFc
          { s.fc with acc := t.fc.acc, fill := out.2.length }) t

/-- R164, R166: a frame behind garbage that stands whole in `rx`, pulled into an empty buffer that can hold it and what follows,
is answered with its payload. -/
def Obligations.PullReturnsThePayload : Prop :=
  ∀ (s : State) (p garbage tail : List Byte), Inv s → Ready .fcPull s → s.tp.lineEn = true → s.fc.fill = 0 →
    0xF7 ∉ garbage → contents s.params.rxCap s.rx = garbage ++ encodeFrame p ++ tail →
    s.rx.count ≤ s.params.accCap →
    ∃ n t, execUntil hostDone .fcPull n s = some t ∧
      t.host.responses = s.host.responses ++ [⟨0x00, 0, BitVec.ofNat 16 p.length, p⟩] ∧
      p.length < 65536 ∧ t.fault = 0 ∧ accBytes t = tail.dropWhile (· != 0xF7)

/-- R152, R144, R39: no micro-step of FC_PULL or TP_READ touches the encoder or the outbound side, and no micro-step of an encode
command or of TP_WRITE touches the decoder or the inbound side; neither touches the ISR, the pending bits or the line. -/
def Obligations.ChannelFrames : Prop :=
  ∀ (i : Instr) (s t : State), Running i s → exec i s = .next t →
    (readsChannel i = true →
      t.tx = s.tx ∧ t.phy.txq = s.phy.txq ∧ t.tp.writeLock = s.tp.writeLock ∧ t.tp.hostInTx = s.tp.hostInTx ∧
      t.fc.encState = s.fc.encState ∧ t.fc.sum1 = s.fc.sum1 ∧ t.fc.sum2 = s.fc.sum2) ∧
    (writesChannel i = true →
      t.rx = s.rx ∧ t.phy.rxq = s.phy.rxq ∧ t.tp.readLock = s.tp.readLock ∧ t.tp.hostInRx = s.tp.hostInRx ∧
      t.fc.acc = s.fc.acc ∧ t.fc.fill = s.fc.fill) ∧
    (readsChannel i = true ∨ writesChannel i = true →
      t.params = s.params ∧ t.isr = s.isr ∧ t.tp.lineEn = s.tp.lineEn ∧ t.phy.txPending = s.phy.txPending ∧
      t.phy.rxPending = s.phy.rxPending ∧ t.phy.wireOut = s.phy.wireOut ∧ t.phy.wireIn = s.phy.wireIn ∧
      t.host.port = s.host.port ∧ t.sched = s.sched ∧ t.tick = s.tick) ∧
    ((∃ n, i = .tpRead n) ∨ (∃ bytes, i = .tpWrite bytes) → t.fc = s.fc)

/-! ### The whole machine -/

/-- R98, R10: no step changes a parameter. -/
def Obligations.ParametersNeverChange : Prop :=
  ∀ s t : State, step s = .next t → t.params = s.params

/-- R119: TP_INIT enables the line, nothing else does, only reset disables it, and while it is off no PHY step and no dispatch
is enabled. -/
def Obligations.LineEnabledUntilReset : Prop :=
  (∀ s t : State, .reset ∉ s.sched → step s = .next t → s.tp.lineEn = true → t.tp.lineEn = true) ∧
  (∀ s t : State, step s = .next t → s.tp.lineEn = false → t.tp.lineEn = true → s.host.cmd = some .tpInit) ∧
  (∀ s : State, Ready .tpInit s → ∃ t, exec .tpInit s = .next t ∧ t.tp.lineEn = true) ∧
  (∀ s : State, s.tp.lineEn = false → enabled s .shiftOut = false ∧ enabled s .arrive = false ∧
    enabled s .dispatchTxc = false ∧ enabled s .dispatchRxd = false)

/-- R129, outbound: no micro-step drops, duplicates or reorders an outbound byte, direct ring commands and reset apart: the
RingPut of a TP_WRITE body appends its byte to the wire, the transmit slot and `tx`, in this order, and every other micro-step
leaves them as they are and what is on the wire there. -/
def Obligations.OutboundConserved : Prop :=
  ∀ (s t : State) (m : Move), Inv s → enabled s m = true → m ≠ .reset → perform m s = .next t →
    ¬ (m = .host ∧ Direct .tx s.host.cmd) →
    s.phy.wireOut <+: t.phy.wireOut ∧
    (∀ b todo later, m = .host → s.host.phase = .write .put (b :: todo) later → outbound t = outbound s ++ [b]) ∧
    ((∀ b todo later, ¬ (m = .host ∧ s.host.phase = .write .put (b :: todo) later)) → outbound t = outbound s)

/-- R129, inbound: no micro-step reorders or loses an inbound byte, overrun, direct ring commands and reset apart: the RingGet
of a TP_READ body takes the oldest byte of `rx` and the receive slot into its result, PhyArrive appends the next byte of the
line or, the slot being full, drops it, and every other micro-step leaves them and the line as they are. -/
def Obligations.InboundConserved : Prop :=
  ∀ (s t : State) (m : Move), Inv s → enabled s m = true → m ≠ .reset → perform m s = .next t →
    ¬ (m = .host ∧ Direct .rx s.host.cmd) →
    (∀ left out, m = .host → s.host.phase = .read .get left out → s.rx.count ≠ 0 →
      ∃ b, inbound s = b :: inbound t ∧ t.host.phase = .read .unlock left (out ++ [b]) ∧ t.phy.wireIn = s.phy.wireIn) ∧
    (m = .arrive →
      ∃ b, s.phy.wireIn = b :: t.phy.wireIn ∧
        inbound t = if s.phy.rxq.length < s.params.hwRxDepth then inbound s ++ [b] else inbound s) ∧
    (m ≠ .arrive → (∀ left out, ¬ (m = .host ∧ s.host.phase = .read .get left out ∧ s.rx.count ≠ 0)) →
      inbound t = inbound s ∧ t.phy.wireIn = s.phy.wireIn)

/-- R27, R28, R65, `90_conflicts.md` C9: after every step that does not fault, no guard or hidden flag is set between commands;
each guard is set exactly in the guarded regions of its command; no handler is running on a ring while the HOST is inside a
region guarded for that ring; and no micro-step of a handler has accessed a ring whose guard or, under OPEN, hidden flag is
set. -/
def Obligations.AtMostOneAccessor : Prop :=
  (∀ s t : State, Inv s → step s = .next t → t.fault = 0 →
    (t.host.cmd = none →
      t.tp.writeLock = false ∧ t.tp.readLock = false ∧ t.tp.hostInTx = false ∧ t.tp.hostInRx = false) ∧
    (t.tp.writeLock = true ↔ holdsTx t.host.phase = true) ∧ (t.tp.readLock = true ↔ holdsRx t.host.phase = true) ∧
    (holdsTx t.host.phase = true → ∃ i, t.host.cmd = some i ∧ writesChannel i = true) ∧
    (holdsRx t.host.phase = true → ∃ i, t.host.cmd = some i ∧ readsChannel i = true) ∧
    ¬ (t.isr.active = .txc ∧ holdsTx t.host.phase = true) ∧ ¬ (t.isr.active = .rxd ∧ holdsRx t.host.phase = true)) ∧
  (∀ (s t : State) (m : Move), Inv s → m ∈ [.isr, .dispatchTxc, .dispatchRxd] → perform m s = .next t →
    (t.tx ≠ s.tx ∨ t.phy.txq ≠ s.phy.txq → s.tp.writeLock = false ∧ s.tp.hostInTx = false) ∧
    (t.rx ≠ s.rx ∨ t.phy.rxq ≠ s.phy.rxq → s.tp.readLock = false ∧ s.tp.hostInRx = false))

/-- The invariant holds after reset, whatever the parameters. -/
def Obligations.ResetHasInv : Prop := ∀ p : Params, Inv (State.resetWith p)

/-- R23, R27, R29, R33, R34, R37: every step keeps the invariant, from every state that meets it. -/
def Obligations.StepKeepsInv : Prop := ∀ s t : State, Inv s → step s = .next t → Inv t

/-- R37, R60, R175: from a state that meets the invariant a step always has a next state, a stopped block apart, and so has
the command in progress: no micro-step is refused, and none reads a cell that holds no value. -/
def Obligations.InvNeverStuck : Prop :=
  (∀ s : State, Inv s → (∃ t, step s = .next t) ∨ (s.fault ≠ 0 ∧ step s = .fault (.blockStopped s.fault))) ∧
  (∀ (i : Instr) (s : State), Inv s → Running i s → ∃ t, exec i s = .next t ∧ Inv t)

/-- R197 case 1: a TP_WRITE of more bytes than `tx` has free, while the transmitter is idle, comes to spin on a FULL ring; from
there on no step but a reset, by whichever agent, lets it respond: it hangs, in both exclusion modes. -/
def Obligations.LongWriteHangs : Prop :=
  (∀ (bytes : List Byte) (s : State), Inv s → Ready (.tpWrite bytes) s → s.tp.lineEn = true → s.phy.txq = [] →
    s.phy.txPending = false → s.params.txCap < s.tx.count + bytes.length →
    ∃ n t, execUntil
      (fun u => decide (u.tx.count = s.params.txCap ∧ u.host.phase = .write .spin (bytes.drop (s.params.txCap - s.tx.count)) []))
      (.tpWrite bytes) n s = some t ∧ Hung t) ∧
  (∀ s t : State, Hung s → .reset ∉ s.sched → step s = .next t →
    Hung t ∧ t.host.cmd = s.host.cmd ∧ t.host.responses = s.host.responses)

end Statements
end

