-- ==== Sys2Proof/Laws/State.lean ====
section
/-! SUPPORT. One lemma per field per update of State, true by rfl. -/

namespace Sys2Proof.Machine

@[simp] theorem State.withRx_params (s : State) (x : Ring) : (s.withRx x).params = s.params := rfl
@[simp] theorem State.withRx_rx (s : State) (x : Ring) : (s.withRx x).rx = x := rfl
@[simp] theorem State.withRx_tx (s : State) (x : Ring) : (s.withRx x).tx = s.tx := rfl
@[simp] theorem State.withRx_tp (s : State) (x : Ring) : (s.withRx x).tp = s.tp := rfl
@[simp] theorem State.withRx_phy (s : State) (x : Ring) : (s.withRx x).phy = s.phy := rfl
@[simp] theorem State.withRx_isr (s : State) (x : Ring) : (s.withRx x).isr = s.isr := rfl
@[simp] theorem State.withRx_host (s : State) (x : Ring) : (s.withRx x).host = s.host := rfl
@[simp] theorem State.withRx_fc (s : State) (x : Ring) : (s.withRx x).fc = s.fc := rfl
@[simp] theorem State.withRx_fault (s : State) (x : Ring) : (s.withRx x).fault = s.fault := rfl
@[simp] theorem State.withRx_sched (s : State) (x : Ring) : (s.withRx x).sched = s.sched := rfl
@[simp] theorem State.withRx_tick (s : State) (x : Ring) : (s.withRx x).tick = s.tick := rfl

@[simp] theorem State.withTx_params (s : State) (x : Ring) : (s.withTx x).params = s.params := rfl
@[simp] theorem State.withTx_rx (s : State) (x : Ring) : (s.withTx x).rx = s.rx := rfl
@[simp] theorem State.withTx_tx (s : State) (x : Ring) : (s.withTx x).tx = x := rfl
@[simp] theorem State.withTx_tp (s : State) (x : Ring) : (s.withTx x).tp = s.tp := rfl
@[simp] theorem State.withTx_phy (s : State) (x : Ring) : (s.withTx x).phy = s.phy := rfl
@[simp] theorem State.withTx_isr (s : State) (x : Ring) : (s.withTx x).isr = s.isr := rfl
@[simp] theorem State.withTx_host (s : State) (x : Ring) : (s.withTx x).host = s.host := rfl
@[simp] theorem State.withTx_fc (s : State) (x : Ring) : (s.withTx x).fc = s.fc := rfl
@[simp] theorem State.withTx_fault (s : State) (x : Ring) : (s.withTx x).fault = s.fault := rfl
@[simp] theorem State.withTx_sched (s : State) (x : Ring) : (s.withTx x).sched = s.sched := rfl
@[simp] theorem State.withTx_tick (s : State) (x : Ring) : (s.withTx x).tick = s.tick := rfl

@[simp] theorem State.withTp_params (s : State) (x : Transport) : (s.withTp x).params = s.params := rfl
@[simp] theorem State.withTp_rx (s : State) (x : Transport) : (s.withTp x).rx = s.rx := rfl
@[simp] theorem State.withTp_tx (s : State) (x : Transport) : (s.withTp x).tx = s.tx := rfl
@[simp] theorem State.withTp_tp (s : State) (x : Transport) : (s.withTp x).tp = x := rfl
@[simp] theorem State.withTp_phy (s : State) (x : Transport) : (s.withTp x).phy = s.phy := rfl
@[simp] theorem State.withTp_isr (s : State) (x : Transport) : (s.withTp x).isr = s.isr := rfl
@[simp] theorem State.withTp_host (s : State) (x : Transport) : (s.withTp x).host = s.host := rfl
@[simp] theorem State.withTp_fc (s : State) (x : Transport) : (s.withTp x).fc = s.fc := rfl
@[simp] theorem State.withTp_fault (s : State) (x : Transport) : (s.withTp x).fault = s.fault := rfl
@[simp] theorem State.withTp_sched (s : State) (x : Transport) : (s.withTp x).sched = s.sched := rfl
@[simp] theorem State.withTp_tick (s : State) (x : Transport) : (s.withTp x).tick = s.tick := rfl

@[simp] theorem State.withPhy_params (s : State) (x : Phy) : (s.withPhy x).params = s.params := rfl
@[simp] theorem State.withPhy_rx (s : State) (x : Phy) : (s.withPhy x).rx = s.rx := rfl
@[simp] theorem State.withPhy_tx (s : State) (x : Phy) : (s.withPhy x).tx = s.tx := rfl
@[simp] theorem State.withPhy_tp (s : State) (x : Phy) : (s.withPhy x).tp = s.tp := rfl
@[simp] theorem State.withPhy_phy (s : State) (x : Phy) : (s.withPhy x).phy = x := rfl
@[simp] theorem State.withPhy_isr (s : State) (x : Phy) : (s.withPhy x).isr = s.isr := rfl
@[simp] theorem State.withPhy_host (s : State) (x : Phy) : (s.withPhy x).host = s.host := rfl
@[simp] theorem State.withPhy_fc (s : State) (x : Phy) : (s.withPhy x).fc = s.fc := rfl
@[simp] theorem State.withPhy_fault (s : State) (x : Phy) : (s.withPhy x).fault = s.fault := rfl
@[simp] theorem State.withPhy_sched (s : State) (x : Phy) : (s.withPhy x).sched = s.sched := rfl
@[simp] theorem State.withPhy_tick (s : State) (x : Phy) : (s.withPhy x).tick = s.tick := rfl

@[simp] theorem State.withIsr_params (s : State) (x : Isr) : (s.withIsr x).params = s.params := rfl
@[simp] theorem State.withIsr_rx (s : State) (x : Isr) : (s.withIsr x).rx = s.rx := rfl
@[simp] theorem State.withIsr_tx (s : State) (x : Isr) : (s.withIsr x).tx = s.tx := rfl
@[simp] theorem State.withIsr_tp (s : State) (x : Isr) : (s.withIsr x).tp = s.tp := rfl
@[simp] theorem State.withIsr_phy (s : State) (x : Isr) : (s.withIsr x).phy = s.phy := rfl
@[simp] theorem State.withIsr_isr (s : State) (x : Isr) : (s.withIsr x).isr = x := rfl
@[simp] theorem State.withIsr_host (s : State) (x : Isr) : (s.withIsr x).host = s.host := rfl
@[simp] theorem State.withIsr_fc (s : State) (x : Isr) : (s.withIsr x).fc = s.fc := rfl
@[simp] theorem State.withIsr_fault (s : State) (x : Isr) : (s.withIsr x).fault = s.fault := rfl
@[simp] theorem State.withIsr_sched (s : State) (x : Isr) : (s.withIsr x).sched = s.sched := rfl
@[simp] theorem State.withIsr_tick (s : State) (x : Isr) : (s.withIsr x).tick = s.tick := rfl

@[simp] theorem State.withHost_params (s : State) (x : HostPort) : (s.withHost x).params = s.params := rfl
@[simp] theorem State.withHost_rx (s : State) (x : HostPort) : (s.withHost x).rx = s.rx := rfl
@[simp] theorem State.withHost_tx (s : State) (x : HostPort) : (s.withHost x).tx = s.tx := rfl
@[simp] theorem State.withHost_tp (s : State) (x : HostPort) : (s.withHost x).tp = s.tp := rfl
@[simp] theorem State.withHost_phy (s : State) (x : HostPort) : (s.withHost x).phy = s.phy := rfl
@[simp] theorem State.withHost_isr (s : State) (x : HostPort) : (s.withHost x).isr = s.isr := rfl
@[simp] theorem State.withHost_host (s : State) (x : HostPort) : (s.withHost x).host = x := rfl
@[simp] theorem State.withHost_fc (s : State) (x : HostPort) : (s.withHost x).fc = s.fc := rfl
@[simp] theorem State.withHost_fault (s : State) (x : HostPort) : (s.withHost x).fault = s.fault := rfl
@[simp] theorem State.withHost_sched (s : State) (x : HostPort) : (s.withHost x).sched = s.sched := rfl
@[simp] theorem State.withHost_tick (s : State) (x : HostPort) : (s.withHost x).tick = s.tick := rfl

@[simp] theorem State.withFc_params (s : State) (x : Codec) : (s.withFc x).params = s.params := rfl
@[simp] theorem State.withFc_rx (s : State) (x : Codec) : (s.withFc x).rx = s.rx := rfl
@[simp] theorem State.withFc_tx (s : State) (x : Codec) : (s.withFc x).tx = s.tx := rfl
@[simp] theorem State.withFc_tp (s : State) (x : Codec) : (s.withFc x).tp = s.tp := rfl
@[simp] theorem State.withFc_phy (s : State) (x : Codec) : (s.withFc x).phy = s.phy := rfl
@[simp] theorem State.withFc_isr (s : State) (x : Codec) : (s.withFc x).isr = s.isr := rfl
@[simp] theorem State.withFc_host (s : State) (x : Codec) : (s.withFc x).host = s.host := rfl
@[simp] theorem State.withFc_fc (s : State) (x : Codec) : (s.withFc x).fc = x := rfl
@[simp] theorem State.withFc_fault (s : State) (x : Codec) : (s.withFc x).fault = s.fault := rfl
@[simp] theorem State.withFc_sched (s : State) (x : Codec) : (s.withFc x).sched = s.sched := rfl
@[simp] theorem State.withFc_tick (s : State) (x : Codec) : (s.withFc x).tick = s.tick := rfl

@[simp] theorem State.withFault_params (s : State) (x : Byte) : (s.withFault x).params = s.params := rfl
@[simp] theorem State.withFault_rx (s : State) (x : Byte) : (s.withFault x).rx = s.rx := rfl
@[simp] theorem State.withFault_tx (s : State) (x : Byte) : (s.withFault x).tx = s.tx := rfl
@[simp] theorem State.withFault_tp (s : State) (x : Byte) : (s.withFault x).tp = s.tp := rfl
@[simp] theorem State.withFault_phy (s : State) (x : Byte) : (s.withFault x).phy = s.phy := rfl
@[simp] theorem State.withFault_isr (s : State) (x : Byte) : (s.withFault x).isr = s.isr := rfl
@[simp] theorem State.withFault_host (s : State) (x : Byte) : (s.withFault x).host = s.host := rfl
@[simp] theorem State.withFault_fc (s : State) (x : Byte) : (s.withFault x).fc = s.fc := rfl
@[simp] theorem State.withFault_fault (s : State) (x : Byte) : (s.withFault x).fault = x := rfl
@[simp] theorem State.withFault_sched (s : State) (x : Byte) : (s.withFault x).sched = s.sched := rfl
@[simp] theorem State.withFault_tick (s : State) (x : Byte) : (s.withFault x).tick = s.tick := rfl

@[simp] theorem State.withSched_params (s : State) (x : List Move) : (s.withSched x).params = s.params := rfl
@[simp] theorem State.withSched_rx (s : State) (x : List Move) : (s.withSched x).rx = s.rx := rfl
@[simp] theorem State.withSched_tx (s : State) (x : List Move) : (s.withSched x).tx = s.tx := rfl
@[simp] theorem State.withSched_tp (s : State) (x : List Move) : (s.withSched x).tp = s.tp := rfl
@[simp] theorem State.withSched_phy (s : State) (x : List Move) : (s.withSched x).phy = s.phy := rfl
@[simp] theorem State.withSched_isr (s : State) (x : List Move) : (s.withSched x).isr = s.isr := rfl
@[simp] theorem State.withSched_host (s : State) (x : List Move) : (s.withSched x).host = s.host := rfl
@[simp] theorem State.withSched_fc (s : State) (x : List Move) : (s.withSched x).fc = s.fc := rfl
@[simp] theorem State.withSched_fault (s : State) (x : List Move) : (s.withSched x).fault = s.fault := rfl
@[simp] theorem State.withSched_sched (s : State) (x : List Move) : (s.withSched x).sched = x := rfl
@[simp] theorem State.withSched_tick (s : State) (x : List Move) : (s.withSched x).tick = s.tick := rfl

@[simp] theorem State.withTick_params (s : State) (x : Nat) : (s.withTick x).params = s.params := rfl
@[simp] theorem State.withTick_rx (s : State) (x : Nat) : (s.withTick x).rx = s.rx := rfl
@[simp] theorem State.withTick_tx (s : State) (x : Nat) : (s.withTick x).tx = s.tx := rfl
@[simp] theorem State.withTick_tp (s : State) (x : Nat) : (s.withTick x).tp = s.tp := rfl
@[simp] theorem State.withTick_phy (s : State) (x : Nat) : (s.withTick x).phy = s.phy := rfl
@[simp] theorem State.withTick_isr (s : State) (x : Nat) : (s.withTick x).isr = s.isr := rfl
@[simp] theorem State.withTick_host (s : State) (x : Nat) : (s.withTick x).host = s.host := rfl
@[simp] theorem State.withTick_fc (s : State) (x : Nat) : (s.withTick x).fc = s.fc := rfl
@[simp] theorem State.withTick_fault (s : State) (x : Nat) : (s.withTick x).fault = s.fault := rfl
@[simp] theorem State.withTick_sched (s : State) (x : Nat) : (s.withTick x).sched = s.sched := rfl
@[simp] theorem State.withTick_tick (s : State) (x : Nat) : (s.withTick x).tick = x := rfl

end Sys2Proof.Machine
end

