-- ==== Sys2Proof/Laws/Memory.lean ====
section
/-! SUPPORT. The laws of the storage spaces: a read after a write, the cells a write leaves alone, and the canonical form,
which every operation keeps. -/

namespace Sys2Proof.Machine

@[simp] theorem Memory.read_nil (k : Nat) : Memory.read [] k = none := rfl

theorem Memory.read_cons (a : Nat) (b : Byte) (m : Memory) (k : Nat) :
    Memory.read ((a, b) :: m) k = if a = k then some b else Memory.read m k := rfl

/-- No cell below the first listed index is listed. -/
theorem Memory.read_eq_none_of_lt : ∀ (m : Memory) (k : Nat), (∀ c ∈ m, k < c.1) → Memory.read m k = none
  | [], _, _ => rfl
  | (a, b) :: m, k, h => by
    have ha : k < a := h (a, b) (by simp)
    rw [Memory.read_cons, if_neg (by omega)]
    exact Memory.read_eq_none_of_lt m k fun c hc => h c (by simp [hc])

/-- A read after a write to the same cell gives the value written. -/
theorem Memory.read_write_same : ∀ (m : Memory) (k : Nat) (v : Byte), Memory.read (Memory.write m k v) k = some v
  | [], k, v => by simp [Memory.write, Memory.read_cons]
  | (a, b) :: m, k, v => by
    unfold Memory.write
    split
    · simp [Memory.read_cons]
    · split
      · simp [Memory.read_cons]
      · rename_i h
        rw [Memory.read_cons, if_neg (by omega), Memory.read_write_same m k v]

/-- A write leaves every other cell alone. -/
theorem Memory.read_write_other : ∀ (m : Memory) (k j : Nat) (v : Byte), j ≠ k →
    Memory.read (Memory.write m k v) j = Memory.read m j
  | [], k, j, v, h => by simp [Memory.write, Memory.read_cons, h.symm]
  | (a, b) :: m, k, j, v, h => by
    unfold Memory.write
    split
    · rw [Memory.read_cons, if_neg (by omega)]
    · split
      · rename_i hk
        rw [Memory.read_cons, Memory.read_cons, if_neg (by omega), if_neg (by omega)]
      · rw [Memory.read_cons, Memory.read_cons, Memory.read_write_other m k j v h]

theorem Memory.read_write (m : Memory) (k j : Nat) (v : Byte) :
    Memory.read (Memory.write m k v) j = if j = k then some v else Memory.read m j := by
  split
  · rename_i h; subst h; exact Memory.read_write_same m j v
  · rename_i h; exact Memory.read_write_other m k j v h

/-- The listed indices after a write are those before it and the one written. -/
theorem Memory.mem_write : ∀ (m : Memory) (k : Nat) (v : Byte) (c : Host.Cell),
    c ∈ Memory.write m k v → c.1 = k ∨ c ∈ m
  | [], k, v, c, h => by simp [Memory.write] at h; simp [h]
  | (a, b) :: m, k, v, c, h => by
    unfold Memory.write at h
    split at h
    · simp at h; rcases h with rfl | rfl | h <;> simp [*]
    · split at h
      · simp at h; rcases h with rfl | h <;> simp [*]
      · simp at h
        rcases h with rfl | h
        · simp
        · rcases Memory.mem_write m k v c h with h | h <;> simp [h]

/-- A write keeps the canonical form. -/
theorem Memory.wf_write : ∀ (m : Memory) (k : Nat) (v : Byte), Memory.wf m → Memory.wf (Memory.write m k v)
  | [], k, v, _ => by simp [Memory.write, Memory.wf]
  | (a, b) :: m, k, v, h => by
    have h' := List.pairwise_cons.1 h
    unfold Memory.write
    split
    · rename_i hk
      refine List.pairwise_cons.2 ⟨?_, h⟩
      intro c hc
      simp at hc
      rcases hc with rfl | hc
      · exact hk
      · exact lt_trans hk (h'.1 c hc)
    · split
      · rename_i hk
        exact List.pairwise_cons.2 ⟨fun c hc => by simpa [hk] using h'.1 c hc, h'.2⟩
      · refine List.pairwise_cons.2 ⟨?_, Memory.wf_write m k v h'.2⟩
        intro c hc
        rcases Memory.mem_write m k v c hc with hc | hc
        · simp only [hc]; omega
        · exact h'.1 c hc

theorem Memory.wf_writeList : ∀ (vs : List Byte) (m : Memory) (k : Nat), Memory.wf m → Memory.wf (Memory.writeList m k vs)
  | [], _, _, h => h
  | v :: vs, m, k, h => Memory.wf_writeList vs _ _ (Memory.wf_write m k v h)

theorem Memory.mem_writeList : ∀ (vs : List Byte) (m : Memory) (k : Nat) (c : Host.Cell),
    c ∈ Memory.writeList m k vs → (k ≤ c.1 ∧ c.1 < k + vs.length) ∨ c ∈ m
  | [], _, _, _, h => Or.inr h
  | v :: vs, m, k, c, h => by
    rcases Memory.mem_writeList vs _ _ c h with h | h
    · left; simp only [List.length_cons]; omega
    · rcases Memory.mem_write m k v c h with h | h
      · left; simp only [List.length_cons]; omega
      · exact Or.inr h

/-- Reading a cell after a block of bytes was written: the byte of the block, or what was there. -/
theorem Memory.read_writeList : ∀ (vs : List Byte) (m : Memory) (k j : Nat),
    Memory.read (Memory.writeList m k vs) j =
      if k ≤ j ∧ j < k + vs.length then vs[j - k]? else Memory.read m j
  | [], m, k, j => by
    rw [if_neg (by simp)]; rfl
  | v :: vs, m, k, j => by
    show Memory.read (Memory.writeList (Memory.write m k v) (k + 1) vs) j = _
    rw [Memory.read_writeList vs, Memory.read_write]
    simp only [List.length_cons]
    by_cases h1 : j = k
    · subst h1
      rw [if_neg (by omega), if_pos rfl, if_pos (by omega)]; simp
    · by_cases h2 : k + 1 ≤ j ∧ j < k + 1 + vs.length
      · rw [if_pos h2, if_pos (by omega)]
        obtain ⟨d, hd⟩ : ∃ d, j - k = d + 1 := ⟨j - k - 1, by omega⟩
        rw [hd, show j - (k + 1) = d by omega]; simp
      · rw [if_neg h2, if_neg h1, if_neg (by omega)]

/-- A block read that succeeds has the asked length, and its bytes are the cells' values. -/
theorem Memory.readList_eq_some : ∀ (m : Memory) (k n : Nat) (bs : List Byte),
    Memory.readList m k n = some bs ↔
      bs.length = n ∧ ∀ i, i < n → Memory.read m (k + i) = bs[i]?
  | m, k, 0, bs => by
    simp only [Memory.readList, Option.some.injEq]
    constructor
    · rintro rfl; simp
    · rintro ⟨h, _⟩; exact (List.length_eq_zero_iff.1 h).symm
  | m, k, n + 1, bs => by
    unfold Memory.readList
    constructor
    · intro h
      split at h
      · rename_i b bs' hb hbs
        obtain rfl := Option.some.inj h
        obtain ⟨hl, hr⟩ := (Memory.readList_eq_some m (k + 1) n bs').1 hbs
        refine ⟨by simp [hl], ?_⟩
        intro i hi
        cases i with
        | zero => simpa using hb
        | succ i =>
          have := hr i (by omega)
          rw [show k + (i + 1) = k + 1 + i by omega, this]; simp
      · cases h
    · rintro ⟨hl, hr⟩
      cases bs with
      | nil => simp at hl
      | cons b bs' =>
        have h0 := hr 0 (by omega)
        have hrest : Memory.readList m (k + 1) n = some bs' :=
          (Memory.readList_eq_some m (k + 1) n bs').2
            ⟨by simpa using hl, fun i hi => by
              have := hr (i + 1) (by omega)
              rw [show k + 1 + i = k + (i + 1) by omega, this]; simp⟩
        simp only [Nat.add_zero, List.getElem?_cons_zero] at h0
        rw [h0, hrest]

/-- A block of cells that all hold a value can be read. -/
theorem Memory.readList_isSome (m : Memory) (k n : Nat) (h : ∀ i, i < n → (Memory.read m (k + i)).isSome) :
    ∃ bs, Memory.readList m k n = some bs := by
  induction n generalizing k with
  | zero => exact ⟨[], rfl⟩
  | succ n ih =>
    obtain ⟨bs, hbs⟩ := ih (k + 1) fun i hi => by
      have := h (i + 1) (by omega)
      rwa [show k + (i + 1) = k + 1 + i by omega] at this
    obtain ⟨b, hb⟩ := Option.isSome_iff_exists.1 (h 0 (by omega))
    refine ⟨b :: bs, ?_⟩
    unfold Memory.readList
    rw [Nat.add_zero] at hb
    rw [hb, hbs]

/-- A block just written reads back. -/
theorem Memory.readList_writeList (vs : List Byte) (m : Memory) (k : Nat) :
    Memory.readList (Memory.writeList m k vs) k vs.length = some vs := by
  rw [Memory.readList_eq_some]
  refine ⟨rfl, fun i hi => ?_⟩
  rw [Memory.read_writeList, if_pos (by omega)]
  congr 1; omega

end Sys2Proof.Machine
end

