-- ==== Sys2Proof/Laws/Ops.lean ====
section
/-! SUPPORT. One lemma per shared operation, saying once what it can do: the ring and PHY primitives, completing a
command, taking a fault, handler entry and exit, the frame of a HOST command's micro-step, the choice of the next move,
and one step. -/

namespace Sys2Proof.Machine

/-! ### Rings -/

theorem ringPut_full {cap : Nat} {r : Ring} (v : Byte) (h : r.count = cap) : ringPut cap r v = (r, .dropped) := by
  simp [ringPut, ringFull, h]

theorem ringPut_room {cap : Nat} {r : Ring} (v : Byte) (h : r.count ≠ cap) :
    ringPut cap r v =
      ({ buf := Memory.write r.buf r.tail v, head := r.head, tail := (r.tail + 1) % cap, count := r.count + 1 }, .ok) := by
  simp [ringPut, ringFull, h]

theorem ringGet_empty {cap : Nat} {r : Ring} (h : r.count = 0) : ringGet cap r = .empty := by
  simp [ringGet, ringEmpty, h]

theorem ringGet_byte {cap : Nat} {r : Ring} {v : Byte} (h : r.count ≠ 0) (hv : Memory.read r.buf r.head = some v) :
    ringGet cap r = .byte v { buf := r.buf, head := (r.head + 1) % cap, tail := r.tail, count := r.count - 1 } := by
  simp [ringGet, ringEmpty, h, hv]

theorem ringGet_noValue {cap : Nat} {r : Ring} (h : r.count ≠ 0) (hv : Memory.read r.buf r.head = none) :
    ringGet cap r = .noValue := by
  simp [ringGet, ringEmpty, h, hv]

/-- What RingGet can answer. -/
theorem ringGet_cases (cap : Nat) (r : Ring) :
    (r.count = 0 ∧ ringGet cap r = .empty) ∨
    (r.count ≠ 0 ∧ Memory.read r.buf r.head = none ∧ ringGet cap r = .noValue) ∨
    (∃ v, r.count ≠ 0 ∧ Memory.read r.buf r.head = some v ∧
      ringGet cap r = .byte v { buf := r.buf, head := (r.head + 1) % cap, tail := r.tail, count := r.count - 1 }) := by
  by_cases h : r.count = 0
  · exact .inl ⟨h, ringGet_empty h⟩
  · cases hv : Memory.read r.buf r.head with
    | none => exact .inr (.inl ⟨h, rfl, ringGet_noValue h hv⟩)
    | some v => exact .inr (.inr ⟨v, h, rfl, ringGet_byte h hv⟩)

@[simp] theorem ringReset_buf (r : Ring) : (ringReset r).buf = r.buf := rfl
@[simp] theorem ringReset_head (r : Ring) : (ringReset r).head = 0 := rfl
@[simp] theorem ringReset_tail (r : Ring) : (ringReset r).tail = 0 := rfl
@[simp] theorem ringReset_count (r : Ring) : (ringReset r).count = 0 := rfl

/-! ### PHY primitives -/

theorem phyTxPush_room {v : Byte} {s : State} (h : phyTxFull s = false) :
    phyTxPush v s = s.withPhy { s.phy with txq := s.phy.txq ++ [v] } := by
  simp [phyTxPush, h]

theorem phyTxPush_full {v : Byte} {s : State} (h : phyTxFull s = true) : phyTxPush v s = s := by
  simp [phyTxPush, h]

theorem phyRxPop_cons {s : State} {b : Byte} {rest : List Byte} (h : s.phy.rxq = b :: rest) :
    phyRxPop s = some (b, s.withPhy { s.phy with rxq := rest }) := by
  simp [phyRxPop, h]

theorem phyRxAvail_iff (s : State) : phyRxAvail s = true ↔ s.phy.rxq ≠ [] := by
  simp [phyRxAvail, List.length_pos_iff]

/-! ### Completing a command, taking a fault -/

@[simp] theorem respond_host (st : Byte) (v : Half) (d : List Byte) (s : State) :
    (respond st v d s).host =
      { s.host with cmd := none, phase := .start, responses := s.host.responses ++ [⟨st, 0, v, d⟩] } := rfl
@[simp] theorem respond_params (st : Byte) (v : Half) (d : List Byte) (s : State) : (respond st v d s).params = s.params := rfl
@[simp] theorem respond_rx (st : Byte) (v : Half) (d : List Byte) (s : State) : (respond st v d s).rx = s.rx := rfl
@[simp] theorem respond_tx (st : Byte) (v : Half) (d : List Byte) (s : State) : (respond st v d s).tx = s.tx := rfl
@[simp] theorem respond_tp (st : Byte) (v : Half) (d : List Byte) (s : State) : (respond st v d s).tp = s.tp := rfl
@[simp] theorem respond_phy (st : Byte) (v : Half) (d : List Byte) (s : State) : (respond st v d s).phy = s.phy := rfl
@[simp] theorem respond_isr (st : Byte) (v : Half) (d : List Byte) (s : State) : (respond st v d s).isr = s.isr := rfl
@[simp] theorem respond_fc (st : Byte) (v : Half) (d : List Byte) (s : State) : (respond st v d s).fc = s.fc := rfl
@[simp] theorem respond_fault (st : Byte) (v : Half) (d : List Byte) (s : State) : (respond st v d s).fault = s.fault := rfl
@[simp] theorem respond_sched (st : Byte) (v : Half) (d : List Byte) (s : State) : (respond st v d s).sched = s.sched := rfl
@[simp] theorem respond_tick (st : Byte) (v : Half) (d : List Byte) (s : State) : (respond st v d s).tick = s.tick := rfl

@[simp] theorem takeFault_fault (w : Agent) (c : Byte) (s : State) : (takeFault w c s).fault = c := by cases w <;> rfl
@[simp] theorem takeFault_params (w : Agent) (c : Byte) (s : State) : (takeFault w c s).params = s.params := by cases w <;> rfl
@[simp] theorem takeFault_rx (w : Agent) (c : Byte) (s : State) : (takeFault w c s).rx = s.rx := by cases w <;> rfl
@[simp] theorem takeFault_tx (w : Agent) (c : Byte) (s : State) : (takeFault w c s).tx = s.tx := by cases w <;> rfl
@[simp] theorem takeFault_tp (w : Agent) (c : Byte) (s : State) : (takeFault w c s).tp = s.tp := by cases w <;> rfl
@[simp] theorem takeFault_phy (w : Agent) (c : Byte) (s : State) : (takeFault w c s).phy = s.phy := by cases w <;> rfl
@[simp] theorem takeFault_isr (w : Agent) (c : Byte) (s : State) : (takeFault w c s).isr = s.isr := by cases w <;> rfl
@[simp] theorem takeFault_fc (w : Agent) (c : Byte) (s : State) : (takeFault w c s).fc = s.fc := by cases w <;> rfl
@[simp] theorem takeFault_sched (w : Agent) (c : Byte) (s : State) : (takeFault w c s).sched = s.sched := by cases w <;> rfl
@[simp] theorem takeFault_tick (w : Agent) (c : Byte) (s : State) : (takeFault w c s).tick = s.tick := by cases w <;> rfl
/-- The HOST that faults answers FAULTED and is idle; a handler's fault leaves the HOST as it was (R175). -/
@[simp] theorem takeFault_host_host (c : Byte) (s : State) :
    (takeFault .host c s).host =
      { s.host with cmd := none, phase := .start, responses := s.host.responses ++ [⟨statusFaulted, c, 0, []⟩] } := rfl
@[simp] theorem takeFault_isr_host (c : Byte) (s : State) : (takeFault .isr c s).host = s.host := rfl

@[simp] theorem setPhase_host (ph : Phase) (s : State) : (setPhase ph s).host = { s.host with phase := ph } := rfl
@[simp] theorem setPhase_params (ph : Phase) (s : State) : (setPhase ph s).params = s.params := rfl
@[simp] theorem setPhase_rx (ph : Phase) (s : State) : (setPhase ph s).rx = s.rx := rfl
@[simp] theorem setPhase_tx (ph : Phase) (s : State) : (setPhase ph s).tx = s.tx := rfl
@[simp] theorem setPhase_tp (ph : Phase) (s : State) : (setPhase ph s).tp = s.tp := rfl
@[simp] theorem setPhase_phy (ph : Phase) (s : State) : (setPhase ph s).phy = s.phy := rfl
@[simp] theorem setPhase_isr (ph : Phase) (s : State) : (setPhase ph s).isr = s.isr := rfl
@[simp] theorem setPhase_fc (ph : Phase) (s : State) : (setPhase ph s).fc = s.fc := rfl
@[simp] theorem setPhase_fault (ph : Phase) (s : State) : (setPhase ph s).fault = s.fault := rfl
@[simp] theorem setPhase_sched (ph : Phase) (s : State) : (setPhase ph s).sched = s.sched := rfl
@[simp] theorem setPhase_tick (ph : Phase) (s : State) : (setPhase ph s).tick = s.tick := rfl

/-! ### Handler entry and exit -/

@[simp] theorem enterHandler_isr (h : Handler) (s : State) : (enterHandler h s).isr = ⟨h, false⟩ := rfl
@[simp] theorem exitHandler_isr (h : Handler) (s : State) : (exitHandler h s).isr = ⟨.none, false⟩ := rfl
@[simp] theorem endLoop_isr (s : State) : (endLoop s).isr = ⟨s.isr.active, true⟩ := rfl

/-- The exit clears the handler's own pending bit and leaves `isr.active = NONE`; nothing else changes. -/
theorem exitHandler_txc (s : State) :
    exitHandler .txc s = (s.withPhy { s.phy with txPending := false }).withIsr ⟨.none, false⟩ := rfl

theorem exitHandler_rxd (s : State) :
    exitHandler .rxd s = (s.withPhy { s.phy with rxPending := false }).withIsr ⟨.none, false⟩ := rfl

/-! ### A HOST command's micro-step -/

/-- Every outcome of a HOST command: stopped, not enabled, acceptance, or the micro-step of the command in progress. -/
theorem hostCommand_cases (i : Instr) (body : State → Result) (s : State) :
    (s.fault ≠ 0 ∧ hostCommand i body s = .fault (.blockStopped s.fault)) ∨
    (s.fault = 0 ∧ s.isr.active ≠ .none ∧ hostCommand i body s = .refused .notEnabled) ∨
    (s.fault = 0 ∧ s.isr.active = .none ∧ s.host.cmd = none ∧ hostCommand i body s = .next (acceptCommand i s)) ∨
    (s.fault = 0 ∧ s.isr.active = .none ∧ s.host.cmd = some i ∧ hostCommand i body s = body s) ∨
    (s.fault = 0 ∧ s.isr.active = .none ∧ (∃ j, s.host.cmd = some j ∧ j ≠ i) ∧
      hostCommand i body s = .refused .notEnabled) := by
  unfold hostCommand
  by_cases hf : s.fault = 0
  · by_cases ha : s.isr.active = .none
    · cases hc : s.host.cmd with
      | none => simp [hf, ha]
      | some j => by_cases hj : j = i <;> simp [hf, ha, hj]
    · simp [hf, ha]
  · exact .inl ⟨hf, if_pos hf⟩

theorem hostCommand_running {i : Instr} {body : State → Result} {s : State} (hf : s.fault = 0)
    (ha : s.isr.active = .none) (hc : s.host.cmd = some i) : hostCommand i body s = body s := by
  simp [hostCommand, hf, ha, hc]

theorem hostCommand_idle {i : Instr} {body : State → Result} {s : State} (hf : s.fault = 0)
    (ha : s.isr.active = .none) (hc : s.host.cmd = none) : hostCommand i body s = .next (acceptCommand i s) := by
  simp [hostCommand, hf, ha, hc]

theorem requireLine_on {body : State → Result} {s : State} (h : s.tp.lineEn = true) : requireLine body s = body s := by
  simp [requireLine, h]

theorem requireLine_off {body : State → Result} {s : State} (h : s.tp.lineEn = false) :
    requireLine body s = raiseHost codeNotInit s := by
  simp [requireLine, h]

/-! ### Moves between a ring and the PHY -/

/-- What the move of a byte from `tx` to a transmit slot with room can do. -/
theorem moveTxToPhy_cases (w : Agent) {s : State} (h : phyTxFull s = false) :
    (s.tx.count = 0 ∧ moveTxToPhy w s = .next (takeFault w codeEmptyRead s)) ∨
    (Memory.read s.tx.buf s.tx.head = none ∧ moveTxToPhy w s = .fault .unwrittenCell) ∨
    (∃ v, s.tx.count ≠ 0 ∧ Memory.read s.tx.buf s.tx.head = some v ∧
      moveTxToPhy w s = .next ((s.withTx
        { buf := s.tx.buf, head := (s.tx.head + 1) % s.params.txCap, tail := s.tx.tail, count := s.tx.count - 1 }).withPhy
        { s.phy with txq := s.phy.txq ++ [v] })) := by
  unfold moveTxToPhy
  rcases ringGet_cases s.params.txCap s.tx with ⟨h0, hg⟩ | ⟨_, hn, hg⟩ | ⟨v, h0, hv, hg⟩
  · exact .inl ⟨h0, by rw [hg]⟩
  · exact .inr (.inl ⟨hn, by rw [hg]⟩)
  · refine .inr (.inr ⟨v, h0, hv, ?_⟩)
    rw [hg]
    simp only
    rw [phyTxPush_room (by simpa [phyTxFull] using h)]
    rfl

/-- What the move of a byte from a receive slot that holds one to `rx` does. -/
theorem movePhyToRx_cons (w : Agent) {s : State} {b : Byte} {rest : List Byte} (h : s.phy.rxq = b :: rest) :
    movePhyToRx w s =
      .next ((s.withPhy { s.phy with rxq := rest }).withRx (ringPut s.params.rxCap s.rx b).1) := by
  simp [movePhyToRx, phyRxPop_cons h]

/-! ### The choice of the next move, and one step -/

/-- The choice takes an enabled move and changes nothing but the schedule and the count of free choices. -/
theorem chooseMove_some {s s' : State} {m : Move} (h : chooseMove s = some (m, s')) :
    enabled s m = true ∧ ∃ q k, s' = (s.withSched q).withTick k := by
  unfold chooseMove at h
  split at h
  · rename_i m' q hq
    obtain ⟨rfl, rfl⟩ := Prod.mk.inj (Option.some.inj h)
    refine ⟨?_, q, s.tick, rfl⟩
    have := List.head?_dropWhile_not (fun m => !enabled s m) s.sched
    rw [hq] at this
    simpa using this
  · split at h
    · cases h
    · rename_i m' hm
      obtain ⟨rfl, rfl⟩ := Prod.mk.inj (Option.some.inj h)
      have : m' ∈ enabledMoves s := by rw [hm]; simp
      exact ⟨(List.mem_filter.1 this).2, [], s.tick, rfl⟩
    · rename_i m' ms _ hm
      obtain ⟨rfl, rfl⟩ := Prod.mk.inj (Option.some.inj h)
      refine ⟨?_, [], s.tick + 1, rfl⟩
      have hlt : Config.freeMove s.tick % (ms.length + 1) < (m' :: ms).length := by
        simpa using Nat.mod_lt _ (Nat.succ_pos _)
      have : (m' :: ms).getD (Config.freeMove s.tick % (ms.length + 1)) m' ∈ enabledMoves s := by
        rw [hm, List.getD_eq_getElem _ _ hlt]
        exact List.getElem_mem hlt
      exact (List.mem_filter.1 this).2

/-- A schedule whose next move is enabled has its way. -/
theorem chooseMove_head {s : State} {m : Move} {q : List Move} (hs : s.sched = m :: q) (he : enabled s m = true) :
    chooseMove s = some (m, s.withSched q) := by
  simp [chooseMove, hs, he]

/-- A step does an enabled move, or nothing is enabled. -/
theorem step_cases (s : State) :
    (∃ m q k, enabled s m = true ∧ step s = perform m ((s.withSched q).withTick k)) ∨
    (chooseMove s = none ∧ step s = rest s) := by
  unfold step nextMicroStep
  cases h : chooseMove s with
  | none => exact .inr ⟨rfl, rfl⟩
  | some p =>
    obtain ⟨m, s'⟩ := p
    obtain ⟨he, q, k, rfl⟩ := chooseMove_some h
    exact .inl ⟨m, q, k, he, rfl⟩

/-- What a move is enabled under depends on neither the schedule nor the count of free choices. -/
@[simp] theorem enabled_withSched (s : State) (q : List Move) (m : Move) : enabled (s.withSched q) m = enabled s m := by
  cases m <;> rfl

@[simp] theorem enabled_withTick (s : State) (k : Nat) (m : Move) : enabled (s.withTick k) m = enabled s m := by
  cases m <;> rfl

end Sys2Proof.Machine
end

