-- ==== Sys2Proof/Laws/Exec.lean ====
section
/-! SUPPORT. exec of each instruction in the form the proofs use: the command in progress runs its body, an idle HOST accepts,
a running handler takes its next micro-step. -/

namespace Sys2Proof.Machine

open Sys2Proof.Safety

/-- The micro-step of the command in progress runs its body. -/
theorem running_body {i : Instr} {body : State → Result} {s : State} (h : Running i s) : hostCommand i body s = body s :=
  hostCommand_running h.1.1 h.1.2 h.2

/-! ### The command in progress -/

theorem exec_rbInit {r : RingSel} {c : Half} {s : State} (h : Running (.rbInit r c) s) :
    exec (.rbInit r c) s = .next (respond statusOk 0 [] (withSelected r (ringReset (selected r s)) s)) := by
  simp only [exec, execRbInit]
  exact running_body h

theorem exec_rbWrite {r : RingSel} {b : Byte} {s : State} (h : Running (.rbWrite r b) s) :
    exec (.rbWrite r b) s =
      .next (respond (putStatus (ringPut (s.params.cap r) (selected r s) b).2) 0 []
        (withSelected r (ringPut (s.params.cap r) (selected r s) b).1 s)) := by
  simp only [exec, execRbWrite]
  exact running_body h

theorem exec_rbRead {r : RingSel} {s : State} (h : Running (.rbRead r) s) :
    exec (.rbRead r) s =
      match ringGet (s.params.cap r) (selected r s) with
      | .empty => raiseHost codeEmptyRead s
      | .noValue => .fault .unwrittenCell
      | .byte v ring => .next (respond statusOk (zext16 v) [] (withSelected r ring s)) := by
  simp only [exec, execRbRead]
  exact running_body h

theorem exec_rbStatus {r : RingSel} {s : State} (h : Running (.rbStatus r) s) :
    exec (.rbStatus r) s =
      .next (respond statusOk (statusCode (ringStatus (s.params.cap r) (selected r s))) [] s) := by
  simp only [exec, execRbStatus]
  exact running_body h

theorem exec_rbOcc {r : RingSel} {s : State} (h : Running (.rbOcc r) s) :
    exec (.rbOcc r) s = .next (respond statusOk (countValue (ringOccupied (selected r s))) [] s) := by
  simp only [exec, execRbOcc]
  exact running_body h

theorem exec_rbFree {r : RingSel} {s : State} (h : Running (.rbFree r) s) :
    exec (.rbFree r) s = .next (respond statusOk (countValue (ringFree (s.params.cap r) (selected r s))) [] s) :=
  by
  simp only [exec, execRbFree]
  exact running_body h

theorem exec_tpInit {s : State} (h : Running .tpInit s) :
    exec .tpInit s =
      .next (respond statusOk 0 []
        (((s.withRx (ringReset s.rx)).withTx (ringReset s.tx)).withTp
          { writeLock := false, readLock := false, lineEn := true, hostInTx := false, hostInRx := false })) :=
  by
  simp only [exec, execTpInit]
  exact running_body h

theorem exec_tpReadable {s : State} (h : Running .tpReadable s) :
    exec .tpReadable s = requireLine (fun s => .next (respond statusOk (countValue (ringOccupied s.rx)) [] s)) s :=
  by
  simp only [exec, execTpReadable]
  exact running_body h

theorem exec_tpWriteable {s : State} (h : Running .tpWriteable s) :
    exec .tpWriteable s =
      requireLine (fun s => .next (respond statusOk (countValue (ringFree s.params.txCap s.tx)) [] s)) s :=
  by
  simp only [exec, execTpWriteable]
  exact running_body h

/-- The first micro-step of TP_WRITE. -/
theorem exec_tpWrite_start {bytes : List Byte} {s : State} (h : Ready (.tpWrite bytes) s) :
    exec (.tpWrite bytes) s = enterWrite (tpWriteDone bytes) bytes [] s := by
  simp only [exec, execTpWrite]
  rw [running_body h.1, h.2]

/-- A micro-step inside TP_WRITE. -/
theorem exec_tpWrite_at {bytes : List Byte} {s : State} {pos : WritePos} {todo later : List Byte}
    (h : Running (.tpWrite bytes) s) (hp : s.host.phase = .write pos todo later) :
    exec (.tpWrite bytes) s = writeAt (tpWriteDone bytes) pos todo later s := by
  simp only [exec, execTpWrite]
  rw [running_body h, hp]

/-- The first micro-step of TP_READ. -/
theorem exec_tpRead_start {n : Half} {s : State} (h : Ready (.tpRead n) s) :
    exec (.tpRead n) s = enterRead (tpReadDone n) n.toNat s := by
  simp only [exec, execTpRead]
  rw [running_body h.1, h.2]

/-- A micro-step inside TP_READ. -/
theorem exec_tpRead_at {n : Half} {s : State} {pos : ReadPos} {left : Nat} {out : List Byte}
    (h : Running (.tpRead n) s) (hp : s.host.phase = .read pos left out) :
    exec (.tpRead n) s = readAt (tpReadDone n) pos left out s := by
  simp only [exec, execTpRead]
  rw [running_body h, hp]

theorem exec_fcStart {s : State} (h : Running .fcStart s) : exec .fcStart s = chanMicro fcStartFirst fcStartDone s :=
  by
  simp only [exec, execFcStart]
  exact running_body h

theorem exec_fcPush {b : Byte} {s : State} (h : Running (.fcPush b) s) :
    exec (.fcPush b) s = chanMicro (fcPushFirst b) fcPushDone s := by
  simp only [exec, execFcPush]
  exact running_body h

theorem exec_fcFinish {s : State} (h : Running .fcFinish s) : exec .fcFinish s = chanMicro fcFinishFirst fcFinishDone s :=
  by
  simp only [exec, execFcFinish]
  exact running_body h

/-- The first micro-step of FC_PULL. -/
theorem exec_fcPull_start {s : State} (h : Ready .fcPull s) : exec .fcPull s = fcPullFirst s := by
  simp only [exec, execFcPull]
  rw [running_body h.1, h.2]

/-- The first micro-step of FC_PULL's TP_READ body. -/
theorem exec_fcPull_enter {s : State} {left : Nat} (h : Running .fcPull s) (hp : s.host.phase = .readEnter left) :
    exec .fcPull s = enterRead fcPullIngest left s := by
  simp only [exec, execFcPull]
  rw [running_body h, hp]

/-- A micro-step inside FC_PULL's TP_READ body. -/
theorem exec_fcPull_at {s : State} {pos : ReadPos} {left : Nat} {out : List Byte} (h : Running .fcPull s)
    (hp : s.host.phase = .read pos left out) : exec .fcPull s = readAt fcPullIngest pos left out s := by
  simp only [exec, execFcPull]
  rw [running_body h, hp]

/-- FC_PULL's last micro-step. -/
theorem exec_fcPull_decode {s : State} (h : Running .fcPull s) (hp : s.host.phase = .decode) :
    exec .fcPull s = fcPullDecode s := by
  simp only [exec, execFcPull]
  rw [running_body h, hp]

/-! ### Acceptance -/

/-- An idle HOST's micro-step of a command is its acceptance. -/
theorem exec_accept {i : Instr} {s : State} (h : IdleHost s) (hi : i.isCommand = true) :
    exec i s = .next (acceptCommand i s) := by
  obtain ⟨⟨hf, ha⟩, hc⟩ := h
  cases i with
  | evTxc => cases hi
  | evRxd => cases hi
  | rbInit r c => simp only [exec, execRbInit]; exact hostCommand_idle hf ha hc
  | rbWrite r b => simp only [exec, execRbWrite]; exact hostCommand_idle hf ha hc
  | rbRead r => simp only [exec, execRbRead]; exact hostCommand_idle hf ha hc
  | rbStatus r => simp only [exec, execRbStatus]; exact hostCommand_idle hf ha hc
  | rbOcc r => simp only [exec, execRbOcc]; exact hostCommand_idle hf ha hc
  | rbFree r => simp only [exec, execRbFree]; exact hostCommand_idle hf ha hc
  | tpInit => simp only [exec, execTpInit]; exact hostCommand_idle hf ha hc
  | tpWrite bytes => simp only [exec, execTpWrite]; exact hostCommand_idle hf ha hc
  | tpRead n => simp only [exec, execTpRead]; exact hostCommand_idle hf ha hc
  | tpReadable => simp only [exec, execTpReadable]; exact hostCommand_idle hf ha hc
  | tpWriteable => simp only [exec, execTpWriteable]; exact hostCommand_idle hf ha hc
  | fcStart => simp only [exec, execFcStart]; exact hostCommand_idle hf ha hc
  | fcPush b => simp only [exec, execFcPush]; exact hostCommand_idle hf ha hc
  | fcFinish => simp only [exec, execFcFinish]; exact hostCommand_idle hf ha hc
  | fcPull => simp only [exec, execFcPull]; exact hostCommand_idle hf ha hc

/-! ### Handlers -/

/-- The dispatch of EV_TXC. -/
theorem exec_evTxc_dispatch {s : State} (h : HostFree s) (hw : txcWaiting s = true) :
    exec .evTxc s = dispatchHandler .txc s.tp.writeLock s.tp.hostInTx s := by
  simp only [exec, execEvTxc]
  rw [if_neg (by simp [h.1]), h.2]
  simp [hw]

/-- The dispatch of EV_RXD. -/
theorem exec_evRxd_dispatch {s : State} (h : HostFree s) (hw : rxdWaiting s = true) :
    exec .evRxd s = dispatchHandler .rxd s.tp.readLock s.tp.hostInRx s := by
  simp only [exec, execEvRxd]
  rw [if_neg (by simp [h.1]), h.2]
  simp [hw]

/-- Everything a dispatch can do: the immediate exit of a handler whose guard is held, RING_RACE, or the entry. -/
theorem dispatchHandler_cases (h : Handler) (guard hidden : Bool) (s : State) :
    (guard = true ∧ dispatchHandler h guard hidden s = .next (exitHandler h (enterHandler h s))) ∨
    (guard = false ∧ s.params.race = .opened ∧ hidden = true ∧ s.params.raceAt = .dispatch ∧
      dispatchHandler h guard hidden s = .next (takeFault .isr codeRingRace (enterHandler h s))) ∨
    (guard = false ∧ ¬ (s.params.race = .opened ∧ hidden = true ∧ s.params.raceAt = .dispatch) ∧
      dispatchHandler h guard hidden s = .next (enterHandler h s)) := by
  cases guard
  · by_cases hr : s.params.race = .opened ∧ hidden = true ∧ s.params.raceAt = .dispatch
    · exact .inr (.inl ⟨rfl, hr.1, hr.2.1, hr.2.2, by simp [dispatchHandler, raceOpen, hr.1, hr.2.1, hr.2.2]⟩)
    · refine .inr (.inr ⟨rfl, hr, ?_⟩)
      rw [dispatchHandler, if_neg (by simp), if_neg (by simpa [raceOpen, and_assoc] using hr)]
  · simp [dispatchHandler]

/-- Everything a ring access of a handler can do: RING_RACE, or the access. -/
theorem ringAccess_cases (hidden : Bool) (access : State → Result) (s : State) :
    (s.params.race = .opened ∧ hidden = true ∧ ringAccess hidden access s = .next (takeFault .isr codeRingRace s)) ∨
    (¬ (s.params.race = .opened ∧ hidden = true) ∧ ringAccess hidden access s = access s) := by
  by_cases h : s.params.race = .opened ∧ hidden = true
  · exact .inl ⟨h.1, h.2, by simp [ringAccess, raceOpen, h.1, h.2]⟩
  · exact .inr ⟨h, by rw [ringAccess, if_neg (by simpa [raceOpen] using h)]⟩

/-- The running EV_TXC. -/
theorem exec_evTxc_running {s : State} (hf : s.fault = 0) (ha : s.isr.active = .txc) : exec .evTxc s = txcMicro s := by
  simp only [exec, execEvTxc]
  rw [if_neg (by simp [hf]), ha]

/-- The running EV_RXD. -/
theorem exec_evRxd_running {s : State} (hf : s.fault = 0) (ha : s.isr.active = .rxd) : exec .evRxd s = rxdMicro s := by
  simp only [exec, execEvRxd]
  rw [if_neg (by simp [hf]), ha]

end Sys2Proof.Machine
end

