-- ==== Sys2Proof/Laws/PerInstr.lean ====
section
/-! SUPPORT. Facts of every instruction as syntax, one lemma per constructor. -/

namespace Sys2Proof.Laws

/-- The upper and the lower part of a word written as two parts. -/
theorem extract_high {n m : Nat} (x : BitVec n) (y : BitVec m) : (x ++ y).extractLsb' m n = x := by
  apply BitVec.eq_of_getLsbD_eq
  intro k hk
  simp [BitVec.getLsbD_append, hk]

theorem extract_low {n m : Nat} (x : BitVec n) (y : BitVec m) : (x ++ y).extractLsb' 0 m = y := by
  apply BitVec.eq_of_getLsbD_eq
  intro k hk
  simp [BitVec.getLsbD_append, hk]

/-- The opcode stands in bits 31..24 of every format (R81). -/
theorem opOf_formatR (op : Byte) (r : RingSel) (imm : Half) : opOf (formatR op r imm) = op := by
  have h : formatR op r imm = op ++ (0#4 ++ (ringCode r ++ imm)) := by
    simp only [formatR]
    rw [BitVec.append_assoc, BitVec.append_assoc]
    simp
  rw [h]
  exact extract_high op (0#4 ++ (ringCode r ++ imm))

theorem opOf_formatT (op : Byte) (n : Half) : opOf (formatT op n) = op := by
  have h : formatT op n = op ++ (0#8 ++ n) := by
    simp only [formatT]
    rw [BitVec.append_assoc]
    simp
  rw [h]
  exact extract_high op (0#8 ++ n)

theorem opOf_formatC (op : Byte) (b : Byte) : opOf (formatC op b) = op := by
  have h : formatC op b = op ++ (0#16 ++ b) := by
    simp only [formatC]
    rw [BitVec.append_assoc]
    simp
  rw [h]
  exact extract_high op (0#16 ++ b)

/-- The low half of a Format T word is its operand. -/
theorem immOf_formatT (op : Byte) (n : Half) : immOf (formatT op n) = n := extract_low (op ++ 0#8) n

theorem packBytes_length : ∀ l : List Byte, (packBytes l).length = dataWords l.length
  | [] => rfl
  | [_] => by simp [packBytes, dataWords]
  | [_, _] => by simp [packBytes, dataWords]
  | [_, _, _] => by simp [packBytes, dataWords]
  | _ :: _ :: _ :: _ :: rest => by
    simp only [packBytes, List.length_cons, packBytes_length rest, dataWords]
    omega

/-- The first word carries the row's opcode (R84), and the length it asks for is the number of words (R87). -/
def Opcode.Statement (i : Instr) : Prop :=
  i.wellFormed = true → opOf (encodeHead i) = opcode i ∧ commandLength (encodeHead i) = (encode i).length

/-- A one-word instruction: an opcode other than TP_WRITE's. -/
theorem oneWord {i : Instr} (ho : opOf (encodeHead i) = opcode i) (hn : opcode i ≠ 0x21) (ht : encodeTail i = []) :
    Opcode.Statement i := by
  intro _
  refine ⟨ho, ?_⟩
  rw [commandLength, ho, if_neg hn, encode, ht]
  rfl

theorem Opcode.rbInit (r : RingSel) (c : Half) : Opcode.Statement (.rbInit r c) :=
  oneWord (opOf_formatR _ _ _) (by simp [opcode]) rfl
theorem Opcode.rbWrite (r : RingSel) (b : Byte) : Opcode.Statement (.rbWrite r b) :=
  oneWord (opOf_formatR _ _ _) (by simp [opcode]) rfl
theorem Opcode.rbRead (r : RingSel) : Opcode.Statement (.rbRead r) := oneWord (opOf_formatR _ _ _) (by simp [opcode]) rfl
theorem Opcode.rbStatus (r : RingSel) : Opcode.Statement (.rbStatus r) := oneWord (opOf_formatR _ _ _) (by simp [opcode]) rfl
theorem Opcode.rbOcc (r : RingSel) : Opcode.Statement (.rbOcc r) := oneWord (opOf_formatR _ _ _) (by simp [opcode]) rfl
theorem Opcode.rbFree (r : RingSel) : Opcode.Statement (.rbFree r) := oneWord (opOf_formatR _ _ _) (by simp [opcode]) rfl
theorem Opcode.tpInit : Opcode.Statement .tpInit := oneWord (opOf_formatT _ _) (by simp [opcode]) rfl
theorem Opcode.tpWrite (bytes : List Byte) : Opcode.Statement (.tpWrite bytes) := by
  intro h
  have hl : bytes.length < 2 ^ 16 := by
    simp only [Instr.wellFormed, decide_eq_true_eq] at h
    omega
  refine ⟨opOf_formatT _ _, ?_⟩
  have ho : opOf (encodeHead (.tpWrite bytes)) = 0x21 := opOf_formatT _ _
  rw [commandLength, if_pos ho]
  simp only [encodeHead, immOf_formatT, encode, encodeTail, List.length_cons, packBytes_length, BitVec.toNat_ofNat,
    Nat.mod_eq_of_lt hl]
  omega
theorem Opcode.tpRead (n : Half) : Opcode.Statement (.tpRead n) := oneWord (opOf_formatT _ _) (by simp [opcode]) rfl
theorem Opcode.tpReadable : Opcode.Statement .tpReadable := oneWord (opOf_formatT _ _) (by simp [opcode]) rfl
theorem Opcode.tpWriteable : Opcode.Statement .tpWriteable := oneWord (opOf_formatT _ _) (by simp [opcode]) rfl
theorem Opcode.fcStart : Opcode.Statement .fcStart := oneWord (opOf_formatC _ _) (by simp [opcode]) rfl
theorem Opcode.fcPush (b : Byte) : Opcode.Statement (.fcPush b) := oneWord (opOf_formatC _ _) (by simp [opcode]) rfl
theorem Opcode.fcFinish : Opcode.Statement .fcFinish := oneWord (opOf_formatC _ _) (by simp [opcode]) rfl
theorem Opcode.fcPull : Opcode.Statement .fcPull := oneWord (opOf_formatC _ _) (by simp [opcode]) rfl
theorem Opcode.evTxc : Opcode.Statement .evTxc := oneWord (opOf_formatC _ _) (by simp [opcode]) rfl
theorem Opcode.evRxd : Opcode.Statement .evRxd := oneWord (opOf_formatC _ _) (by simp [opcode]) rfl

end Sys2Proof.Laws
end

