-- ==== Sys2Proof/Tests/Slice0.lean ====
section
/-! SUPPORT. The model's own tests. Expected values come from 95_test_vectors.md (the vector's id stands beside the test) or
from the encoding tables of 30_encoding.md. The theorems named witness_… show that the hypotheses of a statement can be met. -/

namespace Sys2Proof.Tests

open Sys2Proof Sys2Proof.Machine Sys2Proof.Safety

/-! ### Small states -/

/-- Rings of 4 cells. -/
def par4 : Params := { rxCap := 4, txCap := 4, accCap := 8 }
/-- Rings of 1 cell. -/
def par1 : Params := { rxCap := 1, txCap := 1, accCap := 4 }
/-- RACE_WINDOW = OPEN. -/
def parOpen : Params := { rxCap := 4, txCap := 4, accCap := 8, race := .opened }

/-- RACE_WINDOW = OPEN, with RING_RACE at the first ring access. -/
def parLate : Params := { rxCap := 4, txCap := 4, accCap := 8, race := .opened, raceAt := .access }
/-- EXCLUSION_MODE = MASKED. -/
def parMasked : Params := { rxCap := 4, txCap := 4, accCap := 8, exclusion := .masked }
/-- ACC_FULL_POLICY = STALL. -/
def parStall : Params := { rxCap := 4, txCap := 4, accCap := 4, accFull := .stall }

/-- A ring that holds `bs` from cell `head` on. -/
def ring (cap head : Nat) (bs : List Byte) : Ring :=
  { buf := (List.range bs.length).foldl (fun m k => Memory.write m ((head + k) % cap) (bs.getD k 0)) []
    head := head, tail := (head + bs.length) % cap, count := bs.length }

/-- After reset and TP_INIT, the HOST idle. -/
def idle (p : Params) : State := (State.resetWith p).withTp { Transport.reset with lineEn := true }

/-- With these bytes in the rings. -/
def hold (p : Params) (rx tx : List Byte) : State := ((idle p).withRx (ring p.rxCap 0 rx)).withTx (ring p.txCap 0 tx)

/-- With these bytes in the slots. -/
def slots (txq rxq : List Byte) (s : State) : State := s.withPhy { s.phy with txq := txq, rxq := rxq }

/-- With both events pending. -/
def pending (s : State) : State := s.withPhy { s.phy with txPending := true, rxPending := true }

/-- EV_TXC running, its loop not over. -/
def inTxc (p : Params) : State := (idle p).withIsr { active := .txc, loopDone := false }

/-- With these bytes in the accumulation buffer. -/
def acc (bs : List Byte) (s : State) : State := s.withFc { s.fc with acc := Memory.writeList [] 0 bs, fill := bs.length }

/-- Inside a frame, with these sums. -/
def encoding (a b : Byte) (s : State) : State := s.withFc { s.fc with encState := .encoding, sum1 := a, sum2 := b }

/-- The command `i` in progress at `ph`. -/
def at_ (i : Instr) (ph : Phase) (s : State) : State := s.withHost { s.host with cmd := some i, phase := ph }

/-- The command `i` accepted. -/
def ready (i : Instr) (s : State) : State := at_ i .start s

/-- These words on the command port. -/
def present (ws : List Word) (s : State) : State := s.withHost { s.host with port := ws }

/-- The next state, if there is one. -/
def out (r : Result) : Option State :=
  match r with
  | .next t => some t
  | .fault _ | .refused _ => none

/-- The responses of a next state, as the response port shows them, and what `f` reads of it. -/
def seen {α : Type} (r : Result) (f : State → α) : Option (List Word × α) :=
  (out r).map fun t => (t.host.responses.flatMap responseWords, f t)

/-! ### WellFormed: an ill-formed term for each check -/

theorem test_wellFormed_tooManyBytes : (Instr.tpWrite (List.replicate 65536 0)).wellFormed = false := by
  rw [Instr.wellFormed, List.length_replicate]
  decide
theorem test_wellFormed_mostBytes : (Instr.tpWrite (List.replicate 65535 0)).wellFormed = true := by
  rw [Instr.wellFormed, List.length_replicate]
  decide
theorem test_event_is_no_command : Instr.evTxc.isCommand = false ∧ Instr.evRxd.isCommand = false := by decide
theorem test_accepted_capacity :
    (Instr.rbInit .rx 5).accepted par4 = false ∧ (Instr.rbInit .rx 4).accepted par4 = true := by decide
theorem test_accepted_event : Instr.evTxc.accepted par4 = false := by decide

/-! ### Decoding: the words of 30_encoding.md, every constructor -/

theorem test_decode_rbInit : decode [0x10010010] = .ok (.rbInit .tx 16, []) := by decide
theorem test_decode_rbWrite : decode [0x110100AB] = .ok (.rbWrite .tx 0xAB, []) := by decide
theorem test_decode_rbRead : decode [0x12000000] = .ok (.rbRead .rx, []) := by decide
theorem test_decode_rbStatus : decode [0x13010000] = .ok (.rbStatus .tx, []) := by decide
theorem test_decode_rbOcc : decode [0x14000000] = .ok (.rbOcc .rx, []) := by decide
theorem test_decode_rbFree : decode [0x15010000] = .ok (.rbFree .tx, []) := by decide
theorem test_decode_tpInit : decode [0x20000000] = .ok (.tpInit, []) := by decide
theorem test_decode_tpWrite :
    decode [0x21000005, 0x04030201, 0x00000005, 7] = .ok (.tpWrite [1, 2, 3, 4, 5], [7]) := by decide
theorem test_decode_tpRead : decode [0x22000003] = .ok (.tpRead 3, []) := by decide
theorem test_decode_tpReadable : decode [0x23000000] = .ok (.tpReadable, []) := by decide
theorem test_decode_tpWriteable : decode [0x24000000] = .ok (.tpWriteable, []) := by decide
theorem test_decode_fcStart : decode [0x30000000] = .ok (.fcStart, []) := by decide
theorem test_decode_fcPush : decode [0x310000F7] = .ok (.fcPush 0xF7, []) := by decide
theorem test_decode_fcFinish : decode [0x32000000] = .ok (.fcFinish, []) := by decide
theorem test_decode_fcPull : decode [0x33000000] = .ok (.fcPull, []) := by decide
theorem test_decode_evTxc : decode [0xE0000000] = .ok (.evTxc, []) := by decide
theorem test_decode_evRxd : decode [0xE1000000] = .ok (.evRxd, []) := by decide

/-- N-14 to N-21 and N-23 to N-26: the illegal words, each refused by its own name. -/
theorem test_decode_illegal :
    ([0x00000000, 0x16000000, 0x25000000, 0x34000000, 0xE0000000, 0xE1000000, 0x10020004, 0x10100004, 0x20010000, 0x11000100,
      0x12000001, 0x20000001, 0x23000001, 0x30000001, 0x33000080, 0x22FFFFFF] : List Word).map
        (fun w => match decodeCommand [w] with | .ok _ => none | .error e => some e) =
      [some .opcode, some .opcode, some .opcode, some .opcode, some .eventCode, some .eventCode, some .ringSelect,
       some .widthCode, some .reservedBits, some .immediate, some .immediate, some .operand, some .operand, some .operand,
       some .operand, some .reservedBits] := by decide
/-- N-25, and a Format C word with a bit of 15..8 set (R81). -/
theorem test_decode_illegal_more :
    decodeCommand [0x21000001, 0x0000FF41] = .error .padding ∧ decodeCommand [0x31000100] = .error .reservedBits := by decide
theorem test_decode_short : decode [0x21000005, 0x04030201] = .error .short := by decide

/-! ### One micro-step of each instruction -/

/-- R-1. -/
theorem test_rbInit : seen (exec (.rbInit .rx 4) (ready (.rbInit .rx 4) (hold par4 [0x11] [])))
    (fun t => (t.rx.head, t.rx.tail, t.rx.count)) = some ([0x00000000], 0, 0, 0) := by decide
/-- R-2. -/
theorem test_rbWrite : seen (exec (.rbWrite .rx 0x11) (ready (.rbWrite .rx 0x11) (hold par4 [] [])))
    (fun t => (t.rx.buf, t.rx.tail, t.rx.count)) = some ([0x00000000], [(0, 0x11)], 1, 1) := by decide
/-- R-4. -/
theorem test_rbWrite_full : seen (exec (.rbWrite .rx 0x55) (ready (.rbWrite .rx 0x55) (hold par4 [0x11, 0x22, 0x33, 0x44] [])))
    (fun t => t.rx) = some ([0x01000000], ring 4 0 [0x11, 0x22, 0x33, 0x44]) := by decide
/-- R-9. -/
theorem test_rbRead : seen (exec (.rbRead .rx) (ready (.rbRead .rx) ((idle par4).withRx (ring 4 3 [0x11, 0x22]))))
    (fun t => (t.rx.head, t.rx.tail, t.rx.count)) = some ([0x00000011], 0, 1, 1) := by decide
/-- R-8. -/
theorem test_rbRead_empty : seen (exec (.rbRead .rx) (ready (.rbRead .rx) (idle par4)))
    (fun t => (t.fault, t.host.cmd)) = some ([0xFF010000], 0x01, none) := by decide
/-- R-3 and R-7: a ring of one cell goes from EMPTY to FULL. -/
theorem test_rbStatus : (seen (exec (.rbStatus .rx) (ready (.rbStatus .rx) (hold par4 [0x11] []))) fun t => t.fault) =
    some ([0x00000001], 0) := by decide
theorem test_rbStatus_cap1 : (seen (exec (.rbStatus .rx) (ready (.rbStatus .rx) (hold par1 [0x11] []))) fun t => t.fault) =
    some ([0x00000002], 0) := by decide
/-- R-6. -/
theorem test_rbOcc : (seen (exec (.rbOcc .rx) (ready (.rbOcc .rx) (hold par4 [0x11, 0x22, 0x33, 0x44] []))) fun t => t.fault) =
    some ([0x00000004], 0) := by decide
/-- R-5. -/
theorem test_rbFree : (seen (exec (.rbFree .rx) (ready (.rbFree .rx) (hold par4 [0x11, 0x22, 0x33, 0x44] []))) fun t => t.fault) =
    some ([0x00000000], 0) := by decide
/-- R120's example. -/
theorem test_tpInit : seen (exec .tpInit (ready .tpInit (State.resetWith par4)))
    (fun t => (t.tp.lineEn, t.rx.count, t.tx.count)) = some ([0x00000000], true, 0, 0) := by decide
/-- The kick of T-1: one byte moves to the transmit slot. -/
theorem test_tpWrite_kick :
    seen (exec (.tpWrite [0xAA, 0xBB]) (at_ (.tpWrite [0xAA, 0xBB]) (.write .kick [] []) (hold par4 [] [0xAA, 0xBB])))
      (fun t => (t.phy.txq, contents 4 t.tx)) = some ([], [0xAA], [0xBB]) := by decide
/-- E-4's rule (R172) for TP_WRITE. -/
theorem test_tpWrite_notInit : (seen (exec (.tpWrite [1]) (ready (.tpWrite [1]) (State.resetWith par4))) fun t => t.fault) =
    some ([0xFF050000], 0x05) := by decide
/-- The last micro-step of T-6. -/
theorem test_tpRead_respond :
    seen (exec (.tpRead 2) (at_ (.tpRead 2) (.read .drainUnlock 0 [0x41, 0x42]) (hold par4 [0x43] [])))
      (fun t => contents 4 t.rx) = some ([0x00000002, 0x00004241], [0x43]) := by decide
/-- T-7: the first dequeue. -/
theorem test_tpRead_empty : (seen (exec (.tpRead 1) (at_ (.tpRead 1) (.read .get 1 []) (idle par4))) fun t => t.fault) =
    some ([0xFF010000], 0x01) := by decide
/-- T-5. -/
theorem test_tpReadable : (seen (exec .tpReadable (ready .tpReadable (hold par4 [0x41, 0x42] []))) fun t => t.fault) =
    some ([0x00000002], 0) := by decide
/-- T-12. -/
theorem test_tpReadable_notInit : (seen (exec .tpReadable (ready .tpReadable (State.resetWith par4))) fun t => t.fault) =
    some ([0xFF050000], 0x05) := by decide
/-- T-4, with `TX_CAP = 4`. -/
theorem test_tpWriteable : (seen (exec .tpWriteable (ready .tpWriteable (hold par4 [] [0xBB, 0xCC]))) fun t => t.fault) =
    some ([0x00000002], 0) := by decide
/-- E-2. -/
theorem test_fcStart_encoding : (seen (exec .fcStart (ready .fcStart (encoding 0 0 (idle par4)))) fun t => t.fault) =
    some ([0xFF020000], 0x02) := by decide
/-- C-4: the sums after pushing F7. -/
theorem test_fcPush_sums : seen (exec (.fcPush 0xF7) (ready (.fcPush 0xF7) (encoding 0x03 0x04 (idle par4))))
    (fun t => (t.fc.sum1, t.fc.sum2, t.host.phase)) = some ([], 0xFA, 0xFE, .writeEnter [0xF6] [0xD7]) := by decide
/-- E-4. -/
theorem test_fcPush_notInit : (seen (exec (.fcPush 1) (ready (.fcPush 1) (State.resetWith par4))) fun t => t.fault) =
    some ([0xFF050000], 0x05) := by decide
/-- C-4: FC_FINISH's value. -/
theorem test_fcFinish_value :
    seen (exec .fcFinish (at_ .fcFinish (.write .kickUnlock [] []) (encoding 0xFA 0xFE (idle par4))))
      (fun t => t.fc.encState) = some ([0x0000FEFA], .idle) := by decide
/-- E-3. -/
theorem test_fcFinish_idle : (seen (exec .fcFinish (ready .fcFinish (idle par4))) fun t => t.fault) =
    some ([0xFF020000], 0x02) := by decide
/-- D-1. -/
theorem test_fcPull_frame :
    seen (exec .fcPull (at_ .fcPull .decode (acc [0xF7, 0x01, 0x02, 0xF6, 0xD7, 0xFA, 0xFE, 0x7F] (idle par4))))
      (fun t => t.fc.fill) = some ([0x00000003, 0x00F70201], 0) := by decide
/-- D-16's clamp, with `ACC_CAP = 8`: 7 bytes held, 3 readable, 1 ingested. -/
theorem test_fcPull_clamp :
    seen (exec .fcPull (ready .fcPull (acc [0xF7, 1, 1, 1, 1, 1, 1] (hold par4 [1, 2, 3] []))))
      (fun t => t.host.phase) = some ([], .readEnter 1) := by decide
/-- R130's example: the move. -/
theorem test_evTxc_move :
    seen (exec .evTxc ((hold par4 [] [0xBB, 0xCC]).withIsr { active := .txc, loopDone := false }))
      (fun t => (t.phy.txq, contents 4 t.tx)) = some ([], [0xBB], [0xCC]) := by decide
/-- T-13 with R65: the running handler that the flag meets faults at its access, `tx` being EMPTY. -/
theorem test_evTxc_race :
    seen (exec .evTxc ((inTxc parLate).withTp { (idle parLate).tp with hostInTx := true }))
      (fun t => t.fault) = some ([], 0x03) := by decide
/-- T-13, the dispatch: it faults as the pseudocode of R130 has it. -/
theorem test_evTxc_race_dispatch :
    seen (exec .evTxc ((pending (idle parOpen)).withTp { (idle parOpen).tp with hostInTx := true }))
      (fun t => (t.isr.active, t.fault)) = some ([], .txc, 0x03) := by decide
/-- T-13, the dispatch where RING_RACE waits for the first ring access (R65, R171): the handler is entered. -/
theorem test_evTxc_race_later :
    seen (exec .evTxc ((pending (idle parLate)).withTp { (idle parLate).tp with hostInTx := true }))
      (fun t => (t.isr.active, t.fault)) = some ([], .txc, 0) := by decide
/-- R132's example: the move. -/
theorem test_evRxd_move :
    seen (exec .evRxd ((slots [] [0x55] (idle par4)).withIsr { active := .rxd, loopDone := false }))
      (fun t => (t.phy.rxq, contents 4 t.rx)) = some ([], [], [0x55]) := by decide
/-- R64, ADVISORY: the guard is held, the event is consumed. -/
theorem test_evRxd_skip :
    seen (exec .evRxd ((pending (idle par4)).withTp { (idle par4).tp with readLock := true }))
      (fun t => (t.phy.rxPending, t.isr.active)) = some ([], false, .none) := by decide

/-! ### The decoder of FC_PULL: D-10, D-12, D-14, D-15 and F-8 -/

theorem test_pull_second_frame :
    pullOutcome Params.vectors [0xF7, 0x01, 0x01, 0x7F, 0x09, 0x09, 0xF7, 0x02, 0x02, 0x02, 0x7F] =
      ([], [0xF7, 0x02, 0x02, 0x02, 0x7F]) := by decide
theorem test_pull_escaped_zero : pullOutcome par4 [0xF7, 0xF6, 0x00, 0x20, 0x20, 0x7F] = ([0x20], []) := by decide
theorem test_pull_flush : pullOutcome par1 [0xF7, 1, 2, 3] = ([], []) := by decide
theorem test_pull_stall : pullOutcome parStall [0xF7, 1, 2, 3] = ([], [0xF7, 1, 2, 3]) := by decide
theorem test_pull_false_accept :
    pullOutcome Params.vectors [0xF7, 0xF6, 0x5F, 0xF6, 0x5F, 0xF6, 0x5F, 0x7F, 0xFA, 0x7F] = ([0x7F], []) := by decide

/-! ### The host's two questions, on TP_INIT and EV_TXC -/

theorem test_withFetchWord_command :
    (seen (step (State.reset.withFetchWord 32 0x20000000)) fun t => t.host.cmd) = some ([], some .tpInit) := by decide
theorem test_withFetchWord_event :
    (seen (step (State.reset.withFetchWord 32 0xE0000000)) fun t => t.isr.active) = some ([], .txc) := by decide

/-! ### The invariant of a concrete state -/

/-- What `decide` checks of a ring. -/
abbrev RingPlain (cap : Nat) (r : Ring) : Prop :=
  Memory.wf r.buf ∧ (∀ c ∈ r.buf, c.1 < cap) ∧ r.head < cap ∧ r.count ≤ cap ∧ r.tail = (r.head + r.count) % cap ∧
  ∀ k, k < r.count → (Memory.read r.buf ((r.head + k) % cap)).isSome

theorem ringOk_of {cap : Nat} {r : Ring} (h : RingPlain cap r) : RingOk cap r :=
  ⟨h.1, h.2.1, h.2.2.1, h.2.2.2.1, h.2.2.2.2.1, h.2.2.2.2.2⟩

/-- No handler runs against its guard. -/
def excluded (s : State) : Bool :=
  decide ((s.isr.active = .txc → s.tp.writeLock = false ∧ (s.isr.loopDone = true ∨ s.params.raceAt = .dispatch → s.tp.hostInTx = false)) ∧
    (s.isr.active = .rxd → s.tp.readLock = false ∧ (s.isr.loopDone = true ∨ s.params.raceAt = .dispatch → s.tp.hostInRx = false)))

/-- What `decide` checks of a state: all of the invariant but the HOST's position. -/
abbrev Plain (s : State) : Prop :=
  RingPlain s.params.rxCap s.rx ∧ RingPlain s.params.txCap s.tx ∧
  (s.phy.txq.length ≤ s.params.hwTxDepth ∧ s.phy.rxq.length ≤ s.params.hwRxDepth) ∧
  (Memory.wf s.fc.acc ∧ (∀ x ∈ s.fc.acc, x.1 < s.params.accCap) ∧ s.fc.fill ≤ s.params.accCap ∧
    ∀ k, k < s.fc.fill → (Memory.read s.fc.acc k).isSome) ∧
  (s.host.phase ≠ .decode → s.fc.fill = 0 ∨ Memory.read s.fc.acc 0 = some START) ∧
  ((s.isr.active ≠ .none → s.tp.lineEn = true) ∧ (s.isr.active = .none → s.isr.loopDone = false) ∧
    (s.tp.lineEn = false → s.phy.txq = [] ∧ s.phy.rxq = [] ∧ s.phy.txPending = false ∧ s.phy.rxPending = false)) ∧
  (s.fault.toNat ≤ 5 ∧ (s.fault = codeRingRace → raceOpen s = true)) ∧
  (s.tp.writeLock = holdsTx s.host.phase ∧ s.tp.readLock = holdsRx s.host.phase ∧
    s.tp.hostInTx = (raceOpen s && marksTx s.host.phase) ∧ s.tp.hostInRx = (raceOpen s && marksRx s.host.phase)) ∧
  excluded s = true

theorem inv_of {s : State} (h : Plain s) (hh : HostOk s) : Inv s :=
  let ⟨rx, tx, phy, acc, start, line, fault, guards, excl⟩ := h
  { rx := ringOk_of rx, tx := ringOk_of tx, phy := ⟨phy.1, phy.2⟩, acc := ⟨acc.1, acc.2.1, acc.2.2.1, acc.2.2.2⟩
    start := start, host := hh, line := ⟨line.1, line.2.1, line.2.2⟩, faultOk := ⟨fault.1, fault.2⟩
    guards := fun _ => ⟨guards.1, guards.2.1, guards.2.2.1, guards.2.2.2⟩, exclusion := fun _ => ⟨(of_decide_eq_true excl).1, (of_decide_eq_true excl).2⟩ }

/-- A HOST without a command. -/
theorem hostOk_idle {s : State} (hc : s.host.cmd = none) (hp : s.host.phase = .start) : HostOk s :=
  ⟨by rw [PhaseOk, hp]; trivial, fun _ => hp, fun i h => (by rw [hc] at h; cases h), fun h => absurd hp h⟩

/-- A HOST with the command `i` in progress. -/
theorem hostOk_cmd {s : State} {i : Instr} (hc : s.host.cmd = some i) (ha : i.accepted s.params = true) (hp : PhaseOk s)
    (hl : s.host.phase ≠ .start → s.tp.lineEn = true) : HostOk s :=
  ⟨hp, fun h => (by rw [hc] at h; cases h), fun j h => (by rw [hc] at h; cases h; exact ha), hl⟩

theorem inv_idle {s : State} (hc : s.host.cmd = none) (hp : s.host.phase = .start) (h : Plain s) : Inv s :=
  inv_of h (hostOk_idle hc hp)

theorem inv_ready {s : State} {i : Instr} (hc : s.host.cmd = some i) (hp : s.host.phase = .start)
    (ha : i.accepted s.params = true) (h : Plain s) : Inv s :=
  inv_of h (hostOk_cmd hc ha (by rw [PhaseOk, hp]; trivial) fun h => absurd hp h)

/-- A TP_WRITE at `pos`. -/
theorem inv_write {s : State} {bytes todo : List Byte} {pos : WritePos} (hc : s.host.cmd = some (.tpWrite bytes))
    (hp : s.host.phase = .write pos todo []) (ha : (Instr.tpWrite bytes).accepted s.params = true) (hs : todo <:+ bytes)
    (hw : WritePosOk s pos todo) (hl : s.tp.lineEn = true) (h : Plain s) : Inv s :=
  inv_of h (hostOk_cmd hc ha (by rw [PhaseOk, hp]; exact ⟨.inl ⟨bytes, hc, hs, rfl⟩, hw⟩) fun _ => hl)

/-- An encode command in a wire byte's body at `pos`. -/
theorem inv_encode {s : State} {i : Instr} {todo later : List Byte} {pos : WritePos} (hc : s.host.cmd = some i)
    (hi : IsEncode (some i)) (hp : s.host.phase = .write pos todo later) (ha : i.accepted s.params = true)
    (hs : todo.length ≤ 1) (hw : WritePosOk s pos todo) (hl : s.tp.lineEn = true) (h : Plain s) : Inv s :=
  inv_of h (hostOk_cmd hc ha (by rw [PhaseOk, hp]; exact ⟨.inr ⟨hc ▸ hi, hs⟩, hw⟩) fun _ => hl)

/-- A TP_READ at `pos`. -/
theorem inv_read {s : State} {n : Half} {pos : ReadPos} {left : Nat} {bytes : List Byte} (hc : s.host.cmd = some (.tpRead n))
    (hp : s.host.phase = .read pos left bytes) (ha : (Instr.tpRead n).accepted s.params = true)
    (hs : remaining pos left + bytes.length = n.toNat) (hw : ReadPosOk s pos left) (hl : s.tp.lineEn = true) (h : Plain s) :
    Inv s :=
  inv_of h (hostOk_cmd hc ha (by rw [PhaseOk, hp]; exact ⟨.inl ⟨n, hc, hs⟩, hw⟩) fun _ => hl)

/-! ### The hypotheses of the statements can be met: encoding -/

theorem witness_DecodeOfEncode : (Instr.tpWrite [1, 2, 3, 4, 5]).wellFormed = true := by decide
theorem witness_DecodedWordsAreTheEncoding :
    decodeCommand [0x21000001, 0x00000041, 0x33000000] = .ok (.tpWrite [0x41], [0x33000000]) := by decide
theorem witness_LengthFromFirstWord :
    opOf 0x21000004 = 0x21 ∧ opOf 0x22000004 ≠ 0x21 ∧
    commandLength 0x21000004 ≤ 1 + [(0x04030201 : Word)].length ∧ commandLength 0x33000000 ≤ 1 + ([] : List Word).length := by
  decide
set_option synthInstance.maxSize 1024 in
theorem witness_LegalWordsDecode :
    (commandLength 0x21000001 ≤ 1 + [(0x41 : Word)].length ∧ ¬ IllegalWords 0x21000001 [0x41]) ∧
    (commandLength 0x21000001 ≤ 1 + [(0xFF41 : Word)].length ∧ IllegalWords 0x21000001 [0xFF41]) := by decide
/-- One word for each case of R86 but (f), at the boundary of its field, and bits 15..8 of Format C. -/
theorem witness_IllegalCommandFaults_words :
    IllegalWords 0x16000000 [] ∧
    IllegalWords 0xE0000000 [] ∧
    IllegalWords 0x12020000 [] ∧
    IllegalWords 0x12100000 [] ∧
    IllegalWords 0x20010000 [] ∧
    IllegalWords 0x31010000 [] ∧
    IllegalWords 0x11000100 [] ∧
    IllegalWords 0x12000001 [] ∧
    IllegalWords 0x20000001 [] ∧
    IllegalWords 0x30000001 [] ∧
    IllegalWords 0x21000003 [0x01000000] ∧
    IllegalWords 0x31000100 [] :=
  ⟨.inl (by decide),
   .inl (by decide),
   .inr (.inl (by decide)),
   .inr (.inr (.inl (by decide))),
   .inr (.inr (.inr (.inl (by decide)))),
   .inr (.inr (.inr (.inl (by decide)))),
   .inr (.inr (.inr (.inr (.inl (by decide))))),
   .inr (.inr (.inr (.inr (.inr (.inl (by decide)))))),
   .inr (.inr (.inr (.inr (.inr (.inr (.inl (by decide))))))),
   .inr (.inr (.inr (.inr (.inr (.inr (.inr (.inl (by decide)))))))),
   .inr (.inr (.inr (.inr (.inr (.inr (.inr (.inr (.inl (by decide))))))))),
   .inr (.inr (.inr (.inr (.inr (.inr (.inr (.inr (.inr (by decide)))))))))⟩
/-- R86 (f), on both sides of each ring's capacity; and the states that present an illegal command of one word and of two. -/
theorem witness_IllegalCommandFaults :
    IllegalCapacity par4 0x10000005 ∧ IllegalCapacity par4 0x10010003 ∧
    (IdleHost (present [0x16000000] (idle par4)) ∧ commandLength 0x16000000 ≤ 1 + ([] : List Word).length) ∧
    (IdleHost (present [0x21000003, 0x01000000] (idle par4)) ∧ commandLength 0x21000003 ≤ 1 + [(0x01000000 : Word)].length) := by
  decide
theorem witness_DataWordsLittleEndian :
    (packBytes [1, 2, 3, 4, 5])[1]? = some 0x00000005 ∧ [(0x04030201 : Word), 5][1]? = some 5 := by decide

/-! ### Acceptance, steps, agents -/

theorem witness_AcceptanceMicroStep :
    (IdleHost (present (encode (.rbInit .rx 4) ++ [7]) (idle par4)) ∧ (Instr.rbInit .rx 4).accepted par4 = true) ∧
    (Running .tpInit (ready .tpInit (idle par4)) ∧ (out (hostMove (ready .tpInit (idle par4)))).isSome) ∧
    ((idle par4).withFault 0x01).fault ≠ 0 := by decide
theorem witness_OneResponsePerCommand :
    (Running (.tpWrite [1]) (ready (.tpWrite [1]) (idle par4)) ∧
      (out (exec (.tpWrite [1]) (ready (.tpWrite [1]) (idle par4)))).isSome) ∧
    (Running (.rbRead .rx) (ready (.rbRead .rx) (idle par4)) ∧
      (out (exec (.rbRead .rx) (ready (.rbRead .rx) (idle par4)))).isSome) := by decide
theorem witness_StepRunsDecodedInstruction :
    IdleHost ((present [0x33000000] (idle par4)).withSched [.host, .host]) ∧
    decodeCommand ((present [0x33000000] (idle par4)).withSched [.host, .host]).host.port = .ok (.fcPull, []) ∧
    Running .fcPull ((ready .fcPull (idle par4)).withSched [.host]) ∧
    (HostFree ((pending (idle par4)).withSched [.dispatchTxc]) ∧ txcWaiting (pending (idle par4)) = true) ∧
    rxdWaiting (pending (idle par4)) = true ∧
    enabled (slots [7] [] (idle par4)) .shiftOut = true ∧ enabledMoves (slots [7] [] (idle par4)) = [.shiftOut] := by decide
theorem witness_HostWaitsForHandler :
    ∃ t, step ((inTxc par4).withSched [.isr]) = .next t := ⟨_, rfl⟩

/-! ### RingBuffer -/

theorem witness_RbInitResult :
    Ready (.rbInit .tx 4) (ready (.rbInit .tx 4) (hold par4 [] [1])) ∧ IdleHost (idle par4) ∧
    (5 : Half).toNat ≠ par4.cap .rx := by decide
theorem witness_RbWriteResult :
    (Ready (.rbWrite .rx 9) (ready (.rbWrite .rx 9) (hold par4 [1, 2, 3] [])) ∧ (hold par4 [1, 2, 3] []).rx.count ≠ par4.cap .rx) ∧
    (Ready (.rbWrite .rx 9) (ready (.rbWrite .rx 9) (hold par4 [1, 2, 3, 4] [])) ∧
      (hold par4 [1, 2, 3, 4] []).rx.count = par4.cap .rx) := by decide
theorem witness_RbReadResult :
    Ready (.rbRead .rx) (ready (.rbRead .rx) (hold par4 [1] [])) ∧ RingOk 4 (ring 4 0 [1]) ∧ (ring 4 0 [1]).count ≠ 0 ∧
    Ready (.rbRead .tx) (ready (.rbRead .tx) (idle par4)) ∧ RingOk 4 Ring.reset ∧ Ring.reset.count = 0 :=
  ⟨by decide, ringOk_of (by decide), by decide, by decide, ringOk_of (by decide), by decide⟩
theorem witness_RbReportResults :
    RingOk 4 (ring 4 3 [1, 2, 3, 4]) ∧ Ready (.rbStatus .rx) (ready (.rbStatus .rx) ((idle par4).withRx (ring 4 3 [1, 2, 3, 4]))) ∧
    Ready (.rbOcc .rx) (ready (.rbOcc .rx) ((idle par4).withRx (ring 4 3 [1, 2, 3, 4]))) ∧
    Ready (.rbFree .rx) (ready (.rbFree .rx) ((idle par4).withRx (ring 4 3 [1, 2, 3, 4]))) :=
  ⟨ringOk_of (by decide), by decide, by decide, by decide⟩
theorem witness_FifoLaw :
    RingOk 2 (ring 2 1 [1]) ∧ (ringRun 2 [.put 5, .put 6, .get, .put 7, .get] (ring 2 1 [1])).isSome :=
  ⟨ringOk_of (by decide), by decide⟩
theorem witness_CapacityLaw :
    (Inv (idle par4) ∧ IdleHost (idle par4) ∧ (selected .rx (idle par4)).count = 0 ∧ [(1 : Byte), 2, 3, 4].length = par4.cap .rx) ∧
    (Inv (idle par1) ∧ IdleHost (idle par1) ∧ (selected .tx (idle par1)).count = 0 ∧ [(1 : Byte)].length = par1.cap .tx) :=
  ⟨⟨inv_idle rfl rfl (by decide), by decide, by decide, by decide⟩, inv_idle rfl rfl (by decide), by decide, by decide, by decide⟩

/-! ### Transport -/

theorem witness_TpInitResult : Ready .tpInit (ready .tpInit (State.resetWith par4)) := by decide
theorem witness_TpCountResults :
    (hold par4 [1, 2, 3, 4] []).rx.count ≤ par4.rxCap ∧ Ready .tpReadable (ready .tpReadable (hold par4 [1, 2, 3, 4] [])) ∧
    (hold par4 [1, 2, 3, 4] []).tp.lineEn = true ∧ Ready .tpWriteable (ready .tpWriteable (State.resetWith par4)) ∧
    (State.resetWith par4).tp.lineEn = false := by decide
theorem witness_NotInitFaults :
    (Ready (.tpRead 0) (ready (.tpRead 0) (State.resetWith par4)) ∧ usesLine (.tpRead 0) = true) ∧
    (Ready (.rbOcc .rx) (ready (.rbOcc .rx) (State.resetWith par4)) ∧ usesLine (.rbOcc .rx) = false) := by decide
/-- The body of TP_WRITE at each of its positions. -/
theorem witness_TpWriteMicroSteps :
    (∀ pos ∈ [WritePos.spin, .mark, .lock, .put, .unlock, .kickMark, .kickLock, .kick, .kickUnlock],
      Running (.tpWrite [1, 2]) (at_ (.tpWrite [1, 2]) (.write pos [1, 2] []) (hold par4 [] [7])) ∧
      writesChannel (.tpWrite [1, 2]) = true) ∧
    Memory.read (hold par4 [] [7]).tx.buf 0 = some 7 ∧ (hold par4 [] [7]).phy.txq.length ≠ par4.hwTxDepth ∧
    (slots [1] [] (idle par4)).phy.txq.length = par4.hwTxDepth ∧
    (∀ p ∈ [par4, parOpen], Ready (.tpWrite []) (ready (.tpWrite []) (idle p)) ∧ Ready (.tpWrite [1]) (ready (.tpWrite [1]) (idle p))) ∧
    Ready (.tpWrite [1]) (ready (.tpWrite [1]) (State.resetWith par4)) := by decide
theorem witness_TpWriteNeverDrops :
    (Inv ((at_ (.tpWrite [1, 2]) (.write .put [2] []) (hold par4 [] [7, 8, 1])).withTp
        { (idle par4).tp with writeLock := true }) ∧
      Running (.tpWrite [1, 2]) ((at_ (.tpWrite [1, 2]) (.write .put [2] []) (hold par4 [] [7, 8, 1])).withTp
        { (idle par4).tp with writeLock := true })) ∧
    Inv ((at_ .fcStart (.write .put [0xF7] []) (idle par4)).withTp { (idle par4).tp with writeLock := true }) :=
  ⟨⟨inv_write rfl rfl (by decide) (by decide) ⟨by decide, by decide⟩ rfl (by decide), by decide⟩,
   inv_encode rfl (.inl rfl) rfl (by decide) (by decide) ⟨by decide, by decide⟩ rfl (by decide)⟩
theorem witness_TpWriteCompletes :
    Inv (ready (.tpWrite [3, 4]) (slots [9] [] (hold par4 [] [1, 2]))) ∧
    Ready (.tpWrite [3, 4]) (ready (.tpWrite [3, 4]) (slots [9] [] (hold par4 [] [1, 2]))) ∧
    (slots [9] [] (hold par4 [] [1, 2])).tx.count + [(3 : Byte), 4].length ≤ par4.txCap :=
  ⟨inv_ready rfl rfl (by decide) (by decide), by decide, by decide⟩
/-- The body of TP_READ at each of its positions. -/
theorem witness_TpReadMicroSteps :
    (∀ pos ∈ [ReadPos.mark, .lock, .get, .unlock, .drainMark, .drainLock, .drain, .drainUnlock],
      Running (.tpRead 2) (at_ (.tpRead 2) (.read pos 2 []) (slots [] [9] (hold par4 [7] []))) ∧ readsChannel (.tpRead 2) = true) ∧
    Memory.read (hold par4 [7] []).rx.buf 0 = some 7 ∧ (slots [] [9] (idle par4)).phy.rxq = [9] ∧
    (idle par4).rx.count = 0 ∧ (idle par4).rx.count ≠ par4.rxCap ∧ (hold par1 [7] []).rx.count = par1.rxCap ∧
    (∀ p ∈ [par4, parOpen], Ready (.tpRead 0) (ready (.tpRead 0) (idle p)) ∧ Ready (.tpRead 1) (ready (.tpRead 1) (idle p))) ∧
    Ready (.tpRead 1) (ready (.tpRead 1) (State.resetWith par4)) := by decide
theorem witness_TpReadCompletes :
    Inv (ready (.tpRead 2) (slots [] [9] (hold par4 [1, 2] []))) ∧
    Ready (.tpRead 2) (ready (.tpRead 2) (slots [] [9] (hold par4 [1, 2] []))) ∧ (2 : Half).toNat ≤ (hold par4 [1, 2] []).rx.count :=
  ⟨inv_ready rfl rfl (by decide) (by decide), by decide, by decide⟩
theorem witness_TpReadOfTooMuchFaults :
    Inv (ready (.tpRead 3) (hold par4 [1, 2] [])) ∧ Ready (.tpRead 3) (ready (.tpRead 3) (hold par4 [1, 2] [])) ∧
    (hold par4 [1, 2] []).rx.count < (3 : Half).toNat :=
  ⟨inv_ready rfl rfl (by decide) (by decide), by decide, by decide⟩

/-! ### Handlers and PHY -/

theorem witness_HandlerMicroSteps_dispatch :
    (enabled (pending (idle parOpen)) .dispatchTxc = true ∧ enabled (pending (idle parOpen)) .dispatchRxd = true) ∧
    (enabled ((pending (idle par4)).withTp { (idle par4).tp with writeLock := true, readLock := true }) .dispatchTxc = true ∧
      enabled ((pending (idle par4)).withTp { (idle par4).tp with writeLock := true, readLock := true }) .dispatchRxd = true) := by
  decide
theorem witness_HandlerMicroSteps_dispatch_race :
    (∀ p ∈ [parOpen, parLate],
      p.race = .opened ∧
      enabled ((pending (idle p)).withTp { (idle p).tp with hostInTx := true, hostInRx := true }) .dispatchTxc = true ∧
      enabled ((pending (idle p)).withTp { (idle p).tp with hostInTx := true, hostInRx := true }) .dispatchRxd = true ∧
      (idle p).tp.writeLock = false ∧ (idle p).tp.readLock = false) ∧
    parOpen.raceAt = .dispatch ∧ parLate.raceAt = .access := by decide
theorem witness_HandlerMicroSteps_race :
    parLate.race = .opened ∧ (inTxc parLate).isr = { active := .txc, loopDone := false } ∧
    (∀ b ∈ [false, true], ((inTxc parLate).withTp { (idle parLate).tp with hostInTx := b }).tp.hostInTx = b) ∧
    ((inTxc parLate).withTp { (idle parLate).tp with hostInTx := true }).fault = 0 ∧ par4.race ≠ .opened := by decide
theorem witness_HandlerMicroSteps_running :
    (∀ l ∈ [false, true], ((hold par4 [1] [2]).withIsr { active := .txc, loopDone := l }).isr = { active := .txc, loopDone := l }) ∧
    (hold par4 [1] [2]).fault = 0 ∧ (hold par4 [1] [2]).tx.count ≠ 0 ∧ (hold par4 [1] [2]).phy.txq.length ≠ par4.hwTxDepth ∧
    Memory.read (hold par4 [1] [2]).tx.buf 0 = some 2 ∧ (idle par4).tx.count = 0 ∧ (slots [7] [] (idle par4)).phy.txq.length = par4.hwTxDepth ∧
    (hold par1 [1] []).rx.count = par1.rxCap ∧ (slots [] [7] (hold par4 [1] [])).rx.count ≠ par4.rxCap ∧
    (slots [] [7] (hold par4 [1] [])).phy.rxq = [7] := by decide
theorem witness_EvTxcCompletes :
    Inv (pending (hold par4 [] [1, 2])) ∧ enabled (pending (hold par4 [] [1, 2])) .dispatchTxc = true :=
  ⟨inv_idle rfl rfl (by decide), by decide⟩
theorem witness_EvRxdCompletes :
    Inv (pending (slots [] [9] (hold par4 [1, 2, 3] []))) ∧
    enabled (pending (slots [] [9] (hold par4 [1, 2, 3] []))) .dispatchRxd = true :=
  ⟨inv_idle rfl rfl (by decide), by decide⟩
theorem witness_PhyMicroSteps :
    (slots [1] [] (idle par4)).phy.txq = [1] ∧ ((idle par4).withPhy { Phy.reset with wireIn := [1, 2] }).phy.wireIn = [1, 2] := by
  decide
theorem witness_HandlerAndPhyFrame :
    ∀ m ∈ [Move.isr, .dispatchTxc, .dispatchRxd, .shiftOut, .arrive], (out (perform m
      (if m = .isr then (idle par4).withIsr { active := .rxd, loopDone := false } else pending (slots [1] [2] (idle par4))))).isSome := by
  decide

/-! ### Faults and reset -/

theorem witness_FaultStopsTheBlock :
    ((idle par4).withFault 0x05).fault ≠ 0 ∧ .reset ∉ ((idle par4).withFault 0x05).sched ∧
    (out (step (((idle par4).withFault 0x05).withSched [.reset]))).isSome := by decide
/-- A state in which each code can be raised. -/
theorem witness_FaultCauses :
    (Inv (ready (.rbRead .rx) (idle par4)) ∧ (out (exec (.rbRead .rx) (ready (.rbRead .rx) (idle par4)))).map (·.fault) = some 0x01) ∧
    (Inv (ready (.fcPush 7) (idle par4)) ∧ (out (exec (.fcPush 7) (ready (.fcPush 7) (idle par4)))).map (·.fault) = some 0x02) ∧
    (Inv ((at_ (.tpWrite [1]) (.write .lock [1] []) (inTxc parLate)).withTp { (idle parLate).tp with hostInTx := true }) ∧
      (out (exec .evTxc ((at_ (.tpWrite [1]) (.write .lock [1] []) (inTxc parLate)).withTp
        { (idle parLate).tp with hostInTx := true }))).map (·.fault) = some 0x03) ∧
    (Inv (idle par4) ∧ (out (exec (.rbInit .rx 5) (idle par4))).map (·.fault) = some 0x04) ∧
    (Inv (ready .fcPull (State.resetWith par4)) ∧
      (out (exec .fcPull (ready .fcPull (State.resetWith par4)))).map (·.fault) = some 0x05) :=
  ⟨⟨inv_ready rfl rfl (by decide) (by decide), by decide⟩, ⟨inv_ready rfl rfl (by decide) (by decide), by decide⟩,
   ⟨inv_write rfl rfl (by decide) (by decide) ⟨by decide, by decide⟩ rfl (by decide), by decide⟩,
   ⟨inv_idle rfl rfl (by decide), by decide⟩, inv_ready rfl rfl (by decide) (by decide), by decide⟩
theorem witness_CodecStateChecks :
    Ready .fcStart (ready .fcStart (encoding 0 0 (idle par4))) ∧ Ready (.fcPush 1) (ready (.fcPush 1) (idle par4)) ∧
    Ready .fcFinish (ready .fcFinish (idle par4)) ∧ IsEncode (some .fcFinish) ∧
    Ready .fcFinish (ready .fcFinish (State.resetWith par4)) ∧ IdleHost (idle par4) ∧ (Instr.rbInit .tx 3).accepted par4 = false :=
  ⟨by decide, by decide, by decide, .inr (.inr rfl), by decide, by decide, by decide⟩

/-! ### Wire form -/

theorem witness_EscapingFilter : esc 0xF7 = [0xF6, 0xD7] ∧ esc 0x41 = [0x41] := by decide
theorem witness_WireProperty :
    (encodeFrame [0xF7])[0]? = some 0xF7 ∧ (encodeFrame [0xF7])[7]? = some 0x7F ∧ (encodeFrame [0xF7])[1]? = some 0xF6 := by decide
theorem witness_PullFindsTheFrame : (0xF7 : Byte) ∉ [(0x00 : Byte), 0x41] := by decide
theorem witness_RoundTripAcrossPulls :
    (0xF7 : Byte) ∉ [(0x41 : Byte)] ∧ (0x7F : Byte) ∉ [(0x41 : Byte)] ∧ [(0x02 : Byte), 0x02, 0x7F] ≠ [] ∧
    [[], [(0x41 : Byte), 0xF7], [0x02]].flatten ++ [0x02, 0x02, 0x7F] = [0x41] ++ encodeFrame [0x02] ∧
    [(0x41 : Byte)].length + (encodeFrame [0x02]).length ≤ par4.accCap := by decide
theorem witness_CorruptionDetected :
    (reserved 0x15 = false ∧ (0xF7 : Byte) ≠ 0x15 ∧ (0xF7 : Byte) ≠ 0x7F ∧ (0xF7 : Byte) ≠ 0xF6) ∧
    reserved (fletcher [0x15]).1 = false ∧ reserved (fletcher [0x15]).2 = false ∧ (0x14 : Byte) ≠ (fletcher [0x15]).1 := by decide

/-! ### FrameCodec commands -/

theorem witness_EncodeMicroSteps :
    (Ready .fcStart (ready .fcStart (idle par4)) ∧ (idle par4).fc.encState = .idle) ∧
    (Ready (.fcPush 0xF7) (ready (.fcPush 0xF7) (encoding 3 4 (idle par4))) ∧ esc 0xF7 = 0xF6 :: [0xD7]) ∧
    (Ready .fcFinish (ready .fcFinish (encoding 0xFA 0xFE (idle par4))) ∧ esc 0xFA ++ esc 0xFE ++ [0x7F] = 0xFA :: [0xFE, 0x7F]) ∧
    IsEncode (some .fcStart) ∧ Running .fcStart (at_ .fcStart (.writeEnter [0xF7] []) (idle par4)) ∧
    Running (.fcPush 0xF7) (at_ (.fcPush 0xF7) (.write .kickUnlock [] [0xD7]) (idle par4)) ∧
    Running .fcStart (at_ .fcStart (.write .kickUnlock [] []) (idle par4)) ∧
    Running (.fcPush 7) (at_ (.fcPush 7) (.write .kickUnlock [] []) (idle par4)) ∧
    Running .fcFinish (at_ .fcFinish (.write .kickUnlock [] []) (idle par4)) :=
  ⟨by decide, by decide, by decide, .inl rfl, by decide, by decide, by decide, by decide, by decide⟩
theorem witness_EncodeCommandsComplete :
    (Inv (ready .fcStart (hold par4 [] [1, 2, 3])) ∧ Ready .fcStart (ready .fcStart (hold par4 [] [1, 2, 3])) ∧
      (hold par4 [] [1, 2, 3]).tx.count + [(0xF7 : Byte)].length ≤ par4.txCap) ∧
    (Inv (ready (.fcPush 0xF6) (encoding 1 1 (hold par4 [] [1, 2]))) ∧
      Ready (.fcPush 0xF6) (ready (.fcPush 0xF6) (encoding 1 1 (hold par4 [] [1, 2]))) ∧
      (hold par4 [] [1, 2]).tx.count + (esc 0xF6).length ≤ par4.txCap) ∧
    (Inv (ready .fcFinish (encoding 0xFA 0xFE (hold par4 [] [1]))) ∧
      Ready .fcFinish (ready .fcFinish (encoding 0xFA 0xFE (hold par4 [] [1]))) ∧
      (hold par4 [] [1]).tx.count + (esc 0xFA ++ esc 0xFE ++ [0x7F]).length ≤ par4.txCap) :=
  ⟨⟨inv_ready rfl rfl (by decide) (by decide), by decide, by decide⟩,
   ⟨inv_ready rfl rfl (by decide) (by decide), by decide, by decide⟩,
   inv_ready rfl rfl (by decide) (by decide), by decide, by decide⟩
theorem witness_FrameCommandsWriteTheFrame :
    Inv (idle par4) ∧ IdleHost (idle par4) ∧ (idle par4).tp.lineEn = true ∧ (idle par4).fc.encState = .idle ∧
    (idle par4).tx.count + (encodeFrame []).length ≤ par4.txCap :=
  ⟨inv_idle rfl rfl (by decide), by decide, by decide, by decide, by decide⟩
theorem witness_PullMicroSteps :
    Ready .fcPull (ready .fcPull (hold par4 [1] [])) ∧
    (∀ left ∈ [0, 1], Running .fcPull (at_ .fcPull (.readEnter left) (hold par4 [1] []))) ∧
    Running .fcPull (at_ .fcPull (.read .drainUnlock 0 [1]) (hold par4 [] [])) ∧
    Running .fcPull (at_ .fcPull .decode (acc [0xF7, 1] (idle par4))) ∧ AccOk par4 (acc [0xF7, 1] (idle par4)).fc :=
  ⟨by decide, by decide, by decide, by decide, by decide, by decide, by decide, by decide⟩
theorem witness_FcPullCompletes :
    Inv (ready .fcPull (acc [0xF7, 2] (slots [] [9] (hold par4 [2, 2, 0x7F] [])))) ∧
    Ready .fcPull (ready .fcPull (acc [0xF7, 2] (slots [] [9] (hold par4 [2, 2, 0x7F] [])))) :=
  ⟨inv_ready rfl rfl (by decide) (by decide), by decide⟩
theorem witness_PullReturnsThePayload :
    Inv (ready .fcPull (hold Params.vectors [0x41, 0xF7, 0x02, 0x02, 0x02, 0x7F, 0x09] [])) ∧
    Ready .fcPull (ready .fcPull (hold Params.vectors [0x41, 0xF7, 0x02, 0x02, 0x02, 0x7F, 0x09] [])) ∧
    (0xF7 : Byte) ∉ [(0x41 : Byte)] ∧
    contents 16 (hold Params.vectors [0x41, 0xF7, 0x02, 0x02, 0x02, 0x7F, 0x09] []).rx = [0x41] ++ encodeFrame [0x02] ++ [0x09] :=
  ⟨inv_ready rfl rfl (by decide) (by decide), by decide, by decide, by decide⟩
theorem witness_ChannelFrames :
    (Running .fcPull (ready .fcPull (idle par4)) ∧ (out (exec .fcPull (ready .fcPull (idle par4)))).isSome) ∧
    (Running (.tpWrite [1]) (ready (.tpWrite [1]) (idle par4)) ∧ (out (exec (.tpWrite [1]) (ready (.tpWrite [1]) (idle par4)))).isSome) := by
  decide

/-! ### The whole machine -/

theorem witness_ParametersNeverChange : ∃ t, step ((idle par4).withSched [.reset]) = .next t := ⟨_, rfl⟩
theorem witness_LineEnabledUntilReset :
    (out (step ((pending (idle par4)).withSched [.dispatchTxc]))).isSome ∧ .reset ∉ ((pending (idle par4)).withSched [.dispatchTxc]).sched ∧
    (out (step (ready .tpInit (State.resetWith par4)))).map (·.tp.lineEn) = some true ∧
    (ready .tpInit (State.resetWith par4)).tp.lineEn = false ∧ Ready .tpInit (ready .tpInit (State.resetWith par4)) := by decide
/-- The RingPut of a TP_WRITE body, and a move that leaves the outbound bytes as they are. -/
theorem witness_OutboundConserved :
    (Inv ((at_ (.tpWrite [2]) (.write .put [2] []) (hold par4 [] [1])).withTp { (idle par4).tp with writeLock := true }) ∧
      (out (perform .host ((at_ (.tpWrite [2]) (.write .put [2] []) (hold par4 [] [1])).withTp
        { (idle par4).tp with writeLock := true }))).map outbound = some [1, 2] ∧
      ¬ (Move.host = .host ∧ Direct .tx (some (.tpWrite [2])))) ∧
    (Inv (slots [1] [] (hold par4 [] [2])) ∧ enabled (slots [1] [] (hold par4 [] [2])) .shiftOut = true ∧
      (out (perform .shiftOut (slots [1] [] (hold par4 [] [2])))).map outbound = some [1, 2]) :=
  ⟨⟨inv_write rfl rfl (by decide) (by decide) ⟨by decide, by decide⟩ rfl (by decide), by decide, by simp [Direct]⟩,
   inv_idle rfl rfl (by decide), by decide, by decide⟩
/-- The RingGet of a TP_READ body, an arrival into a slot with room, one into a full slot, and the RingGet that finds `rx`
EMPTY, which leaves the inbound bytes as they are. -/
theorem witness_InboundConserved :
    (Inv ((at_ (.tpRead 1) (.read .get 1 []) (hold par4 [1, 2] [])).withTp { (idle par4).tp with readLock := true }) ∧
      (out (perform .host ((at_ (.tpRead 1) (.read .get 1 []) (hold par4 [1, 2] [])).withTp
        { (idle par4).tp with readLock := true }))).map inbound = some [2] ∧
      ¬ (Move.host = .host ∧ Direct .rx (some (.tpRead 1)))) ∧
    (Inv ((hold par4 [1] []).withPhy { Phy.reset with wireIn := [2] }) ∧
      (out (perform .arrive ((hold par4 [1] []).withPhy { Phy.reset with wireIn := [2] }))).map inbound = some [1, 2]) ∧
    (Inv ((hold par4 [1] []).withPhy { Phy.reset with rxq := [2], wireIn := [3] }) ∧
      (out (perform .arrive ((hold par4 [1] []).withPhy { Phy.reset with rxq := [2], wireIn := [3] }))).map inbound = some [1, 2]) ∧
    (Inv ((at_ (.tpRead 1) (.read .get 1 []) (slots [] [9] (idle par4))).withTp { (idle par4).tp with readLock := true }) ∧
      (out (perform .host ((at_ (.tpRead 1) (.read .get 1 []) (slots [] [9] (idle par4))).withTp
        { (idle par4).tp with readLock := true }))).map inbound = some [9]) :=
  ⟨⟨inv_read rfl rfl (by decide) (by decide) (by decide : 0 < 1) rfl (by decide), by decide, by simp [Direct]⟩,
   ⟨inv_idle rfl rfl (by decide), by decide⟩, ⟨inv_idle rfl rfl (by decide), by decide⟩,
   inv_read rfl rfl (by decide) (by decide) (by decide : 0 < 1) rfl (by decide), by decide⟩
/-- A step into a guarded region of each ring, one to a HOST without a command, one that leaves a handler running, and a
handler's access of each ring. -/
theorem witness_AtMostOneAccessor :
    (Inv (at_ (.tpWrite []) (.write .kickLock [] []) (idle par4)) ∧
      (out (step (at_ (.tpWrite []) (.write .kickLock [] []) (idle par4)))).map (fun t => (t.fault, t.tp.writeLock)) = some (0, true)) ∧
    (Inv (at_ (.tpRead 0) (.read .drainLock 0 []) (idle par4)) ∧
      (out (step (at_ (.tpRead 0) (.read .drainLock 0 []) (idle par4)))).map (fun t => (t.fault, t.tp.readLock)) = some (0, true)) ∧
    (Inv (ready .tpInit (idle par4)) ∧ (out (step (ready .tpInit (idle par4)))).map (fun t => (t.fault, t.host.cmd)) = some (0, none)) ∧
    (Inv ((inTxc par4).withTx (ring 4 0 [1])) ∧
      (out (perform .isr ((inTxc par4).withTx (ring 4 0 [1])))).map (fun t => (t.phy.txq, t.isr.active)) = some ([1], .txc)) ∧
    (Inv ((slots [] [2] (idle par4)).withIsr { active := .rxd, loopDone := false }) ∧
      (out (perform .isr ((slots [] [2] (idle par4)).withIsr { active := .rxd, loopDone := false }))).map (fun t => t.phy.rxq) = some []) :=
  ⟨⟨inv_write rfl rfl (by decide) (by decide) rfl rfl (by decide), by decide⟩,
   ⟨inv_read rfl rfl (by decide) (by decide) rfl rfl (by decide), by decide⟩,
   ⟨inv_ready rfl rfl (by decide) (by decide), by decide⟩, ⟨inv_idle rfl rfl (by decide), by decide⟩,
   inv_idle rfl rfl (by decide), by decide⟩
theorem witness_StepKeepsInv : Inv (slots [1] [] (hold par4 [] [2])) ∧ (out (step (slots [1] [] (hold par4 [] [2])))).isSome :=
  ⟨inv_idle rfl rfl (by decide), by decide⟩
theorem witness_InvNeverStuck :
    Inv ((idle par4).withFault 0x01) ∧ Inv (ready .fcPull (hold par4 [1] [])) ∧ Running .fcPull (ready .fcPull (hold par4 [1] [])) :=
  ⟨inv_idle rfl rfl (by decide), inv_ready rfl rfl (by decide) (by decide), by decide⟩
theorem witness_LongWriteHangs :
    (Inv (ready (.tpWrite [1, 2, 3, 4, 5]) (idle par4)) ∧ Ready (.tpWrite [1, 2, 3, 4, 5]) (ready (.tpWrite [1, 2, 3, 4, 5]) (idle par4)) ∧
      par4.txCap < (idle par4).tx.count + [(1 : Byte), 2, 3, 4, 5].length) ∧
    (Hung (at_ (.tpWrite [1, 2, 3, 4, 5]) (.write .spin [5] []) (hold par4 [] [1, 2, 3, 4])) ∧
      (out (step (at_ (.tpWrite [1, 2, 3, 4, 5]) (.write .spin [5] []) (hold par4 [] [1, 2, 3, 4])))).isSome) :=
  ⟨⟨inv_ready rfl rfl (by decide) (by decide), by decide, by decide⟩,
   ⟨inv_write rfl rfl (by decide) (by decide) (by decide : [(5 : Byte)] ≠ []) rfl (by decide), rfl, ⟨_, _, _, rfl, rfl⟩, by decide,
    by decide, by decide⟩, by decide⟩

end Sys2Proof.Tests
end

section
/-! PROOFS. O52 (R10, R98): no step changes a parameter. `OnNext` says of an outcome what its next state, if it has one, meets;
the frame of a HOST command and the test of the line enable each have one rule for it. The proof then follows the model:
the state updates, the shared bodies, one micro-step of each instruction, the moves, the step. -/

namespace Sys2Proof.Machine

/-! ### What holds of the next state of an outcome -/

/-- The next state of the outcome `r`, if it has one, meets `Q`. -/
def OnNext (Q : State → Prop) (r : Result) : Prop := ∀ t, r = .next t → Q t

@[simp] theorem onNext_next {Q : State → Prop} {t : State} : OnNext Q (.next t) ↔ Q t := by simp [OnNext]
@[simp] theorem onNext_fault {Q : State → Prop} {f : Fault} : OnNext Q (.fault f) := by simp [OnNext]
@[simp] theorem onNext_refused {Q : State → Prop} {f : Refusal} : OnNext Q (.refused f) := by simp [OnNext]
@[simp] theorem onNext_raiseHost {Q : State → Prop} {c : Byte} {s : State} :
    OnNext Q (raiseHost c s) ↔ Q (takeFault .host c s) := onNext_next

/-- A HOST command's micro-step is its acceptance or its body. -/
theorem onNext_hostCommand {Q : State → Prop} {i : Instr} {body : State → Result} {s : State}
    (accept : s.host.cmd = none → Q (acceptCommand i s))
    (run : s.host.cmd = some i → OnNext Q (body s)) : OnNext Q (hostCommand i body s) := by
  rcases hostCommand_cases i body s with ⟨_, h⟩ | ⟨_, _, h⟩ | ⟨_, _, hc, h⟩ | ⟨_, _, hc, h⟩ | ⟨_, _, _, h⟩ <;> rw [h]
  · exact onNext_fault
  · exact onNext_refused
  · exact onNext_next.2 (accept hc)
  · exact run hc
  · exact onNext_refused

/-- A body that requires the line runs, or raises NOT_INIT. -/
theorem onNext_requireLine {Q : State → Prop} {body : State → Result} {s : State}
    (on : s.tp.lineEn = true → OnNext Q (body s))
    (off : s.tp.lineEn = false → Q (takeFault .host codeNotInit s)) : OnNext Q (requireLine body s) := by
  cases h : s.tp.lineEn with
  | true => rw [requireLine_on h]; exact on h
  | false => rw [requireLine_off h]; exact onNext_raiseHost.2 (off h)

/-! ### The parameters after an update of the state -/

@[simp] theorem withSelected_params (r : RingSel) (x : Ring) (s : State) : (withSelected r x s).params = s.params := by
  cases r <;> rfl

@[simp] theorem acceptCommand_params (i : Instr) (s : State) : (acceptCommand i s).params = s.params := by
  unfold acceptCommand
  split <;> simp

@[simp] theorem phyTxPush_params (v : Byte) (s : State) : (phyTxPush v s).params = s.params := by
  unfold phyTxPush
  split <;> simp

theorem phyRxPop_params {s s' : State} {v : Byte} (h : phyRxPop s = some (v, s')) : s'.params = s.params := by
  unfold phyRxPop at h
  split at h
  · cases h
  · cases h; rfl

@[simp] theorem enterHandler_params (h : Handler) (s : State) : (enterHandler h s).params = s.params := rfl
@[simp] theorem exitHandler_params (h : Handler) (s : State) : (exitHandler h s).params = s.params := by cases h <;> rfl
@[simp] theorem endLoop_params (s : State) : (endLoop s).params = s.params := rfl
@[simp] theorem clearTxGuard_params (s : State) : (clearTxGuard s).params = s.params := rfl
@[simp] theorem clearRxGuard_params (s : State) : (clearRxGuard s).params = s.params := rfl
@[simp] theorem setWriteLock_params (s : State) : (setWriteLock s).params = s.params := rfl
@[simp] theorem setReadLock_params (s : State) : (setReadLock s).params = s.params := rfl
@[simp] theorem markTx_params (s : State) : (markTx s).params = s.params := rfl
@[simp] theorem markRx_params (s : State) : (markRx s).params = s.params := rfl
@[simp] theorem pushSums_params (b : Byte) (s : State) : (pushSums b s).params = s.params := rfl
@[simp] theorem applyReset_params (s : State) : (applyReset s).params = s.params := rfl

@[simp] theorem phyShiftOut_params (s : State) : (phyShiftOut s).params = s.params := by
  unfold phyShiftOut
  split <;> rfl

@[simp] theorem phyArrive_params (s : State) : (phyArrive s).params = s.params := by
  unfold phyArrive
  split <;> rfl

/-! ### The shared bodies -/

/-- The next state of the outcome `r`, if it has one, has the parameters `p`. -/
abbrev KeepsParams (p : Params) (r : Result) : Prop := OnNext (fun t => t.params = p) r

theorem moveTxToPhy_keepsParams (w : Agent) (s : State) : KeepsParams s.params (moveTxToPhy w s) := by
  unfold moveTxToPhy
  split <;> simp

theorem movePhyToRx_keepsParams (w : Agent) (s : State) : KeepsParams s.params (movePhyToRx w s) := by
  unfold movePhyToRx
  split
  · simp
  · rename_i hp
    simp [phyRxPop_params hp]

theorem hostCommand_keepsParams {i : Instr} {body : State → Result} {s : State}
    (h : KeepsParams s.params (body s)) : KeepsParams s.params (hostCommand i body s) :=
  onNext_hostCommand (fun _ => acceptCommand_params i s) fun _ => h

theorem requireLine_keepsParams {body : State → Result} {s : State} (h : KeepsParams s.params (body s)) :
    KeepsParams s.params (requireLine body s) :=
  onNext_requireLine (fun _ => h) fun _ => takeFault_params _ _ s

theorem requireEnc_keepsParams {e : EncState} {body : State → Result} {s : State} (h : KeepsParams s.params (body s)) :
    KeepsParams s.params (requireEnc e body s) := by
  unfold requireEnc
  split
  · exact h
  · simp

section WriteBody

variable {done : State → Result} (hdone : ∀ u, KeepsParams u.params (done u))
include hdone

theorem endWrite_keepsParams (later : List Byte) (s : State) : KeepsParams s.params (endWrite done later s) := by
  cases later with
  | nil => exact hdone s
  | cons b rest => simp [endWrite]

theorem writeAt_keepsParams (pos : WritePos) (todo later : List Byte) (s : State) :
    KeepsParams s.params (writeAt done pos todo later s) := by
  cases pos with
  | spin => simp only [writeAt]; split <;> simp
  | put => cases todo <;> simp [writeAt]
  | kick =>
    simp only [writeAt]
    split
    · simp
    · exact moveTxToPhy_keepsParams .host s
  | kickUnlock => exact endWrite_keepsParams hdone later (clearTxGuard s)
  | mark | lock | unlock | kickMark | kickLock => simp [writeAt]

theorem enterWrite_keepsParams (todo later : List Byte) (s : State) :
    KeepsParams s.params (enterWrite done todo later s) :=
  requireLine_keepsParams (writeAt_keepsParams hdone _ todo later s)

/-- A micro-step of an encode command: its own first one, or one of its ChanWrite's. -/
theorem chanMicro_keepsParams {first : State → Result} {s : State} (hfirst : KeepsParams s.params (first s)) :
    KeepsParams s.params (chanMicro first done s) := by
  unfold chanMicro
  split
  · exact hfirst
  · exact enterWrite_keepsParams hdone _ _ s
  · exact writeAt_keepsParams hdone _ _ _ s
  all_goals exact onNext_refused

end WriteBody

section ReadBody

variable {done : List Byte → State → Result} (hdone : ∀ out u, KeepsParams u.params (done out u))
include hdone

theorem readAt_keepsParams (pos : ReadPos) (left : Nat) (out : List Byte) (s : State) :
    KeepsParams s.params (readAt done pos left out s) := by
  cases pos with
  | get => simp only [readAt]; split <;> simp
  | drain =>
    simp only [readAt]
    split
    · simp
    · exact movePhyToRx_keepsParams .host s
  | drainUnlock => exact hdone out (clearRxGuard s)
  | mark | lock | unlock | drainMark | drainLock => simp [readAt]

theorem enterRead_keepsParams (left : Nat) (s : State) : KeepsParams s.params (enterRead done left s) :=
  requireLine_keepsParams (readAt_keepsParams hdone _ left [] s)

end ReadBody

theorem chanWrite_keepsParams (bytes : List Byte) (s : State) : KeepsParams s.params (chanWrite bytes s) := by
  cases bytes <;> simp [chanWrite]

theorem fcPullDecode_keepsParams (s : State) : KeepsParams s.params (fcPullDecode s) := by
  unfold fcPullDecode
  split <;> simp

/-! ### The handlers -/

theorem dispatchHandler_keepsParams (h : Handler) (guard hidden : Bool) (s : State) :
    KeepsParams s.params (dispatchHandler h guard hidden s) := by
  rcases dispatchHandler_cases h guard hidden s with ⟨_, e⟩ | ⟨_, _, _, _, e⟩ | ⟨_, _, e⟩ <;> simp [e]

theorem ringAccess_keepsParams {hidden : Bool} {access : State → Result} {s : State}
    (h : KeepsParams s.params (access s)) : KeepsParams s.params (ringAccess hidden access s) := by
  rcases ringAccess_cases hidden access s with ⟨_, _, e⟩ | ⟨_, e⟩ <;> rw [e]
  · simp
  · exact h

theorem txcDrain_keepsParams (s : State) : KeepsParams s.params (txcDrain s) := by
  unfold txcDrain
  split
  · simp
  · exact moveTxToPhy_keepsParams .isr s

theorem rxdDrain_keepsParams (s : State) : KeepsParams s.params (rxdDrain s) := by
  unfold rxdDrain
  split
  · simp
  · exact movePhyToRx_keepsParams .isr s

theorem txcMicro_keepsParams (s : State) : KeepsParams s.params (txcMicro s) := by
  unfold txcMicro
  split
  · simp
  · exact ringAccess_keepsParams (txcDrain_keepsParams s)

theorem rxdMicro_keepsParams (s : State) : KeepsParams s.params (rxdMicro s) := by
  unfold rxdMicro
  split
  · simp
  · exact ringAccess_keepsParams (rxdDrain_keepsParams s)

theorem execEvTxc_keepsParams (s : State) : KeepsParams s.params (execEvTxc s) := by
  unfold execEvTxc
  split
  · exact onNext_fault
  · cases s.isr.active with
    | none =>
      dsimp only
      split
      · exact dispatchHandler_keepsParams _ _ _ s
      · exact onNext_refused
    | txc => exact txcMicro_keepsParams s
    | rxd => exact onNext_refused

theorem execEvRxd_keepsParams (s : State) : KeepsParams s.params (execEvRxd s) := by
  unfold execEvRxd
  split
  · exact onNext_fault
  · cases s.isr.active with
    | none =>
      dsimp only
      split
      · exact dispatchHandler_keepsParams _ _ _ s
      · exact onNext_refused
    | rxd => exact rxdMicro_keepsParams s
    | txc => exact onNext_refused

/-! ### The commands -/

theorem execRbRead_keepsParams (r : RingSel) (s : State) : KeepsParams s.params (execRbRead r s) := by
  refine hostCommand_keepsParams ?_
  split <;> simp

theorem execTpWrite_keepsParams (bytes : List Byte) (s : State) : KeepsParams s.params (execTpWrite bytes s) := by
  have hdone : ∀ u, KeepsParams u.params (tpWriteDone bytes u) := by simp [tpWriteDone]
  refine hostCommand_keepsParams ?_
  split
  · exact enterWrite_keepsParams hdone _ _ s
  · exact writeAt_keepsParams hdone _ _ _ s
  all_goals exact onNext_refused

theorem execTpRead_keepsParams (n : Half) (s : State) : KeepsParams s.params (execTpRead n s) := by
  have hdone : ∀ out u, KeepsParams u.params (tpReadDone n out u) := by simp [tpReadDone]
  refine hostCommand_keepsParams ?_
  split
  · exact enterRead_keepsParams hdone _ s
  · exact readAt_keepsParams hdone _ _ _ s
  all_goals exact onNext_refused

theorem execFcStart_keepsParams (s : State) : KeepsParams s.params (execFcStart s) :=
  hostCommand_keepsParams (chanMicro_keepsParams (by simp [fcStartDone])
    (requireLine_keepsParams (requireEnc_keepsParams (chanWrite_keepsParams _ s))))

theorem execFcPush_keepsParams (b : Byte) (s : State) : KeepsParams s.params (execFcPush b s) :=
  hostCommand_keepsParams (chanMicro_keepsParams (by simp [fcPushDone])
    (requireLine_keepsParams (requireEnc_keepsParams (chanWrite_keepsParams _ (pushSums b s)))))

theorem execFcFinish_keepsParams (s : State) : KeepsParams s.params (execFcFinish s) :=
  hostCommand_keepsParams (chanMicro_keepsParams (by simp [fcFinishDone])
    (requireLine_keepsParams (requireEnc_keepsParams (chanWrite_keepsParams _ s))))

theorem execFcPull_keepsParams (s : State) : KeepsParams s.params (execFcPull s) := by
  have hdone : ∀ out u, KeepsParams u.params (fcPullIngest out u) := by simp [fcPullIngest]
  refine hostCommand_keepsParams ?_
  split
  · exact requireLine_keepsParams (by simp)
  · exact enterRead_keepsParams hdone _ s
  · exact readAt_keepsParams hdone _ _ _ s
  · exact fcPullDecode_keepsParams s
  all_goals exact onNext_refused

/-- No micro-step of an instruction changes a parameter (R10). -/
theorem exec_keepsParams (i : Instr) (s : State) : KeepsParams s.params (exec i s) := by
  cases i with
  | rbInit | rbWrite | rbStatus | rbOcc | rbFree | tpInit =>
    simp only [exec, execRbInit, execRbWrite, execRbStatus, execRbOcc, execRbFree, execTpInit]
    refine hostCommand_keepsParams ?_
    simp
  | tpReadable | tpWriteable =>
    refine hostCommand_keepsParams (requireLine_keepsParams ?_)
    simp
  | rbRead r => exact execRbRead_keepsParams r s
  | tpWrite bytes => exact execTpWrite_keepsParams bytes s
  | tpRead n => exact execTpRead_keepsParams n s
  | fcStart => exact execFcStart_keepsParams s
  | fcPush b => exact execFcPush_keepsParams b s
  | fcFinish => exact execFcFinish_keepsParams s
  | fcPull => exact execFcPull_keepsParams s
  | evTxc => exact execEvTxc_keepsParams s
  | evRxd => exact execEvRxd_keepsParams s

/-! ### The moves and the step -/

theorem acceptNext_keepsParams (s : State) : KeepsParams s.params (acceptNext s) := by
  unfold acceptNext
  split
  · exact onNext_refused
  · split
    · exact exec_keepsParams _ (s.withHost _)
    · exact onNext_refused
    · simp

theorem hostMove_keepsParams (s : State) : KeepsParams s.params (hostMove s) := by
  unfold hostMove
  split
  · exact exec_keepsParams _ s
  · exact acceptNext_keepsParams s

theorem isrMove_keepsParams (s : State) : KeepsParams s.params (isrMove s) := by
  unfold isrMove
  split
  · exact onNext_refused
  · exact exec_keepsParams .evTxc s
  · exact exec_keepsParams .evRxd s

theorem perform_keepsParams (m : Move) (s : State) : KeepsParams s.params (perform m s) := by
  cases m with
  | host => exact hostMove_keepsParams s
  | dispatchTxc => exact exec_keepsParams .evTxc s
  | dispatchRxd => exact exec_keepsParams .evRxd s
  | isr => exact isrMove_keepsParams s
  | shiftOut | arrive | reset => simp [perform]

theorem rest_keepsParams (s : State) : KeepsParams s.params (rest s) := by
  unfold rest
  split <;> simp

/-- The choice of the move touches the schedule alone, and no move, reset included, changes a parameter. -/
theorem step_keepsParams (s : State) : KeepsParams s.params (step s) := by
  rcases step_cases s with ⟨m, q, k, _, h⟩ | ⟨_, h⟩ <;> rw [h]
  · exact perform_keepsParams m ((s.withSched q).withTick k)
  · exact rest_keepsParams s

/-- Settles O52: the parameters are kept by every move, and the choice of the move does not touch them. -/
theorem parametersNeverChange : Obligations.ParametersNeverChange :=
  fun s t h => step_keepsParams s t h

end Sys2Proof.Machine
end

section
/-! PROOFS. The data clauses of the invariant under the operations: the ring invariant of R23 under the ring primitives, and
the accumulation buffer (R33, R34) under the ingest and Steps 2 to 6 of FC_PULL. -/

namespace Sys2Proof.Safety

open Sys2Proof.Machine

/-! ### Rings (R23) -/

/-- A reset ring is EMPTY, so only the shape of its backing array matters. -/
theorem ringOk_ringReset {cap : Nat} {r : Ring} (canonical : Memory.wf r.buf) (inside : ∀ c ∈ r.buf, c.1 < cap)
    (hcap : 0 < cap) : RingOk cap (ringReset r) where
  canonical := canonical
  inside := inside
  head_lt := hcap
  count_le := Nat.zero_le cap
  tail_eq := (Nat.zero_mod cap).symm
  written := fun k hk => absurd hk (Nat.not_lt_zero k)

theorem RingOk.cap_pos {cap : Nat} {r : Ring} (h : RingOk cap r) : 0 < cap := Nat.zero_lt_of_lt h.head_lt

theorem RingOk.reset {cap : Nat} {r : Ring} (h : RingOk cap r) : RingOk cap (ringReset r) :=
  ringOk_ringReset h.canonical h.inside h.cap_pos

/-- RingPut writes the cell after the occupied ones, or changes nothing. -/
theorem RingOk.put {cap : Nat} {r : Ring} (h : RingOk cap r) (v : Byte) : RingOk cap (ringPut cap r v).1 := by
  by_cases hfull : r.count = cap
  · rwa [ringPut_full v hfull]
  · rw [ringPut_room v hfull]
    refine ⟨Memory.wf_write _ _ _ h.canonical, ?_, h.head_lt, ?_, ?_, ?_⟩
    · intro c hc
      rcases Memory.mem_write _ _ _ c hc with heq | hmem
      · rw [heq, h.tail_eq]
        exact Nat.mod_lt _ h.cap_pos
      · exact h.inside c hmem
    · exact Nat.lt_of_le_of_ne h.count_le hfull
    · rw [h.tail_eq, Nat.mod_add_mod, Nat.add_assoc]
    · intro k hk
      rw [Memory.read_write]
      split
      · rfl
      · rename_i hne
        have hlast : k ≠ r.count := fun e => hne (by rw [e, h.tail_eq])
        exact h.written k (by simp only at hk; omega)

/-- RingGet of a ring that is not EMPTY takes the oldest byte: its cell holds a value. -/
theorem RingOk.get {cap : Nat} {r : Ring} (h : RingOk cap r) (hc : r.count ≠ 0) :
    ∃ v q, ringGet cap r = .byte v q ∧ RingOk cap q ∧ q.count + 1 = r.count := by
  have hfirst := h.written 0 (Nat.pos_of_ne_zero hc)
  rw [Nat.add_zero, Nat.mod_eq_of_lt h.head_lt] at hfirst
  obtain ⟨v, hv⟩ := Option.isSome_iff_exists.1 hfirst
  refine ⟨v, _, ringGet_byte hc hv, ⟨h.canonical, h.inside, Nat.mod_lt _ h.cap_pos, ?_, ?_, ?_⟩, ?_⟩
  · exact (Nat.sub_le _ _).trans h.count_le
  · simp only
    rw [Nat.mod_add_mod, h.tail_eq]
    congr 1
    omega
  · intro k hk
    have hnext := h.written (k + 1) (by simp only at hk; omega)
    rwa [show r.head + (k + 1) = r.head + 1 + k by omega, ← Nat.mod_add_mod] at hnext
  · exact Nat.sub_add_cancel (Nat.pos_of_ne_zero hc)

theorem count_le_ringPut (cap : Nat) (r : Ring) (v : Byte) : r.count ≤ (ringPut cap r v).1.count := by
  by_cases hfull : r.count = cap
  · rw [ringPut_full v hfull]
  · rw [ringPut_room v hfull]
    exact Nat.le_succ _

/-! ### The accumulation buffer (R33, R34) -/

/-- The populated part is empty or begins with START (R34). -/
def BeginsFrame (c : Codec) : Prop := c.fill = 0 ∨ Memory.read c.acc 0 = some START

/-- Bytes written from a populated offset on, with `fill` their end, populate the buffer up to that end. -/
theorem AccOk.write {p : Params} {c : Codec} (h : AccOk p c) {k : Nat} {bs : List Byte} (hk : k ≤ c.fill)
    (hle : k + bs.length ≤ p.accCap) :
    AccOk p { c with acc := Memory.writeList c.acc k bs, fill := k + bs.length } where
  canonical := Memory.wf_writeList bs c.acc k h.canonical
  inside := by
    intro x hx
    rcases Memory.mem_writeList bs c.acc k x hx with ⟨_, hlt⟩ | hmem
    · omega
    · exact h.inside x hmem
  fill_le := hle
  written := by
    intro j hj
    rw [Memory.read_writeList]
    split
    · simp only at hj
      rw [List.getElem?_eq_getElem (by omega)]
      rfl
    · exact h.written j (by simp only at hj; omega)

theorem AccOk.moved {p : Params} {c : Codec} (h : AccOk p c) {bs : List Byte} (hle : bs.length ≤ p.accCap) :
    AccOk p (accMoved bs c) := by
  have hw := h.write (k := 0) (bs := bs) (Nat.zero_le _) (by omega)
  rwa [Nat.zero_add] at hw

theorem AccOk.cleared {p : Params} {c : Codec} (h : AccOk p c) : AccOk p (accCleared c) where
  canonical := h.canonical
  inside := h.inside
  fill_le := Nat.zero_le _
  written := fun k hk => absurd hk (Nat.not_lt_zero k)

theorem beginsFrame_accCleared (c : Codec) : BeginsFrame (accCleared c) := .inl rfl

theorem beginsFrame_accMoved_start (bs : List Byte) (c : Codec) : BeginsFrame (accMoved (START :: bs) c) :=
  .inr (by simp [accMoved, Memory.read_writeList])

theorem length_fromStart_le (bs : List Byte) : (fromStart bs).length ≤ bs.length :=
  (List.dropWhile_suffix _).length_le

theorem head_fromStart {bs body : List Byte} {b : Byte} (h : fromStart bs = b :: body) : b = START := by
  have hhead := List.head?_dropWhile_not (fun x => x != START) bs
  rw [show List.dropWhile (fun x => x != START) bs = b :: body from h] at hhead
  simpa using hhead

/-- The bytes kept by a search for START: none, or a frame's beginning. -/
theorem fromStart_cases (bs : List Byte) :
    fromStart bs = [] ∨ ∃ body, fromStart bs = START :: body ∧ body.length + 1 ≤ bs.length := by
  cases h : fromStart bs with
  | nil => exact .inl rfl
  | cons b body =>
    have hlen := length_fromStart_le bs
    rw [h] at hlen
    exact .inr ⟨body, by rw [head_fromStart h], hlen⟩

/-- Step 6 leaves a buffer that is empty or begins with START (R161). -/
theorem retire_ok {p : Params} {c : Codec} {rest : List Byte} (h : AccOk p c) (hle : rest.length ≤ p.accCap) :
    AccOk p (retire rest c) ∧ BeginsFrame (retire rest c) := by
  unfold retire
  rcases fromStart_cases rest with e | ⟨body, e, hbody⟩ <;> rw [e]
  · exact ⟨h.cleared, beginsFrame_accCleared c⟩
  · exact ⟨h.moved (hbody.trans hle), beginsFrame_accMoved_start body c⟩

/-- Steps 3 to 6 keep a buffer that begins with START, flush it or retire its first frame (R158 to R161). -/
theorem stepsFromStart_ok {p : Params} {c : Codec} {body : List Byte} (h : AccOk p c) (hb : BeginsFrame c)
    (hle : body.length ≤ p.accCap) :
    AccOk p (stepsFromStart p body c).2 ∧ BeginsFrame (stepsFromStart p body c).2 := by
  have hend : (fromEnd body).length ≤ body.length := (List.dropWhile_suffix _).length_le
  unfold stepsFromStart
  cases e : fromEnd body with
  | nil =>
    dsimp only
    split
    · exact ⟨h.cleared, beginsFrame_accCleared c⟩
    · exact ⟨h, hb⟩
  | cons b rest =>
    rw [e, List.length_cons] at hend
    exact retire_ok h (by omega)

/-- Steps 2 to 6 leave a buffer that is empty or begins with START (R157 to R161). -/
theorem stepsTwoToSix_ok {p : Params} {c : Codec} {bs : List Byte} (h : AccOk p c) (hle : bs.length ≤ p.accCap) :
    AccOk p (stepsTwoToSix p bs c).2 ∧ BeginsFrame (stepsTwoToSix p bs c).2 := by
  unfold stepsTwoToSix
  rcases fromStart_cases bs with e | ⟨body, e, hbody⟩ <;> rw [e]
  · exact ⟨h.cleared, beginsFrame_accCleared c⟩
  · exact stepsFromStart_ok (h.moved (hbody.trans hle)) (beginsFrame_accMoved_start body c) (by omega)

/-- Every populated cell holds a value, so FC_PULL can read the populated part (R33). -/
theorem AccOk.read {p : Params} {c : Codec} (h : AccOk p c) :
    ∃ bs, Memory.readList c.acc 0 c.fill = some bs ∧ bs.length ≤ p.accCap := by
  obtain ⟨bs, hbs⟩ := Memory.readList_isSome c.acc 0 c.fill fun i hi => by rw [Nat.zero_add]; exact h.written i hi
  exact ⟨bs, hbs, ((Memory.readList_eq_some _ _ _ _).1 hbs).1.trans_le h.fill_le⟩

end Sys2Proof.Safety
end

section
/-! PROOFS. O32, O11, O33: what a handler and the PHY can do, and what they leave unchanged. `HandlerStep` says once what a
micro-step of either handler does (R130, R132); every claim about the handlers is read off its cases. -/

namespace Sys2Proof.Safety

open Sys2Proof.Machine

/-! ### A stopped block (R175) -/

/-- Every command runs in the frame of a HOST command's micro-step. -/
theorem exec_eq_hostCommand {i : Instr} (h : i.isCommand = true) : ∃ body, ∀ s, exec i s = hostCommand i body s := by
  cases i with
  | evTxc | evRxd => cases h
  | _ => exact ⟨_, fun _ => rfl⟩

theorem exec_stopped {i : Instr} {s : State} (hf : s.fault ≠ 0) : exec i s = .fault (.blockStopped s.fault) := by
  cases hi : i.isCommand with
  | true =>
    obtain ⟨body, hbody⟩ := exec_eq_hostCommand hi
    rw [hbody, hostCommand, if_pos hf]
  | false =>
    cases i with
    | evTxc | evRxd => exact if_pos hf
    | _ => cases hi

/-! ### One micro-step of a handler (R130, R132) -/

/-- The advisory guard over the handler's ring. -/
def guardOf : Handler → Transport → Bool
  | .none, _ => false
  | .txc, tp => tp.writeLock
  | .rxd, tp => tp.readLock

/-- The hidden race flag over the handler's ring. -/
def hiddenOf : Handler → Transport → Bool
  | .none, _ => false
  | .txc, tp => tp.hostInTx
  | .rxd, tp => tp.hostInRx

/-- The handler `h` may touch its ring without RING_RACE (R65). -/
def AccessFree (h : Handler) (s : State) : Prop := ¬ (s.params.race = .opened ∧ hiddenOf h s.tp = true)

/-- Everything a micro-step of the handler `h` can do: its dispatch, an iteration of its loop or its end, the exit. -/
inductive HandlerStep (h : Handler) (s : State) : State → Prop
  | skip (idle : s.isr.active = .none) (line : s.tp.lineEn = true) (held : guardOf h s.tp = true) :
      HandlerStep h s (exitHandler h (enterHandler h s))
  | dispatchRace (idle : s.isr.active = .none) (line : s.tp.lineEn = true) (race : s.params.race = .opened) :
      HandlerStep h s (takeFault .isr codeRingRace (enterHandler h s))
  | enter (idle : s.isr.active = .none) (line : s.tp.lineEn = true) (clear : guardOf h s.tp = false)
      (free : s.params.raceAt = .dispatch → AccessFree h s) : HandlerStep h s (enterHandler h s)
  | exit (running : s.isr.active = h) : HandlerStep h s (exitHandler h s)
  | accessRace (running : s.isr.active = h) (race : s.params.race = .opened) :
      HandlerStep h s (takeFault .isr codeRingRace s)
  | finish (running : s.isr.active = h) (free : AccessFree h s) : HandlerStep h s (endLoop s)
  | moveOut (v : Byte) (r : Ring) (hh : h = .txc) (running : s.isr.active = h) (free : AccessFree h s)
      (room : phyTxFull s = false) (got : ringGet s.params.txCap s.tx = .byte v r) :
      HandlerStep h s ((s.withTx r).withPhy { s.phy with txq := s.phy.txq ++ [v] })
  | moveIn (v : Byte) (rest : List Byte) (hh : h = .rxd) (running : s.isr.active = h) (free : AccessFree h s)
      (slot : s.phy.rxq = v :: rest) :
      HandlerStep h s ((s.withPhy { s.phy with rxq := rest }).withRx (ringPut s.params.rxCap s.rx v).1)

theorem dispatchHandler_step {h : Handler} {s : State} (idle : s.isr.active = .none) (line : s.tp.lineEn = true) :
    OnNext (HandlerStep h s) (dispatchHandler h (guardOf h s.tp) (hiddenOf h s.tp) s) := by
  rcases dispatchHandler_cases h (guardOf h s.tp) (hiddenOf h s.tp) s with
    ⟨held, e⟩ | ⟨_, race, _, _, e⟩ | ⟨clear, free, e⟩ <;> rw [e, onNext_next]
  · exact .skip idle line held
  · exact .dispatchRace idle line race
  · exact .enter idle line clear fun hr hrace => free ⟨hrace.1, hrace.2, hr⟩

theorem ringAccess_step {h : Handler} {s : State} {access : State → Result} (running : s.isr.active = h)
    (free : AccessFree h s → OnNext (HandlerStep h s) (access s)) :
    OnNext (HandlerStep h s) (ringAccess (hiddenOf h s.tp) access s) := by
  rcases ringAccess_cases (hiddenOf h s.tp) access s with ⟨race, _, e⟩ | ⟨hfree, e⟩ <;> rw [e]
  · exact onNext_next.2 (.accessRace running race)
  · exact free hfree

/-- The move out of a ring that is not EMPTY into a slot with room. -/
theorem moveTxToPhy_of_byte (w : Agent) {s : State} {v : Byte} {r : Ring} (room : phyTxFull s = false)
    (got : ringGet s.params.txCap s.tx = .byte v r) :
    moveTxToPhy w s = .next ((s.withTx r).withPhy { s.phy with txq := s.phy.txq ++ [v] }) := by
  rw [moveTxToPhy, got]
  exact congrArg Host.Outcome.next (phyTxPush_room (s := s.withTx r) room)

theorem txcDrain_step {s : State} (running : s.isr.active = .txc) (free : AccessFree .txc s) :
    OnNext (HandlerStep .txc s) (txcDrain s) := by
  unfold txcDrain
  split
  · exact onNext_next.2 (.finish running free)
  · rename_i hgo
    obtain ⟨hne, room⟩ : s.tx.count ≠ 0 ∧ phyTxFull s = false := by simpa [ringEmpty] using hgo
    rcases ringGet_cases s.params.txCap s.tx with ⟨h0, _⟩ | ⟨_, _, got⟩ | ⟨v, _, _, got⟩
    · exact absurd h0 hne
    · simp [moveTxToPhy, got]
    · rw [moveTxToPhy_of_byte .isr room got]
      exact onNext_next.2 (.moveOut v _ rfl running free room got)

/-- A drain of the receive slot that goes on finds a byte there. -/
theorem exists_slot_of_drain {s : State} (hgo : ¬ (ringFull s.params.rxCap s.rx || !phyRxAvail s) = true) :
    ∃ v rest, s.phy.rxq = v :: rest := by
  rw [Bool.or_eq_true, not_or] at hgo
  exact List.exists_cons_of_ne_nil ((phyRxAvail_iff s).1 (by simpa using hgo.2))

theorem rxdDrain_step {s : State} (running : s.isr.active = .rxd) (free : AccessFree .rxd s) :
    OnNext (HandlerStep .rxd s) (rxdDrain s) := by
  unfold rxdDrain
  split
  · exact onNext_next.2 (.finish running free)
  · rename_i hgo
    obtain ⟨v, rest, slot⟩ := exists_slot_of_drain hgo
    rw [movePhyToRx_cons .isr slot]
    exact onNext_next.2 (.moveIn v rest rfl running free slot)

theorem txcMicro_step {s : State} (running : s.isr.active = .txc) : OnNext (HandlerStep .txc s) (txcMicro s) := by
  unfold txcMicro
  split
  · exact onNext_next.2 (.exit running)
  · exact ringAccess_step running (txcDrain_step running)

theorem rxdMicro_step {s : State} (running : s.isr.active = .rxd) : OnNext (HandlerStep .rxd s) (rxdMicro s) := by
  unfold rxdMicro
  split
  · exact onNext_next.2 (.exit running)
  · exact ringAccess_step running (rxdDrain_step running)

theorem line_of_txcWaiting {s : State} (h : txcWaiting s = true) : s.tp.lineEn = true := by
  simp only [txcWaiting, Bool.and_eq_true] at h
  exact h.1.1

theorem line_of_rxdWaiting {s : State} (h : rxdWaiting s = true) : s.tp.lineEn = true := by
  simp only [rxdWaiting, Bool.and_eq_true] at h
  exact h.1.1

/-- Every micro-step of EV_TXC, from every state. -/
theorem exec_evTxc_step {s t : State} (h : exec .evTxc s = .next t) : s.fault = 0 ∧ HandlerStep .txc s t := by
  by_cases hf : s.fault = 0
  · refine ⟨hf, ?_⟩
    cases ha : s.isr.active with
    | none =>
      cases hw : txcWaiting s with
      | true =>
        rw [exec_evTxc_dispatch ⟨hf, ha⟩ hw] at h
        exact dispatchHandler_step ha (line_of_txcWaiting hw) t h
      | false => simp [exec, execEvTxc, hf, ha, hw] at h
    | txc =>
      rw [exec_evTxc_running hf ha] at h
      exact txcMicro_step ha t h
    | rxd => simp [exec, execEvTxc, hf, ha] at h
  · rw [exec_stopped hf] at h
    cases h

/-- Every micro-step of EV_RXD, from every state. -/
theorem exec_evRxd_step {s t : State} (h : exec .evRxd s = .next t) : s.fault = 0 ∧ HandlerStep .rxd s t := by
  by_cases hf : s.fault = 0
  · refine ⟨hf, ?_⟩
    cases ha : s.isr.active with
    | none =>
      cases hw : rxdWaiting s with
      | true =>
        rw [exec_evRxd_dispatch ⟨hf, ha⟩ hw] at h
        exact dispatchHandler_step ha (line_of_rxdWaiting hw) t h
      | false => simp [exec, execEvRxd, hf, ha, hw] at h
    | rxd =>
      rw [exec_evRxd_running hf ha] at h
      exact rxdMicro_step ha t h
    | txc => simp [exec, execEvRxd, hf, ha] at h
  · rw [exec_stopped hf] at h
    cases h

/-- A dispatch or a handler's next micro-step is a micro-step of one of the two handlers. -/
theorem perform_handler_step {s t : State} {m : Move} (hm : m ∈ [.isr, .dispatchTxc, .dispatchRxd])
    (h : perform m s = .next t) : s.fault = 0 ∧ (HandlerStep .txc s t ∨ HandlerStep .rxd s t) := by
  have txc (e : exec .evTxc s = .next t) : s.fault = 0 ∧ (HandlerStep .txc s t ∨ HandlerStep .rxd s t) :=
    (exec_evTxc_step e).imp_right .inl
  have rxd (e : exec .evRxd s = .next t) : s.fault = 0 ∧ (HandlerStep .txc s t ∨ HandlerStep .rxd s t) :=
    (exec_evRxd_step e).imp_right .inr
  simp only [List.mem_cons, List.not_mem_nil, or_false] at hm
  rcases hm with rfl | rfl | rfl
  · simp only [perform, isrMove] at h
    split at h
    · cases h
    · exact txc h
    · exact rxd h
  · exact txc h
  · exact rxd h

/-! ### The frame of a handler and of the PHY (R39, R71, R135) -/

/-- The receive side: `rx`, the receive slot, its pending bit and the line environment. -/
def ReceiveSideKept (s t : State) : Prop :=
  t.rx = s.rx ∧ t.phy.rxq = s.phy.rxq ∧ t.phy.rxPending = s.phy.rxPending ∧ t.phy.wireIn = s.phy.wireIn

/-- The transmit side: `tx`, the transmit slot, its pending bit and the line. -/
def TransmitSideKept (s t : State) : Prop :=
  t.tx = s.tx ∧ t.phy.txq = s.phy.txq ∧ t.phy.txPending = s.phy.txPending ∧ t.phy.wireOut = s.phy.wireOut

/-- What a handler or the PHY leaves unchanged. -/
structure AgentFrame (s t : State) : Prop where
  params : t.params = s.params
  host : t.host = s.host
  fc : t.fc = s.fc
  tp : t.tp = s.tp
  sched : t.sched = s.sched
  tick : t.tick = s.tick
  tx_le : t.tx.count ≤ s.tx.count
  rx_le : s.rx.count ≤ t.rx.count
  fault : t.fault = s.fault ∨ (t.fault = codeRingRace ∧ s.params.race = .opened)
  side : ReceiveSideKept s t ∨ TransmitSideKept s t

theorem count_le_of_ringGet {cap : Nat} {r q : Ring} {v : Byte} (h : ringGet cap r = .byte v q) : q.count ≤ r.count := by
  rcases ringGet_cases cap r with ⟨_, e⟩ | ⟨_, _, e⟩ | ⟨_, _, _, e⟩ <;> rw [e] at h
  · cases h
  · cases h
  · obtain ⟨_, rfl⟩ := GetResult.byte.inj h
    exact Nat.sub_le _ _

theorem AgentFrame.refl (s : State) : AgentFrame s s :=
  ⟨rfl, rfl, rfl, rfl, rfl, rfl, le_rfl, le_rfl, .inl rfl, .inl ⟨rfl, rfl, rfl, rfl⟩⟩

/-- The exit undoes the entry: nothing was saved (R179). -/
theorem exitHandler_enterHandler (h : Handler) (s : State) : exitHandler h (enterHandler h s) = exitHandler h s := by
  cases h <;> rfl

/-- The exit clears the pending bit of its own side (R176). -/
theorem exitHandler_frame (h : Handler) (s : State) : AgentFrame s (exitHandler h s) := by
  cases h with
  | none | txc => exact { AgentFrame.refl s with side := .inl ⟨rfl, rfl, rfl, rfl⟩ }
  | rxd => exact { AgentFrame.refl s with side := .inr ⟨rfl, rfl, rfl, rfl⟩ }

theorem HandlerStep.frame {h : Handler} {s t : State} (step : HandlerStep h s t) : AgentFrame s t := by
  cases step with
  | skip => rw [exitHandler_enterHandler]; exact exitHandler_frame h s
  | exit => exact exitHandler_frame h s
  | enter | finish => exact { AgentFrame.refl s with }
  | dispatchRace _ _ race | accessRace _ race => exact { AgentFrame.refl s with fault := .inr ⟨rfl, race⟩ }
  | moveOut v r _ _ _ _ got =>
    exact { AgentFrame.refl s with tx_le := count_le_of_ringGet got, side := .inl ⟨rfl, rfl, rfl, rfl⟩ }
  | moveIn v rest _ _ _ slot =>
    exact { AgentFrame.refl s with rx_le := count_le_ringPut _ _ _, side := .inr ⟨rfl, rfl, rfl, rfl⟩ }

theorem phyShiftOut_frame (s : State) : AgentFrame s (phyShiftOut s) := by
  unfold phyShiftOut
  split
  · exact AgentFrame.refl s
  · exact { AgentFrame.refl s with side := .inl ⟨rfl, rfl, rfl, rfl⟩ }

theorem phyArrive_frame (s : State) : AgentFrame s (phyArrive s) := by
  unfold phyArrive
  split
  · exact AgentFrame.refl s
  · exact { AgentFrame.refl s with side := .inr ⟨rfl, rfl, rfl, rfl⟩ }

theorem perform_agent_frame {s t : State} {m : Move} (hm : m ∈ [.isr, .dispatchTxc, .dispatchRxd, .shiftOut, .arrive])
    (h : perform m s = .next t) : AgentFrame s t := by
  have handler (hm : m ∈ [.isr, .dispatchTxc, .dispatchRxd]) : AgentFrame s t :=
    (perform_handler_step hm h).2.elim HandlerStep.frame HandlerStep.frame
  cases m with
  | isr | dispatchTxc | dispatchRxd => exact handler (by simp)
  | shiftOut => cases h; exact phyShiftOut_frame s
  | arrive => cases h; exact phyArrive_frame s
  | host | reset => simp at hm

/-- Settles O32, by the frame of every move of the ISR and of the PHY. -/
theorem handlerAndPhyFrame : Obligations.HandlerAndPhyFrame := by
  intro s t m hm h
  obtain ⟨params, host, fc, tp, sched, tick, tx_le, rx_le, fault, side⟩ := perform_agent_frame hm h
  exact ⟨params, host, fc, tp, sched, tick, tx_le, rx_le, fault, side⟩

/-! ### The step while a handler runs, and the step of a stopped block (R31, R35, R175) -/

/-- The move a step takes stands in the schedule, or it is an agent's micro-step: a reset is never chosen freely. -/
theorem chooseMove_mem {s s' : State} {m : Move} (h : chooseMove s = some (m, s')) : m ∈ s.sched ∨ m ∈ agentMoves := by
  have agent {m : Move} (hm : m ∈ enabledMoves s) : m ∈ agentMoves := (List.mem_filter.1 hm).1
  unfold chooseMove at h
  split at h
  · rename_i m' q hq
    obtain ⟨rfl, -⟩ := Prod.mk.inj (Option.some.inj h)
    exact .inl ((List.dropWhile_suffix _).subset (by rw [hq]; exact List.mem_cons_self))
  · split at h
    · cases h
    · rename_i hm
      obtain ⟨rfl, -⟩ := Prod.mk.inj (Option.some.inj h)
      exact .inr (agent (by simp [hm]))
    · rename_i m' ms _ hm
      obtain ⟨rfl, -⟩ := Prod.mk.inj (Option.some.inj h)
      have hlt : Config.freeMove s.tick % (ms.length + 1) < (m' :: ms).length := Nat.mod_lt _ (Nat.succ_pos _)
      rw [List.getD_eq_getElem _ _ hlt]
      exact .inr (agent (by rw [hm]; exact List.getElem_mem hlt))

/-- A step with no reset scheduled does an enabled micro-step of an agent, or nothing is enabled. -/
theorem step_cases_of_no_reset {s : State} (hr : .reset ∉ s.sched) :
    (∃ m q k, m ≠ .reset ∧ enabled s m = true ∧ step s = perform m ((s.withSched q).withTick k)) ∨ step s = rest s := by
  unfold step nextMicroStep
  cases h : chooseMove s with
  | none => exact .inr rfl
  | some p =>
    obtain ⟨m, s'⟩ := p
    obtain ⟨henabled, q, k, rfl⟩ := chooseMove_some h
    refine .inl ⟨m, q, k, ?_, henabled, rfl⟩
    rintro rfl
    rcases chooseMove_mem h with hmem | hmem
    · exact hr hmem
    · simp [agentMoves] at hmem

/-- While a handler runs, only the handler and the PHY have micro-steps (R31, R60). -/
theorem agent_of_enabled {s : State} {m : Move} (ha : s.isr.active ≠ .none) (hm : m ≠ .reset)
    (he : enabled s m = true) : m ∈ [.isr, .dispatchTxc, .dispatchRxd, .shiftOut, .arrive] := by
  cases m with
  | host => simp [enabled, ha] at he
  | reset => exact absurd rfl hm
  | _ => simp

/-- Settles O11: the HOST is not enabled while a handler runs, and no other move touches it, the guards or the codec. -/
theorem hostWaitsForHandler : Obligations.HostWaitsForHandler := by
  intro s t ha hr h
  rcases step_cases_of_no_reset hr with ⟨m, q, k, hm, he, e⟩ | e <;> rw [e] at h
  · have frame := perform_agent_frame (agent_of_enabled ha hm he) h
    exact ⟨frame.host, frame.tp, frame.fc⟩
  · unfold rest at h
    split at h
    · cases h
    · cases h
      exact ⟨rfl, rfl, rfl⟩

theorem eq_reset_of_enabled {s : State} {m : Move} (hf : s.fault ≠ 0) (he : enabled s m = true) : m = .reset := by
  cases m with
  | reset => rfl
  | _ => simp [enabled, show ¬ s.fault = 0#8 from hf] at he

theorem rest_stopped {s : State} (hf : s.fault ≠ 0) : rest s = .fault (.blockStopped s.fault) := if_pos hf

/-- Settles O33: reset is the one move of a stopped block. -/
theorem faultStopsTheBlock : Obligations.FaultStopsTheBlock := by
  intro s hf
  refine ⟨fun i => exec_stopped hf, fun m => eq_reset_of_enabled hf, fun hr => ?_, fun t h => ?_⟩
  · rcases step_cases_of_no_reset hr with ⟨m, _, _, hm, he, _⟩ | e
    · exact absurd (eq_reset_of_enabled hf he) hm
    · rw [e, rest_stopped hf]
  · rcases step_cases s with ⟨m, q, k, he, e⟩ | ⟨_, e⟩ <;> rw [e] at h
    · rw [eq_reset_of_enabled hf he] at h
      cases h
      rfl
    · rw [rest_stopped hf] at h
      cases h

end Sys2Proof.Safety
end

section
/-! PROOFS. O36, O57, and the invariant under reset, the choice of the next move, the PHY and the handlers. -/

namespace Sys2Proof.Safety

open Sys2Proof.Machine

/-! ### Reset (R41, R190) -/

/-- Settles O36: reset is a next state, and every field of it can be read off. -/
theorem resetValues : Obligations.ResetValues := by
  intro s
  refine ⟨applyReset s, rfl, ?_⟩
  simp [applyReset, State.resetWith, Ring.reset, Transport.reset, Phy.reset, Isr.reset, HostPort.reset, Codec.reset]

theorem ringOk_reset {cap : Nat} (hcap : 1 ≤ cap) : RingOk cap Ring.reset :=
  ringOk_ringReset (r := Ring.reset) List.Pairwise.nil (fun _ hc => absurd hc List.not_mem_nil) hcap

theorem inv_applyReset (s : State) : Inv (applyReset s) where
  rx := ringOk_reset s.params.rxCap_legal.1
  tx := ringOk_reset s.params.txCap_legal.1
  phy := ⟨Nat.zero_le _, Nat.zero_le _⟩
  acc := ⟨List.Pairwise.nil, fun _ hx => absurd hx List.not_mem_nil, Nat.zero_le _, fun _ hk => absurd hk (Nat.not_lt_zero _)⟩
  start := fun _ => .inl rfl
  host := ⟨trivial, fun _ => rfl, (fun _ h => nomatch h), fun h => absurd rfl h⟩
  line := ⟨fun h => absurd rfl h, fun _ => rfl, fun _ => ⟨rfl, rfl, rfl, rfl⟩⟩
  faultOk := ⟨Nat.zero_le _, fun h => nomatch h⟩
  guards := fun _ => ⟨rfl, rfl, (Bool.and_false _).symm, (Bool.and_false _).symm⟩
  exclusion := fun _ => ⟨(fun h => nomatch h), (fun h => nomatch h)⟩

/-- Settles O57: a block just built is its own reset. -/
theorem resetHasInv : Obligations.ResetHasInv := fun p => inv_applyReset (State.resetWith p)

/-! ### The choice of the next move -/

/-- The invariant speaks of neither the schedule nor the count of free choices. -/
theorem Inv.withChoice {s : State} (h : Inv s) (q : List Move) (k : Nat) : Inv ((s.withSched q).withTick k) where
  rx := h.rx
  tx := h.tx
  phy := ⟨h.phy.txq_le, h.phy.rxq_le⟩
  acc := h.acc
  start := h.start
  host := ⟨h.host.phase_ok, h.host.idle_start, h.host.accepted, h.host.line⟩
  line := ⟨h.line.isr_line, h.line.idle_loop, h.line.off⟩
  faultOk := ⟨h.faultOk.code, h.faultOk.race⟩
  guards := fun hf => ⟨(h.guards hf).writeLock_eq, (h.guards hf).readLock_eq, (h.guards hf).hostInTx_eq,
    (h.guards hf).hostInRx_eq⟩
  exclusion := fun hf => ⟨(h.exclusion hf).txc, (h.exclusion hf).rxd⟩

/-! ### What an agent's frame keeps of the invariant -/

theorem raceOpen_congr {s t : State} (h : t.params = s.params) : raceOpen t = raceOpen s := by
  rw [raceOpen, raceOpen, h]

/-- The room a spin has seen stays, since `tx` only shrinks. -/
theorem WritePosOk.of_frame {s t : State} (f : AgentFrame s t) {pos : WritePos} {todo : List Byte}
    (h : WritePosOk s pos todo) : WritePosOk t pos todo := by
  have hroom : s.tx.count < s.params.txCap → t.tx.count < t.params.txCap := by
    rw [f.params]
    exact f.tx_le.trans_lt
  cases pos with
  | mark => exact ⟨h.1, hroom h.2.1, (raceOpen_congr f.params).trans h.2.2⟩
  | lock | put => exact ⟨h.1, hroom h.2⟩
  | kickMark => exact ⟨h.1, (raceOpen_congr f.params).trans h.2⟩
  | spin | unlock | kickLock | kick | kickUnlock => exact h

theorem ReadPosOk.of_frame {s t : State} (f : AgentFrame s t) {pos : ReadPos} {left : Nat}
    (h : ReadPosOk s pos left) : ReadPosOk t pos left := by
  cases pos with
  | mark | drainMark => exact ⟨h.1, (raceOpen_congr f.params).trans h.2⟩
  | lock | get | unlock | drainLock | drain | drainUnlock => exact h

/-- The bytes an ingest counts on stay, since `rx` only grows. -/
theorem PullCovered.of_frame {s t : State} (f : AgentFrame s t) {pos : ReadPos} {left : Nat}
    (h : PullCovered s pos left) : PullCovered t pos left := by
  cases pos with
  | mark | lock | get | unlock => exact Nat.le_trans h f.rx_le
  | drainMark | drainLock | drain | drainUnlock => trivial

theorem ReaderOk.of_frame {s t : State} (f : AgentFrame s t) {pos : ReadPos} {left : Nat} {out : List Byte}
    (h : ReaderOk s pos left out) : ReaderOk t pos left out := by
  unfold ReaderOk at h ⊢
  rw [f.host, f.fc, f.params]
  exact h.imp_right fun ⟨hc, hfill, hcov⟩ => ⟨hc, hfill, hcov.of_frame f⟩

theorem PhaseOk.of_frame {s t : State} (f : AgentFrame s t) (h : PhaseOk s) : PhaseOk t := by
  unfold PhaseOk at h ⊢
  rw [f.host]
  cases hp : s.host.phase with
  | start => trivial
  | writeEnter todo later => simpa only [hp] using h
  | write pos todo later =>
    simp only [hp] at h
    exact ⟨h.1, h.2.of_frame f⟩
  | readEnter left =>
    simp only [hp] at h
    obtain ⟨hc, hleft, hfill⟩ := h
    exact ⟨hc, hleft.trans f.rx_le, by rwa [f.fc, f.params]⟩
  | read pos left out =>
    simp only [hp] at h
    exact ⟨h.1.of_frame f, h.2.of_frame f⟩
  | decode => simpa only [hp] using h

theorem GuardsOk.of_frame {s t : State} (f : AgentFrame s t) (h : GuardsOk s) : GuardsOk t := by
  obtain ⟨hw, hr, hit, hir⟩ := h
  constructor <;> simp only [f.tp, f.host, raceOpen_congr f.params] <;> assumption

theorem HostOk.of_frame {s t : State} (f : AgentFrame s t) (h : HostOk s) : HostOk t where
  phase_ok := h.phase_ok.of_frame f
  idle_start := by rw [f.host]; exact h.idle_start
  accepted := by rw [f.host, f.params]; exact h.accepted
  line := by rw [f.host, f.tp]; exact h.line

theorem AgentFrame.fault_zero {s t : State} (f : AgentFrame s t) (h : t.fault = 0) : s.fault = 0 := by
  rcases f.fault with e | ⟨e, _⟩
  · rw [← e, h]
  · rw [e] at h
    exact absurd h (by decide)

theorem FaultOk.of_frame {s t : State} (f : AgentFrame s t) (h : FaultOk s) : FaultOk t := by
  rcases f.fault with e | ⟨e, race⟩
  · exact ⟨by rw [e]; exact h.code, by rw [e, raceOpen_congr f.params]; exact h.race⟩
  · refine ⟨by rw [e]; decide, fun _ => ?_⟩
    rw [raceOpen_congr f.params, raceOpen, race]
    rfl

/-- An agent's micro-step keeps the invariant if it keeps the rings, the slots, the line and the exclusion. -/
theorem Inv.of_frame {s t : State} (h : Inv s) (f : AgentFrame s t) (rx : RingOk s.params.rxCap t.rx)
    (tx : RingOk s.params.txCap t.tx) (phy : PhyOk t) (line : LineOk t) (exclusion : t.fault = 0 → Exclusion t) :
    Inv t where
  rx := by rwa [f.params]
  tx := by rwa [f.params]
  phy := phy
  acc := by rw [f.params, f.fc]; exact h.acc
  start := by unfold StartAtZero; rw [f.host, f.fc]; exact h.start
  host := h.host.of_frame f
  line := line
  faultOk := h.faultOk.of_frame f
  guards := fun hf => (h.guards (f.fault_zero hf)).of_frame f
  exclusion := exclusion

/-! ### The PHY -/

/-- On an enabled line a new PHY state matters to the invariant by the depth of its slots alone. -/
theorem Inv.withPhy {s : State} {y : Phy} (h : Inv s) (hl : s.tp.lineEn = true) (f : AgentFrame s (s.withPhy y))
    (htx : y.txq.length ≤ s.params.hwTxDepth) (hrx : y.rxq.length ≤ s.params.hwRxDepth) : Inv (s.withPhy y) :=
  h.of_frame f h.rx h.tx ⟨htx, hrx⟩ ⟨h.line.isr_line, h.line.idle_loop, fun hoff => absurd (hl.symm.trans hoff) (by decide)⟩
    fun hf => ⟨(h.exclusion hf).txc, (h.exclusion hf).rxd⟩

theorem inv_phyShiftOut {s : State} (h : Inv s) (hl : s.tp.lineEn = true) : Inv (phyShiftOut s) := by
  have f := phyShiftOut_frame s
  unfold phyShiftOut at f ⊢
  cases hq : s.phy.txq with
  | nil => exact h
  | cons b rest =>
    have htx := h.phy.txq_le
    rw [hq, List.length_cons] at htx
    rw [hq] at f
    exact h.withPhy hl f (Nat.le_of_succ_le htx) h.phy.rxq_le

theorem inv_phyArrive {s : State} (h : Inv s) (hl : s.tp.lineEn = true) : Inv (phyArrive s) := by
  have f := phyArrive_frame s
  unfold phyArrive at f ⊢
  cases hq : s.phy.wireIn with
  | nil => exact h
  | cons b rest =>
    rw [hq] at f
    refine h.withPhy hl f h.phy.txq_le ?_
    dsimp only
    split
    · simpa using ‹_›
    · exact h.phy.rxq_le

/-! ### The handlers -/

/-- The exclusion is about the handler that runs, if one does. -/
theorem exclusion_iff (s : State) : Exclusion s ↔ guardOf s.isr.active s.tp = false ∧
    (s.isr.loopDone = true ∨ s.params.raceAt = .dispatch → hiddenOf s.isr.active s.tp = false) := by
  constructor
  · rintro ⟨txc, rxd⟩
    cases ha : s.isr.active with
    | none => exact ⟨rfl, fun _ => rfl⟩
    | txc => exact txc ha
    | rxd => exact rxd ha
  · intro h
    exact ⟨fun ha => by rwa [ha] at h, fun ha => by rwa [ha] at h⟩

/-- A handler that may touch its ring finds the hidden flag clear: under CLOSED it is never set. -/
theorem AccessFree.hidden {h : Handler} {s : State} (free : AccessFree h s) (g : GuardsOk s) :
    hiddenOf h s.tp = false := by
  have race_of_hidden (hh : hiddenOf h s.tp = true) : raceOpen s = true := by
    cases h with
    | none => cases hh
    | txc => exact (Bool.and_eq_true_iff.1 (g.hostInTx_eq.symm.trans hh)).1
    | rxd => exact (Bool.and_eq_true_iff.1 (g.hostInRx_eq.symm.trans hh)).1
  by_contra hh
  rw [Bool.not_eq_false] at hh
  exact free ⟨by simpa [raceOpen] using race_of_hidden hh, hh⟩

/-- A slot with room stays within its depth when a byte comes in. -/
theorem length_push_le {s : State} {v : Byte} (h : s.phy.txq.length ≤ s.params.hwTxDepth) (room : phyTxFull s = false) :
    (s.phy.txq ++ [v]).length ≤ s.params.hwTxDepth := by
  have hne : s.phy.txq.length ≠ s.params.hwTxDepth := by simpa [phyTxFull] using room
  rw [List.length_append, List.length_singleton]
  exact Nat.lt_of_le_of_ne h hne

section HandlerStep

variable {h : Handler} {s t : State} (inv : Inv s) (step : HandlerStep h s t)
include inv step

theorem HandlerStep.rx_ok : RingOk s.params.rxCap t.rx := by
  cases step with
  | moveIn v rest _ _ _ slot => exact inv.rx.put v
  | skip | exit => cases h <;> exact inv.rx
  | dispatchRace | enter | accessRace | finish | moveOut => exact inv.rx

theorem HandlerStep.tx_ok : RingOk s.params.txCap t.tx := by
  cases step with
  | moveOut v r _ _ _ _ got =>
    have hne : s.tx.count ≠ 0 := fun h0 => by rw [ringGet_empty h0] at got; cases got
    obtain ⟨_, _, e, hq, _⟩ := inv.tx.get hne
    obtain ⟨_, rfl⟩ := GetResult.byte.inj (e.symm.trans got)
    exact hq
  | skip | exit => cases h <;> exact inv.tx
  | dispatchRace | enter | accessRace | finish | moveIn => exact inv.tx

theorem HandlerStep.phy_ok : PhyOk t := by
  have htx := inv.phy.txq_le
  have hrx := inv.phy.rxq_le
  cases step with
  | moveOut v r _ _ _ room _ => exact ⟨length_push_le htx room, hrx⟩
  | moveIn v rest _ _ _ slot =>
    rw [slot, List.length_cons] at hrx
    exact ⟨htx, Nat.le_of_succ_le hrx⟩
  | skip | exit => cases h <;> exact ⟨htx, hrx⟩
  | dispatchRace | enter | accessRace | finish => exact ⟨htx, hrx⟩

theorem HandlerStep.line_ok (hne : h ≠ .none) : LineOk t := by
  have hl : t.tp.lineEn = true := by
    rw [step.frame.tp]
    have running (ha : s.isr.active = h) : s.tp.lineEn = true := inv.line.isr_line (ha ▸ hne)
    cases step with
    | skip _ line | dispatchRace _ line | enter _ line => exact line
    | exit ha | accessRace ha | finish ha | moveOut _ _ _ ha | moveIn _ _ _ ha => exact running ha
  refine ⟨fun _ => hl, fun hidle => ?_, fun hoff => absurd (hl.symm.trans hoff) (by decide)⟩
  cases step with
  | skip | dispatchRace | enter | exit => rfl
  | accessRace ha | finish ha | moveOut _ _ _ ha | moveIn _ _ _ ha => exact absurd (ha.symm.trans hidle) hne

theorem HandlerStep.exclusion (hf : t.fault = 0) : Exclusion t := by
  have hs := step.frame.fault_zero hf
  have guards := inv.guards hs
  have before := inv.exclusion hs
  rw [exclusion_iff]
  cases step with
  | skip | exit => cases h <;> exact ⟨rfl, fun _ => rfl⟩
  | dispatchRace | accessRace => exact absurd hf (by simp [codeRingRace])
  | enter _ _ clear free =>
    refine ⟨clear, fun hd => ?_⟩
    rcases hd with hd | hd
    · cases hd
    · exact (free hd).hidden guards
  | finish ha free =>
    subst ha
    exact ⟨((exclusion_iff s).1 before).1, fun _ => free.hidden guards⟩
  | moveOut | moveIn => exact (exclusion_iff s).1 before

theorem HandlerStep.keepsInv (hne : h ≠ .none) : Inv t :=
  inv.of_frame step.frame (step.rx_ok inv) (step.tx_ok inv) (step.phy_ok inv) (step.line_ok inv hne)
    (step.exclusion inv)

end HandlerStep

/-! ### A handler or the PHY that is enabled has a next state, and it meets the invariant -/

/-- The outcome is a next state, and it meets the invariant. -/
def Advances (r : Result) : Prop := ∃ t, r = .next t ∧ Inv t

theorem advances_next {t : State} (h : Inv t) : Advances (.next t) := ⟨t, rfl, h⟩

theorem dispatchHandler_next (h : Handler) (guard hidden : Bool) (s : State) :
    ∃ t, dispatchHandler h guard hidden s = .next t := by
  rcases dispatchHandler_cases h guard hidden s with ⟨_, e⟩ | ⟨_, _, _, _, e⟩ | ⟨_, _, e⟩ <;> exact ⟨_, e⟩

theorem ringAccess_next {hidden : Bool} {access : State → Result} {s : State} (h : ∃ t, access s = .next t) :
    ∃ t, ringAccess hidden access s = .next t := by
  rcases ringAccess_cases hidden access s with ⟨_, _, e⟩ | ⟨_, e⟩ <;> rw [e]
  · exact ⟨_, rfl⟩
  · exact h

/-- The move out of a ring that meets the ring invariant into a slot with room. -/
theorem moveTxToPhy_next (w : Agent) {s : State} (tx : RingOk s.params.txCap s.tx) (hne : s.tx.count ≠ 0)
    (room : phyTxFull s = false) : ∃ v r, RingOk s.params.txCap r ∧
      moveTxToPhy w s = .next ((s.withTx r).withPhy { s.phy with txq := s.phy.txq ++ [v] }) := by
  obtain ⟨v, r, got, hr, _⟩ := tx.get hne
  exact ⟨v, r, hr, moveTxToPhy_of_byte w room got⟩

theorem txcMicro_next {s : State} (tx : RingOk s.params.txCap s.tx) : ∃ t, txcMicro s = .next t := by
  unfold txcMicro
  split
  · exact ⟨_, rfl⟩
  · refine ringAccess_next ?_
    unfold txcDrain
    split
    · exact ⟨_, rfl⟩
    · rename_i hgo
      obtain ⟨hne, room⟩ : s.tx.count ≠ 0 ∧ phyTxFull s = false := by simpa [ringEmpty] using hgo
      obtain ⟨v, r, _, e⟩ := moveTxToPhy_next .isr tx hne room
      exact ⟨_, e⟩

theorem rxdMicro_next (s : State) : ∃ t, rxdMicro s = .next t := by
  unfold rxdMicro
  split
  · exact ⟨_, rfl⟩
  · refine ringAccess_next ?_
    unfold rxdDrain
    split
    · exact ⟨_, rfl⟩
    · rename_i hgo
      obtain ⟨v, rest, slot⟩ := exists_slot_of_drain hgo
      exact ⟨_, movePhyToRx_cons .isr slot⟩

theorem advances_evTxc {s : State} (inv : Inv s) (h : ∃ t, exec .evTxc s = .next t) : Advances (exec .evTxc s) :=
  h.imp fun _ e => ⟨e, (exec_evTxc_step e).2.keepsInv inv (by decide)⟩

theorem advances_evRxd {s : State} (inv : Inv s) (h : ∃ t, exec .evRxd s = .next t) : Advances (exec .evRxd s) :=
  h.imp fun _ e => ⟨e, (exec_evRxd_step e).2.keepsInv inv (by decide)⟩

/-- Every enabled move but the HOST's has a next state, which meets the invariant. -/
theorem perform_agent_advances {s : State} {m : Move} (inv : Inv s) (hm : m ≠ .host) (he : enabled s m = true) :
    Advances (perform m s) := by
  cases m with
  | host => exact absurd rfl hm
  | isr =>
    simp only [enabled, Bool.and_eq_true, beq_iff_eq, bne_iff_ne] at he
    obtain ⟨hf, ha⟩ := he
    cases hactive : s.isr.active with
    | none => exact absurd hactive ha
    | txc =>
      simp only [perform, isrMove, hactive]
      exact advances_evTxc inv (exec_evTxc_running hf hactive ▸ txcMicro_next inv.tx)
    | rxd =>
      simp only [perform, isrMove, hactive]
      exact advances_evRxd inv (exec_evRxd_running hf hactive ▸ rxdMicro_next s)
  | dispatchTxc =>
    simp only [enabled, Bool.and_eq_true, beq_iff_eq] at he
    exact advances_evTxc inv (exec_evTxc_dispatch he.1 he.2 ▸ dispatchHandler_next _ _ _ s)
  | dispatchRxd =>
    simp only [enabled, Bool.and_eq_true, beq_iff_eq] at he
    exact advances_evRxd inv (exec_evRxd_dispatch he.1 he.2 ▸ dispatchHandler_next _ _ _ s)
  | shiftOut =>
    simp only [enabled, Bool.and_eq_true] at he
    exact advances_next (inv_phyShiftOut inv he.1.2)
  | arrive =>
    simp only [enabled, Bool.and_eq_true] at he
    exact advances_next (inv_phyArrive inv he.1.2)
  | reset => exact advances_next (inv_applyReset s)

end Sys2Proof.Safety
end

section
/-! PROOFS. The invariant under the HOST's micro-steps: first what every position shares, then the bodies of TP_WRITE and
TP_READ (R121, R124), then each command. -/

namespace Sys2Proof.Safety

open Sys2Proof.Machine

/-! ### The invariant apart from the HOST's position and the guards -/

/-- The clauses of the invariant that neither the HOST's position nor a guard enters into, while no handler runs. -/
structure DataOk (s : State) : Prop where
  rx : RingOk s.params.rxCap s.rx
  tx : RingOk s.params.txCap s.tx
  txq_le : s.phy.txq.length ≤ s.params.hwTxDepth
  rxq_le : s.phy.rxq.length ≤ s.params.hwRxDepth
  acc : AccOk s.params s.fc
  idle : s.isr = ⟨.none, false⟩
  off : s.tp.lineEn = false → s.phy.txq = [] ∧ s.phy.rxq = [] ∧ s.phy.txPending = false ∧ s.phy.rxPending = false
  code : s.fault.toNat ≤ 5
  race : s.fault = codeRingRace → raceOpen s = true
  accepted : ∀ i, s.host.cmd = some i → i.accepted s.params = true

/-- No guard and no hidden flag is set. -/
structure GuardsClear (s : State) : Prop where
  writeLock : s.tp.writeLock = false
  readLock : s.tp.readLock = false
  hostInTx : s.tp.hostInTx = false
  hostInRx : s.tp.hostInRx = false

/-- The HOST is inside a command that uses the line, FC_PULL's last micro-step apart. -/
structure AtWork (s : State) : Prop extends DataOk s where
  line : s.tp.lineEn = true
  busy : s.host.cmd ≠ none
  begins : BeginsFrame s.fc

/-- The HOST may complete its command. -/
structure CanRespond (s : State) : Prop extends DataOk s, GuardsClear s where
  begins : BeginsFrame s.fc

theorem Inv.dataOk {s : State} (h : Inv s) (ha : s.isr.active = .none) : DataOk s where
  rx := h.rx
  tx := h.tx
  txq_le := h.phy.txq_le
  rxq_le := h.phy.rxq_le
  acc := h.acc
  idle :=
    calc s.isr = ⟨s.isr.active, s.isr.loopDone⟩ := rfl
      _ = ⟨.none, false⟩ := by rw [ha, h.line.idle_loop ha]
  off := h.line.off
  code := h.faultOk.code
  race := h.faultOk.race
  accepted := h.host.accepted

/-- With the data in order, the invariant is a matter of the HOST's position and of the guards. -/
theorem DataOk.inv {s : State} (h : DataOk s) (start : StartAtZero s) (phase_ok : PhaseOk s)
    (idle_start : s.host.cmd = none → s.host.phase = .start) (line : s.host.phase ≠ .start → s.tp.lineEn = true)
    (guards : s.fault = 0 → GuardsOk s) : Inv s where
  rx := h.rx
  tx := h.tx
  phy := ⟨h.txq_le, h.rxq_le⟩
  acc := h.acc
  start := start
  host := ⟨phase_ok, idle_start, h.accepted, line⟩
  line := ⟨fun hne => absurd (congrArg Isr.active h.idle) hne, fun _ => congrArg Isr.loopDone h.idle, h.off⟩
  faultOk := ⟨h.code, h.race⟩
  guards := guards
  exclusion := fun _ => by
    have hactive : s.isr.active = .none := congrArg Isr.active h.idle
    exact ⟨fun ha => Handler.noConfusion (hactive.symm.trans ha), fun ha => Handler.noConfusion (hactive.symm.trans ha)⟩

/-! ### Guards between the guarded regions -/

theorem holdsTx_of_marksTx {ph : Phase} (h : marksTx ph = false) : holdsTx ph = false := by
  cases ph with
  | write pos =>
    cases pos with
    | spin | mark | kickMark | lock | kickLock => rfl
    | put | unlock | kick | kickUnlock => cases h
  | _ => rfl

theorem holdsRx_of_marksRx {ph : Phase} (h : marksRx ph = false) : holdsRx ph = false := by
  cases ph with
  | read pos =>
    cases pos with
    | mark | drainMark | lock | drainLock => rfl
    | get | unlock | drain | drainUnlock => cases h
  | _ => rfl

theorem GuardsOk.clear {s : State} (g : GuardsOk s) (htx : marksTx s.host.phase = false)
    (hrx : marksRx s.host.phase = false) : GuardsClear s where
  writeLock := g.writeLock_eq.trans (holdsTx_of_marksTx htx)
  readLock := g.readLock_eq.trans (holdsRx_of_marksRx hrx)
  hostInTx := by rw [g.hostInTx_eq, htx, Bool.and_false]
  hostInRx := by rw [g.hostInRx_eq, hrx, Bool.and_false]

/-- Clear guards are right wherever the position holds none and marks none. -/
theorem GuardsClear.ok {s : State} (g : GuardsClear s) (htx : marksTx s.host.phase = false)
    (hrx : marksRx s.host.phase = false) : GuardsOk s where
  writeLock_eq := g.writeLock.trans (holdsTx_of_marksTx htx).symm
  readLock_eq := g.readLock.trans (holdsRx_of_marksRx hrx).symm
  hostInTx_eq := by rw [g.hostInTx, htx, Bool.and_false]
  hostInRx_eq := by rw [g.hostInRx, hrx, Bool.and_false]

/-- Under CLOSED no hidden flag is ever set, so clear guards are right outside the guarded regions. -/
theorem GuardsClear.ok_of_closed {s : State} (g : GuardsClear s) (closed : raceOpen s = false)
    (htx : holdsTx s.host.phase = false) (hrx : holdsRx s.host.phase = false) : GuardsOk s where
  writeLock_eq := g.writeLock.trans htx.symm
  readLock_eq := g.readLock.trans hrx.symm
  hostInTx_eq := by rw [g.hostInTx, closed, Bool.false_and]
  hostInRx_eq := by rw [g.hostInRx, closed, Bool.false_and]

theorem GuardsClear.withPhase {s : State} (g : GuardsClear s) (ph : Phase) : GuardsClear (setPhase ph s) :=
  ⟨g.writeLock, g.readLock, g.hostInTx, g.hostInRx⟩

theorem AtWork.withPhase {s : State} (h : AtWork s) (ph : Phase) : AtWork (setPhase ph s) := { h with }

/-! ### Ends of a command -/

theorem CanRespond.inv {u : State} (h : CanRespond u) (st : Byte) (v : Half) (d : List Byte) : Inv (respond st v d u) :=
  DataOk.inv { h with accepted := fun _ e => nomatch e } (fun _ => h.begins) trivial (fun _ => rfl)
    (fun e => absurd rfl e) fun _ => GuardsClear.ok { h with } rfl rfl

/-- The codes the HOST raises: none of them is RING_RACE (R170, R171). -/
abbrev HostCode (code : Byte) : Prop := code.toNat ≤ 5 ∧ code ≠ 0 ∧ code ≠ codeRingRace

/-- A fault of the HOST ends its command (R175). -/
theorem DataOk.inv_takeFault {u : State} (h : DataOk u) (begins : BeginsFrame u.fc) {code : Byte} (hc : HostCode code) :
    Inv (takeFault .host code u) :=
  DataOk.inv { h with code := hc.1, race := fun e => absurd e hc.2.2, accepted := fun _ e => nomatch e }
    (fun _ => begins) trivial (fun _ => rfl) (fun e => absurd rfl e) fun e => absurd e hc.2.1

theorem DataOk.raiseHost_advances {u : State} (h : DataOk u) (begins : BeginsFrame u.fc) {code : Byte}
    (hc : HostCode code) : Advances (raiseHost code u) :=
  advances_next (h.inv_takeFault begins hc)

theorem Inv.atWork {s : State} (h : Inv s) (free : HostFree s) (busy : s.host.cmd ≠ none)
    (line : s.tp.lineEn = true) (hd : s.host.phase ≠ .decode) : AtWork s :=
  { h.dataOk free.2 with line := line, busy := busy, begins := h.start hd }

/-- Past its first micro-step a command that uses the line finds it enabled. -/
theorem Inv.atWork_inside {s : State} (h : Inv s) (free : HostFree s) (hs : s.host.phase ≠ .start)
    (hd : s.host.phase ≠ .decode) : AtWork s :=
  h.atWork free (fun hc => hs (h.host.idle_start hc)) (h.host.line hs) hd

theorem AtWork.not_off {s : State} (h : AtWork s) (hoff : s.tp.lineEn = false) : False := by
  rw [h.line] at hoff
  cases hoff

theorem AtWork.inv {s : State} (h : AtWork s) (phase_ok : PhaseOk s) (guards : GuardsOk s) : Inv s :=
  h.toDataOk.inv (fun _ => h.begins) phase_ok (fun hc => absurd hc h.busy) (fun _ => h.line) fun _ => guards

/-! ### The body of TP_WRITE (R121) -/

theorem AtWork.inv_write {u : State} {pos : WritePos} {todo later : List Byte} (h : AtWork u)
    (hp : u.host.phase = .write pos todo later) (hw : WriterOk u.host.cmd todo later) (hpos : WritePosOk u pos todo)
    (hg : GuardsOk u) : Inv u := by
  refine h.inv ?_ hg
  unfold PhaseOk
  rw [hp]
  exact ⟨hw, hpos⟩

theorem Inv.write_position {s : State} {pos : WritePos} {todo later : List Byte} (h : Inv s)
    (hp : s.host.phase = .write pos todo later) : WriterOk s.host.cmd todo later ∧ WritePosOk s pos todo := by
  have hphase := h.host.phase_ok
  unfold PhaseOk at hphase
  rwa [hp] at hphase

theorem WriterOk.tail {cmd : Option Instr} {todo later : List Byte} (h : WriterOk cmd todo later) :
    WriterOk cmd todo.tail later := by
  rcases h with ⟨bytes, hc, hsuffix, hl⟩ | ⟨hc, hlen⟩
  · exact .inl ⟨bytes, hc, (List.tail_suffix todo).trans hsuffix, hl⟩
  · exact .inr ⟨hc, by rw [List.length_tail]; omega⟩

/-- The position after a byte, or at the start of a body: the next byte's spin, or the kick. -/
theorem AtWork.inv_nextWrite {u : State} {todo later : List Byte} (h : AtWork u) (hw : WriterOk u.host.cmd todo later)
    (hg : GuardsClear u) : Inv (setPhase (.write (nextWritePos todo u) todo later) u) := by
  cases todo with
  | cons b bs => exact (h.withPhase _).inv_write rfl hw (List.cons_ne_nil b bs) ((hg.withPhase _).ok rfl rfl)
  | nil =>
    cases hr : raceOpen u with
    | true =>
      simp only [nextWritePos, hr, if_true]
      exact (h.withPhase _).inv_write rfl hw ⟨rfl, hr⟩ ((hg.withPhase _).ok rfl rfl)
    | false =>
      simp only [nextWritePos, hr]
      exact (h.withPhase _).inv_write rfl hw rfl ((hg.withPhase _).ok_of_closed hr rfl rfl)

/-- The position after a spin that has seen room: the guarded region's start. -/
theorem AtWork.inv_guardTx {u : State} {todo later : List Byte} (h : AtWork u) (hw : WriterOk u.host.cmd todo later)
    (hne : todo ≠ []) (room : u.tx.count < u.params.txCap) (hg : GuardsClear u) :
    Inv (setPhase (.write (guardTxPos u) todo later) u) := by
  cases hr : raceOpen u with
  | true =>
    simp only [guardTxPos, hr, if_true]
    exact (h.withPhase _).inv_write rfl hw ⟨hne, room, hr⟩ ((hg.withPhase _).ok rfl rfl)
  | false =>
    simp only [guardTxPos, hr]
    exact (h.withPhase _).inv_write rfl hw ⟨hne, room⟩ ((hg.withPhase _).ok_of_closed hr rfl rfl)

/-- Between two bodies of a ChanWrite (R147). -/
theorem AtWork.inv_writeEnter {u : State} (h : AtWork u) (he : IsEncode u.host.cmd) (hg : GuardsClear u) (b : Byte)
    (rest : List Byte) : Inv (setPhase (.writeEnter [b] rest) u) :=
  (h.withPhase _).inv ⟨he, rfl⟩ ((hg.withPhase _).ok rfl rfl)

theorem writeAt_advances {done : State → Result} {s : State} {pos : WritePos} {todo later : List Byte} (h : Inv s)
    (free : HostFree s) (hp : s.host.phase = .write pos todo later)
    (hdone : ∀ u, CanRespond u → Advances (done u)) : Advances (writeAt done pos todo later s) := by
  have work : AtWork s := h.atWork_inside free (by rw [hp]; simp) (by rw [hp]; simp)
  obtain ⟨hw, hpos⟩ := h.write_position hp
  have guards := h.guards free.1
  have ⟨gw, gr, gt, gx⟩ := guards
  have cleared : GuardsClear (clearTxGuard s) := by
    rw [hp] at gr gx
    exact ⟨rfl, gr, rfl, gx.trans (Bool.and_false _)⟩
  rw [hp] at gw gr gt gx
  cases pos with
  | spin =>
    have clear : GuardsClear s := guards.clear (by rw [hp]; rfl) (by rw [hp]; rfl)
    simp only [writeAt]
    split
    · rename_i room
      exact advances_next (work.inv_guardTx hw hpos room clear)
    · exact advances_next ((work.withPhase _).inv_write rfl hw hpos ((clear.withPhase _).ok rfl rfl))
  | mark =>
    obtain ⟨hne, room, hr⟩ := hpos
    exact advances_next (AtWork.inv_write { work with } rfl hw ⟨hne, room⟩
      ⟨gw, gr, ((Bool.and_true _).trans hr).symm, gx⟩)
  | lock => exact advances_next (AtWork.inv_write { work with } rfl hw hpos ⟨rfl, gr, gt, gx⟩)
  | put =>
    obtain ⟨hne, room⟩ := hpos
    cases todo with
    | nil => exact absurd rfl hne
    | cons b bs =>
      exact advances_next (AtWork.inv_write { work with tx := work.tx.put b } rfl hw hne ⟨gw, gr, gt, gx⟩)
  | unlock => exact advances_next (AtWork.inv_nextWrite (u := clearTxGuard s) { work with } hw.tail cleared)
  | kickMark =>
    obtain ⟨hnil, hr⟩ := hpos
    exact advances_next (AtWork.inv_write { work with } rfl hw hnil ⟨gw, gr, ((Bool.and_true _).trans hr).symm, gx⟩)
  | kickLock => exact advances_next (AtWork.inv_write { work with } rfl hw hpos ⟨rfl, gr, gt, gx⟩)
  | kick =>
    simp only [writeAt]
    split
    · exact advances_next ((work.withPhase _).inv_write rfl hw hpos ⟨gw, gr, gt, gx⟩)
    · rename_i hgo
      obtain ⟨room, hne⟩ : phyTxFull s = false ∧ s.tx.count ≠ 0 := by simpa [ringEmpty] using hgo
      obtain ⟨v, r, hr, e⟩ := moveTxToPhy_next .host work.tx hne room
      rw [e]
      exact advances_next (AtWork.inv_write
        { work with tx := hr, txq_le := length_push_le work.txq_le room, off := fun e => (work.not_off e).elim } hp hw hpos
        ⟨guards.1, guards.2, guards.3, guards.4⟩)
  | kickUnlock =>
    simp only [writeAt]
    cases later with
    | nil => exact hdone _ { work, cleared with }
    | cons b rest =>
      have encode : IsEncode s.host.cmd := by
        rcases hw with ⟨_, _, _, hl⟩ | ⟨he, _⟩
        · cases hl
        · exact he
      exact advances_next (AtWork.inv_writeEnter (u := clearTxGuard s) { work with } encode cleared b rest)

/-- The first micro-step of a body is the one at the position it begins with. -/
theorem writeAt_nextWritePos (done : State → Result) (todo later : List Byte) (s : State) :
    writeAt done (nextWritePos todo s) todo later s =
      writeAt done (nextWritePos todo s) todo later (setPhase (.write (nextWritePos todo s) todo later) s) := by
  cases todo with
  | cons => rfl
  | nil =>
    simp only [nextWritePos]
    split <;> rfl

/-- A position outside every guarded region, FC_PULL's last one apart: a body may begin there. -/
structure Outside (ph : Phase) : Prop where
  marksTx : marksTx ph = false
  marksRx : marksRx ph = false
  not_decode : ph ≠ .decode

theorem outside_start : Outside .start := ⟨rfl, rfl, Phase.noConfusion⟩
theorem outside_writeEnter (todo later : List Byte) : Outside (.writeEnter todo later) := ⟨rfl, rfl, Phase.noConfusion⟩
theorem outside_readEnter (left : Nat) : Outside (.readEnter left) := ⟨rfl, rfl, Phase.noConfusion⟩

theorem Inv.guardsClear {s : State} (h : Inv s) (free : HostFree s) (ho : Outside s.host.phase) : GuardsClear s :=
  (h.guards free.1).clear ho.marksTx ho.marksRx

/-- A command that needs the line runs its body on an enabled line, and faults NOT_INIT else (R172). -/
theorem Inv.requireLine_advances {body : State → Result} {s : State} (h : Inv s) (free : HostFree s)
    (busy : s.host.cmd ≠ none) (ho : Outside s.host.phase) (on : AtWork s → Advances (body s)) :
    Advances (requireLine body s) := by
  cases hl : s.tp.lineEn with
  | true =>
    rw [requireLine_on hl]
    exact on (h.atWork free busy hl ho.not_decode)
  | false =>
    rw [requireLine_off hl]
    exact (h.dataOk free.2).raiseHost_advances (h.start ho.not_decode) (by decide)

theorem enterWrite_advances {done : State → Result} {s : State} {todo later : List Byte} (h : Inv s) (free : HostFree s)
    (busy : s.host.cmd ≠ none) (ho : Outside s.host.phase) (hw : WriterOk s.host.cmd todo later)
    (hdone : ∀ u, CanRespond u → Advances (done u)) : Advances (enterWrite done todo later s) :=
  h.requireLine_advances free busy ho fun work => by
    rw [writeAt_nextWritePos]
    exact writeAt_advances (work.inv_nextWrite hw (h.guardsClear free ho)) free rfl hdone

/-! ### The body of TP_READ (R124) -/

theorem AtWork.inv_read {u : State} {pos : ReadPos} {left : Nat} {out : List Byte} (h : AtWork u)
    (hp : u.host.phase = .read pos left out) (hr : ReaderOk u pos left out) (hpos : ReadPosOk u pos left)
    (hg : GuardsOk u) : Inv u := by
  refine h.inv ?_ hg
  unfold PhaseOk
  rw [hp]
  exact ⟨hr, hpos⟩

theorem Inv.read_position {s : State} {pos : ReadPos} {left : Nat} {out : List Byte} (h : Inv s)
    (hp : s.host.phase = .read pos left out) : ReaderOk s pos left out ∧ ReadPosOk s pos left := by
  have hphase := h.host.phase_ok
  unfold PhaseOk at hphase
  rwa [hp] at hphase

/-- The final drain counts on no byte of `rx`. -/
theorem ReaderOk.drain {s : State} {left : Nat} {out : List Byte} (h : ReaderOk s .mark left out) :
    ReaderOk s .drainLock left out :=
  h.imp_right fun ⟨hc, hfill, _⟩ => ⟨hc, hfill, trivial⟩

/-- A byte dequeued leaves one less to dequeue. -/
theorem ReaderOk.dequeue {s t : State} {left : Nat} {out : List Byte} {v : Byte} (h : ReaderOk s .get left out)
    (hleft : 0 < left) (hcmd : t.host.cmd = s.host.cmd) (hfc : t.fc = s.fc) (hparams : t.params = s.params)
    (hcount : t.rx.count + 1 = s.rx.count) : ReaderOk t .unlock left (out ++ [v]) := by
  have hrem : remaining .unlock left + (out ++ [v]).length = remaining .get left + out.length := by
    simp only [remaining, List.length_append, List.length_singleton]
    simp only [reduceCtorEq, if_true, if_false]
    omega
  unfold ReaderOk at h ⊢
  rw [hcmd, hfc, hparams, Nat.add_assoc, hrem, ← Nat.add_assoc]
  exact h.imp_right fun ⟨hc, hfill, hcov⟩ => ⟨hc, hfill, by simp only [PullCovered] at hcov ⊢; omega⟩

/-- The position after a byte, or at the start of a body: the next byte, or the final drain. -/
theorem AtWork.inv_nextRead {u : State} {left : Nat} {out : List Byte} (h : AtWork u) (hr : ReaderOk u .mark left out)
    (hg : GuardsClear u) : Inv (setPhase (.read (nextReadPos left u) left out) u) := by
  unfold nextReadPos
  cases hopen : raceOpen u with
  | true =>
    split
    · rename_i h0
      exact (h.withPhase _).inv_read rfl hr.drain ⟨h0, hopen⟩ ((hg.withPhase _).ok rfl rfl)
    · rename_i h0
      exact (h.withPhase _).inv_read rfl hr ⟨Nat.pos_of_ne_zero h0, hopen⟩ ((hg.withPhase _).ok rfl rfl)
  | false =>
    split
    · rename_i h0
      exact (h.withPhase _).inv_read rfl hr.drain h0 ((hg.withPhase _).ok_of_closed hopen rfl rfl)
    · rename_i h0
      exact (h.withPhase _).inv_read rfl hr (Nat.pos_of_ne_zero h0) ((hg.withPhase _).ok_of_closed hopen rfl rfl)

theorem readAt_advances {done : List Byte → State → Result} {s : State} {pos : ReadPos} {left : Nat} {out : List Byte}
    (h : Inv s) (free : HostFree s) (hp : s.host.phase = .read pos left out)
    (hdone : ∀ out u, AtWork u → GuardsClear u → u.host.cmd = s.host.cmd → ReaderOk u .drainUnlock 0 out →
      Advances (done out u)) : Advances (readAt done pos left out s) := by
  have work : AtWork s := h.atWork_inside free (by rw [hp]; simp) (by rw [hp]; simp)
  obtain ⟨hr, hpos⟩ := h.read_position hp
  have guards := h.guards free.1
  have ⟨gw, gr, gt, gx⟩ := guards
  rw [hp] at gw gr gt gx
  have cleared : GuardsClear (clearRxGuard s) := ⟨gw, rfl, gt.trans (Bool.and_false _), rfl⟩
  cases pos with
  | mark =>
    obtain ⟨hleft, hopen⟩ := hpos
    exact advances_next (AtWork.inv_read { work with } rfl hr hleft ⟨gw, gr, gt, ((Bool.and_true _).trans hopen).symm⟩)
  | lock => exact advances_next (AtWork.inv_read { work with } rfl hr hpos ⟨gw, rfl, gt, gx⟩)
  | get =>
    by_cases h0 : s.rx.count = 0
    · simp only [readAt, ringGet_empty h0]
      exact work.toDataOk.raiseHost_advances work.begins (by decide)
    · obtain ⟨v, r, got, hring, hcount⟩ := work.rx.get h0
      simp only [readAt, got]
      exact advances_next (AtWork.inv_read { work with rx := hring } rfl
        (hr.dequeue hpos rfl rfl rfl hcount) hpos ⟨gw, gr, gt, gx⟩)
  | unlock => exact advances_next (AtWork.inv_nextRead (u := clearRxGuard s) { work with } hr cleared)
  | drainMark =>
    obtain ⟨hleft, hopen⟩ := hpos
    exact advances_next (AtWork.inv_read { work with } rfl hr hleft ⟨gw, gr, gt, ((Bool.and_true _).trans hopen).symm⟩)
  | drainLock => exact advances_next (AtWork.inv_read { work with } rfl hr hpos ⟨gw, rfl, gt, gx⟩)
  | drain =>
    simp only [readAt]
    split
    · exact advances_next (AtWork.inv_read { work with } rfl hr hpos ⟨gw, gr, gt, gx⟩)
    · rename_i hgo
      obtain ⟨v, rest, slot⟩ := exists_slot_of_drain hgo
      have hrest := work.rxq_le
      rw [slot, List.length_cons] at hrest
      rw [movePhyToRx_cons .host slot]
      exact advances_next (AtWork.inv_read
        { work with rx := work.rx.put v, rxq_le := Nat.le_of_succ_le hrest, off := fun e => (work.not_off e).elim }
        hp hr hpos ⟨guards.1, guards.2, guards.3, guards.4⟩)
  | drainUnlock =>
    obtain rfl : left = 0 := hpos
    exact hdone out (clearRxGuard s) { work with } cleared rfl hr

/-- The first micro-step of a body is the one at the position it begins with. -/
theorem readAt_nextReadPos (done : List Byte → State → Result) (left : Nat) (out : List Byte) (s : State) :
    readAt done (nextReadPos left s) left out s =
      readAt done (nextReadPos left s) left out (setPhase (.read (nextReadPos left s) left out) s) := by
  unfold nextReadPos
  split <;> split <;> rfl

theorem enterRead_advances {done : List Byte → State → Result} {s : State} {left : Nat} (h : Inv s) (free : HostFree s)
    (busy : s.host.cmd ≠ none) (ho : Outside s.host.phase) (hr : ReaderOk s .mark left [])
    (hdone : ∀ out u, AtWork u → GuardsClear u → u.host.cmd = s.host.cmd → ReaderOk u .drainUnlock 0 out →
      Advances (done out u)) : Advances (enterRead done left s) :=
  h.requireLine_advances free busy ho fun work => by
    rw [readAt_nextReadPos]
    exact readAt_advances (work.inv_nextRead hr (h.guardsClear free ho)) free rfl hdone

end Sys2Proof.Safety
end

section
/-! PROOFS. Facts of the port's decoder (R85, R87): a command whose words are all there is not short of words, and what it
decodes to is a command. -/

namespace Sys2Proof.Safety

open Sys2Proof.Machine

/-- An error handed on is the one that was met. -/
theorem ne_short_of_eq_error {α β : Type} {r : Except DecodeError α} {e : DecodeError} (he : r = .error e)
    (hr : r ≠ .error .short) : (.error e : Except DecodeError β) ≠ .error .short :=
  fun h => hr (he.trans (by cases h; rfl))

theorem decodeRing_ne_short (w : Word) : decodeRing w ≠ .error .short := by
  unfold decodeRing
  split_ifs <;> simp

theorem decodeRingOnly_ne_short (w : Word) (mk : RingSel → Instr) : decodeRingOnly w mk ≠ .error .short := by
  have hr := decodeRing_ne_short w
  unfold decodeRingOnly
  split
  · exact ne_short_of_eq_error ‹_› hr
  · split <;> simp

theorem decodeTNone_ne_short (w : Word) (i : Instr) : decodeTNone w i ≠ .error .short := by
  unfold decodeTNone
  split_ifs <;> simp

theorem decodeC_ne_short (w : Word) {mk : Byte → Except DecodeError Instr} (h : ∀ b, mk b ≠ .error .short) :
    decodeC w mk ≠ .error .short := by
  unfold decodeC
  split_ifs
  · simp
  · simp
  · exact h _

theorem decodeCNone_ne_short (w : Word) (i : Instr) : decodeCNone w i ≠ .error .short :=
  decodeC_ne_short w fun b => by split <;> simp

/-- A one-word command is never short of words. -/
theorem decodeOne_ne_short (w : Word) : decodeOne w ≠ .error .short := by
  have hr := decodeRing_ne_short w
  unfold decodeOne
  split
  · split
    · exact ne_short_of_eq_error ‹_› hr
    · simp
  · split
    · exact ne_short_of_eq_error ‹_› hr
    · split <;> simp
  iterate 4 exact decodeRingOnly_ne_short w _
  · exact decodeTNone_ne_short w _
  · split <;> simp
  iterate 2 exact decodeTNone_ne_short w _
  · exact decodeCNone_ne_short w _
  · exact decodeC_ne_short w fun b => by simp
  iterate 2 exact decodeCNone_ne_short w _
  all_goals simp

/-- A whole command is there to be taken: the decoder does not ask for more words (R87). -/
theorem decode_ne_short {w : Word} {ws : List Word} (h : wholeCommand (w :: ws) = true) :
    decode (w :: ws) ≠ .error .short := by
  have hlen : commandLength w ≤ 1 + ws.length := of_decide_eq_true h
  simp only [decode]
  split
  · rename_i hop
    rw [commandLength, if_pos hop] at hlen
    unfold decodeTpWrite
    split
    · simp
    · rw [if_neg (by omega)]
      dsimp only
      split <;> simp
  · have hone := decodeOne_ne_short w
    split
    · exact ne_short_of_eq_error ‹_› hone
    · simp

theorem decodeCommand_ne_short {w : Word} {ws : List Word} (h : wholeCommand (w :: ws) = true) :
    decodeCommand (w :: ws) ≠ .error .short := by
  have hdec := decode_ne_short h
  unfold decodeCommand
  split
  · exact ne_short_of_eq_error ‹_› hdec
  · split <;> simp

theorem isCommand_of_decodeCommand {ws rest : List Word} {i : Instr} (h : decodeCommand ws = .ok (i, rest)) :
    i.isCommand = true := by
  unfold decodeCommand at h
  split at h
  · cases h
  · split at h
    · cases h
      assumption
    · cases h

end Sys2Proof.Safety
end

section
/-! PROOFS. O58, O59, O56: every command in progress and every acceptance advances, so every enabled move does, and the
invariant says what the guards and the handlers are after it. -/

namespace Sys2Proof.Safety

open Sys2Proof.Machine

/-! ### The command a position belongs to (R21) -/

/-- A position of a command that runs TP_WRITE bodies. -/
def writing : Phase → Bool
  | .writeEnter _ _ | .write _ _ _ => true
  | .start | .readEnter _ | .read _ _ _ | .decode => false

/-- A position of a command that runs a TP_READ body. -/
def reading : Phase → Bool
  | .readEnter _ | .read _ _ _ | .decode => true
  | .start | .writeEnter _ _ | .write _ _ _ => false

theorem phase_cases (ph : Phase) : ph = .start ∨ writing ph = true ∨ reading ph = true := by
  cases ph with
  | start => exact .inl rfl
  | writeEnter | write => exact .inr (.inl rfl)
  | readEnter | read | decode => exact .inr (.inr rfl)

theorem IsEncode.writesChannel {cmd : Option Instr} (h : IsEncode cmd) : ∃ i, cmd = some i ∧ writesChannel i = true := by
  rcases h with rfl | ⟨b, rfl⟩ | rfl <;> exact ⟨_, rfl, rfl⟩

theorem PhaseOk.writesChannel {s : State} (h : PhaseOk s) (hp : writing s.host.phase = true) :
    ∃ i, s.host.cmd = some i ∧ writesChannel i = true := by
  unfold PhaseOk at h
  cases hphase : s.host.phase with
  | writeEnter =>
    rw [hphase] at h
    exact h.1.writesChannel
  | write =>
    rw [hphase] at h
    rcases h.1 with ⟨bytes, hc, _⟩ | ⟨henc, _⟩
    · exact ⟨_, hc, rfl⟩
    · exact henc.writesChannel
  | start | readEnter | read | decode => rw [hphase] at hp; cases hp

theorem PhaseOk.readsChannel {s : State} (h : PhaseOk s) (hp : reading s.host.phase = true) :
    ∃ i, s.host.cmd = some i ∧ readsChannel i = true := by
  unfold PhaseOk at h
  cases hphase : s.host.phase with
  | readEnter =>
    rw [hphase] at h
    exact ⟨_, h.1, rfl⟩
  | read =>
    rw [hphase] at h
    rcases h.1 with ⟨n, hc, _⟩ | ⟨hc, _⟩ <;> exact ⟨_, hc, rfl⟩
  | decode =>
    rw [hphase] at h
    exact ⟨_, h, rfl⟩
  | start | writeEnter | write => rw [hphase] at hp; cases hp

section Running

variable {s : State} {i : Instr} (h : Inv s) (hc : s.host.cmd = some i)
include h hc

theorem Inv.not_writing (hi : writesChannel i = false) : writing s.host.phase = false := by
  by_contra hp
  obtain ⟨j, hj, hw⟩ := h.host.phase_ok.writesChannel (Bool.eq_true_of_not_eq_false hp)
  cases hc.symm.trans hj
  exact absurd (hw.symm.trans hi) Bool.noConfusion

theorem Inv.not_reading (hi : readsChannel i = false) : reading s.host.phase = false := by
  by_contra hp
  obtain ⟨j, hj, hr⟩ := h.host.phase_ok.readsChannel (Bool.eq_true_of_not_eq_false hp)
  cases hc.symm.trans hj
  exact absurd (hr.symm.trans hi) Bool.noConfusion

/-- A command without a body is one micro-step. -/
theorem Inv.start_of_single (hw : writesChannel i = false) (hr : readsChannel i = false) : s.host.phase = .start := by
  rcases phase_cases s.host.phase with hp | hp | hp
  · exact hp
  · exact absurd (hp.symm.trans (h.not_writing hc hw)) Bool.noConfusion
  · exact absurd (hp.symm.trans (h.not_reading hc hr)) Bool.noConfusion

end Running

/-! ### The RB_* commands, TP_INIT and the counts -/

theorem Inv.canRespond {s : State} (h : Inv s) (free : HostFree s) (ho : Outside s.host.phase) : CanRespond s :=
  { h.dataOk free.2, h.guardsClear free ho with begins := h.start ho.not_decode }

theorem CanRespond.advances {u : State} (h : CanRespond u) (st : Byte) (v : Half) (d : List Byte) :
    Advances (.next (respond st v d u)) :=
  advances_next (h.inv st v d)

theorem DataOk.selected {s : State} (h : DataOk s) (r : RingSel) : RingOk (s.params.cap r) (selected r s) := by
  cases r with
  | rx => exact h.rx
  | tx => exact h.tx

theorem CanRespond.withSelected {s : State} {x : Ring} (h : CanRespond s) (r : RingSel)
    (hx : RingOk (s.params.cap r) x) : CanRespond (withSelected r x s) := by
  cases r with
  | rx => exact { h with rx := hx }
  | tx => exact { h with tx := hx }

/-- A codec whose buffer is in order stands: the encoder's state and sums do not matter. -/
theorem DataOk.canRespond_withFc {s : State} {c : Codec} (h : DataOk s) (hg : GuardsClear s) (acc : AccOk s.params c)
    (begins : BeginsFrame c) : CanRespond (s.withFc c) :=
  { h, hg with acc := acc, begins := begins }

/-- The commands of one micro-step, at their start. -/
theorem exec_single_advances {i : Instr} {s : State} (h : Inv s) (run : Running i s) (hw : writesChannel i = false)
    (hr : readsChannel i = false) : Advances (exec i s) := by
  have ho : Outside s.host.phase := by rw [h.start_of_single run.2 hw hr]; exact outside_start
  have can := h.canRespond run.1 ho
  have busy : s.host.cmd ≠ none := by rw [run.2]; exact Option.some_ne_none i
  cases i with
  | rbInit r c =>
    rw [exec_rbInit run]
    exact (can.withSelected r (can.selected r).reset).advances _ _ _
  | rbWrite r b =>
    rw [exec_rbWrite run]
    exact (can.withSelected r ((can.selected r).put b)).advances _ _ _
  | rbRead r =>
    rw [exec_rbRead run]
    by_cases h0 : (selected r s).count = 0
    · rw [ringGet_empty h0]
      exact can.raiseHost_advances can.begins (by decide)
    · obtain ⟨v, q, got, hq, _⟩ := (can.selected r).get h0
      rw [got]
      exact (can.withSelected r hq).advances _ _ _
  | rbStatus r => rw [exec_rbStatus run]; exact can.advances _ _ _
  | rbOcc r => rw [exec_rbOcc run]; exact can.advances _ _ _
  | rbFree r => rw [exec_rbFree run]; exact can.advances _ _ _
  | tpInit =>
    rw [exec_tpInit run]
    refine CanRespond.advances ?_ _ _ _
    exact { can with
      rx := can.rx.reset, tx := can.tx.reset, off := (fun e => nomatch e)
      writeLock := rfl, readLock := rfl, hostInTx := rfl, hostInRx := rfl }
  | tpReadable =>
    rw [exec_tpReadable run]
    exact h.requireLine_advances run.1 busy ho fun _ => can.advances _ _ _
  | tpWriteable =>
    rw [exec_tpWriteable run]
    exact h.requireLine_advances run.1 busy ho fun _ => can.advances _ _ _
  | evTxc | evRxd => exact absurd (h.host.accepted _ run.2) Bool.noConfusion
  | tpWrite | fcStart | fcPush | fcFinish => cases hw
  | tpRead | fcPull => cases hr

/-! ### TP_WRITE and the encode commands (R121, R145 to R148) -/

theorem execTpWrite_advances {bytes : List Byte} {s : State} (h : Inv s) (run : Running (.tpWrite bytes) s) :
    Advances (exec (.tpWrite bytes) s) := by
  have done (u) (hu : CanRespond u) : Advances (tpWriteDone bytes u) := hu.advances _ _ _
  rcases phase_cases s.host.phase with hp | hp | hp
  · rw [exec_tpWrite_start ⟨run, hp⟩]
    exact enterWrite_advances h run.1 (by rw [run.2]; simp) (by rw [hp]; exact outside_start)
      (.inl ⟨bytes, run.2, List.suffix_rfl, rfl⟩) done
  · cases hphase : s.host.phase with
    | write pos todo later =>
      rw [exec_tpWrite_at run hphase]
      exact writeAt_advances h run.1 hphase done
    | writeEnter todo later =>
      have hphase_ok := h.host.phase_ok
      unfold PhaseOk at hphase_ok
      rw [hphase, run.2] at hphase_ok
      simp [IsEncode] at hphase_ok
    | start | readEnter | read | decode => rw [hphase] at hp; cases hp
  · exact absurd (hp.symm.trans (h.not_reading run.2 rfl)) Bool.noConfusion

/-- The first byte of a ChanWrite is handed over; its body is next (R147). -/
theorem chanWrite_advances {bytes : List Byte} {u : State} (work : AtWork u) (he : IsEncode u.host.cmd)
    (hg : GuardsClear u) (hne : bytes ≠ []) : Advances (chanWrite bytes u) := by
  cases bytes with
  | nil => exact absurd rfl hne
  | cons b rest => exact advances_next (work.inv_writeEnter he hg b rest)

theorem requireEnc_advances {e : EncState} {body : State → Result} {s : State} (work : AtWork s)
    (h : Advances (body s)) : Advances (requireEnc e body s) := by
  unfold requireEnc
  split
  · exact h
  · exact work.toDataOk.raiseHost_advances work.begins (by decide)

/-- An encode command: its own first micro-step, then the bodies of its ChanWrite. -/
theorem chanMicro_advances {i : Instr} {first done : State → Result} {s : State} (h : Inv s) (run : Running i s)
    (he : IsEncode (some i)) (hfirst : s.host.phase = .start → Advances (first s))
    (hdone : ∀ u, CanRespond u → Advances (done u)) : Advances (chanMicro first done s) := by
  have hr : reading s.host.phase = false := by
    refine h.not_reading run.2 ?_
    rcases he with e | ⟨b, e⟩ | e <;> cases e <;> rfl
  unfold chanMicro
  cases hphase : s.host.phase with
  | start => exact hfirst hphase
  | writeEnter todo later =>
    have hphase_ok := h.host.phase_ok
    unfold PhaseOk at hphase_ok
    rw [hphase] at hphase_ok
    exact enterWrite_advances h run.1 (by rw [run.2]; simp) (by rw [hphase]; exact outside_writeEnter _ _)
      (.inr ⟨hphase_ok.1, hphase_ok.2.le⟩) hdone
  | write pos todo later => exact writeAt_advances h run.1 hphase hdone
  | readEnter | read | decode => rw [hphase] at hr; cases hr

theorem esc_ne_nil (b : Byte) : esc b ≠ [] := by
  unfold esc
  split <;> simp

theorem fcStartDone_advances {u : State} (h : CanRespond u) : Advances (fcStartDone u) := by
  refine CanRespond.advances ?_ _ _ _
  exact h.canRespond_withFc h.toGuardsClear { h.acc with } h.begins

theorem fcFinishDone_advances {u : State} (h : CanRespond u) : Advances (fcFinishDone u) := by
  refine CanRespond.advances ?_ _ _ _
  exact h.canRespond_withFc h.toGuardsClear { h.acc with } h.begins

/-- FC_START, FC_PUSH and FC_FINISH: at the start the line and the encoder's state are checked, then ChanWrite begins. -/
theorem execEncode_advances {i : Instr} {s : State} (h : Inv s) (run : Running i s) (he : IsEncode (some i)) :
    Advances (exec i s) := by
  have henc : IsEncode s.host.cmd := by rw [run.2]; exact he
  have start {body : State → Result} (on : AtWork s → GuardsClear s → Advances (body s)) (hp : s.host.phase = .start) :
      Advances (requireLine body s) := by
    have ho : Outside s.host.phase := by rw [hp]; exact outside_start
    exact h.requireLine_advances run.1 (by rw [run.2]; simp) ho fun work => on work (h.guardsClear run.1 ho)
  rcases he with e | ⟨b, e⟩ | e <;> cases e
  · rw [exec_fcStart run]
    refine chanMicro_advances h run (.inl rfl) (start fun work hg => ?_)
      fun u hu => fcStartDone_advances hu
    exact requireEnc_advances work (chanWrite_advances work henc hg (by simp))
  · rw [exec_fcPush run]
    refine chanMicro_advances h run (.inr (.inl ⟨b, rfl⟩)) (start fun work hg => ?_) fun u hu => hu.advances _ _ _
    exact requireEnc_advances work (chanWrite_advances (u := pushSums b s) { work with acc := { work.acc with } } henc
      { hg with } (esc_ne_nil b))
  · rw [exec_fcFinish run]
    refine chanMicro_advances h run (.inr (.inr rfl)) (start fun work hg => ?_)
      fun u hu => fcFinishDone_advances hu
    exact requireEnc_advances work (chanWrite_advances work henc hg (by simp [finishBytes]))

/-! ### TP_READ and FC_PULL (R124, R155) -/

theorem AtWork.canRespond {u : State} (h : AtWork u) (hg : GuardsClear u) : CanRespond u := { h, hg with }

theorem execTpRead_advances {n : Half} {s : State} (h : Inv s) (run : Running (.tpRead n) s) :
    Advances (exec (.tpRead n) s) := by
  have done (out u) (work : AtWork u) (hg : GuardsClear u) : Advances (tpReadDone n out u) :=
    (work.canRespond hg).advances _ _ _
  rcases phase_cases s.host.phase with hp | hp | hp
  · rw [exec_tpRead_start ⟨run, hp⟩]
    exact enterRead_advances h run.1 (by rw [run.2]; simp) (by rw [hp]; exact outside_start)
      (.inl ⟨n, run.2, rfl⟩) fun out u work hg _ _ => done out u work hg
  · exact absurd (hp.symm.trans (h.not_writing run.2 rfl)) Bool.noConfusion
  · cases hphase : s.host.phase with
    | read pos left out =>
      rw [exec_tpRead_at run hphase]
      exact readAt_advances h run.1 hphase fun out u work hg _ _ => done out u work hg
    | readEnter | decode =>
      have hphase_ok := h.host.phase_ok
      unfold PhaseOk at hphase_ok
      rw [hphase, run.2] at hphase_ok
      simp at hphase_ok
    | start | writeEnter | write => rw [hphase] at hp; cases hp

/-- The ingested bytes fit the accumulation buffer (R156). -/
theorem fcPullIngest_advances {u : State} {out : List Byte} (work : AtWork u) (hg : GuardsClear u)
    (hc : u.host.cmd = some .fcPull) (hr : ReaderOk u .drainUnlock 0 out) : Advances (fcPullIngest out u) := by
  have fits : u.fc.fill + out.length ≤ u.params.accCap := by
    rcases hr with ⟨n, hc', _⟩ | ⟨_, hfill, _⟩
    · cases hc.symm.trans hc'
    · exact hfill
  exact advances_next (DataOk.inv { work with acc := work.acc.write le_rfl fits } (fun e => absurd rfl e) hc
    (fun e => absurd e work.busy) (fun _ => work.line) fun _ => GuardsClear.ok { hg with } rfl rfl)

theorem fcPullDecode_advances {s : State} (h : Inv s) (free : HostFree s) (hp : s.host.phase = .decode) :
    Advances (fcPullDecode s) := by
  have data := h.dataOk free.2
  have hg : GuardsClear s := (h.guards free.1).clear (by rw [hp]; rfl) (by rw [hp]; rfl)
  obtain ⟨bs, hbs, hlen⟩ := data.acc.read
  obtain ⟨hacc, hbegins⟩ := stepsTwoToSix_ok data.acc hlen
  unfold fcPullDecode
  rw [hbs]
  exact (data.canRespond_withFc hg hacc hbegins).advances _ _ _

theorem execFcPull_advances {s : State} (h : Inv s) (run : Running .fcPull s) : Advances (exec .fcPull s) := by
  have busy : s.host.cmd ≠ none := by rw [run.2]; exact Option.some_ne_none _
  have ingest (out u) (work : AtWork u) (hg : GuardsClear u) (hu : u.host.cmd = s.host.cmd)
      (hr : ReaderOk u .drainUnlock 0 out) : Advances (fcPullIngest out u) :=
    fcPullIngest_advances work hg (hu.trans run.2) hr
  have hw := h.not_writing run.2 rfl
  cases hphase : s.host.phase with
  | start =>
    have ho : Outside s.host.phase := by rw [hphase]; exact outside_start
    rw [exec_fcPull_start ⟨run, hphase⟩]
    refine h.requireLine_advances run.1 busy ho fun work => advances_next ?_
    refine (work.withPhase _).inv ⟨run.2, Nat.min_le_left _ _, ?_⟩ (((h.guardsClear run.1 ho).withPhase _).ok rfl rfl)
    have hfill := work.acc.fill_le
    simp only [setPhase_fc, setPhase_params]
    omega
  | readEnter left =>
    have hphase_ok := h.host.phase_ok
    unfold PhaseOk at hphase_ok
    rw [hphase] at hphase_ok
    obtain ⟨hc, hleft, hfill⟩ := hphase_ok
    rw [exec_fcPull_enter run hphase]
    exact enterRead_advances h run.1 busy (by rw [hphase]; exact outside_readEnter _) (.inr ⟨hc, hfill, hleft⟩) ingest
  | read pos left out =>
    rw [exec_fcPull_at run hphase]
    exact readAt_advances h run.1 hphase ingest
  | decode =>
    rw [exec_fcPull_decode run hphase]
    exact fcPullDecode_advances h run.1 hphase
  | writeEnter | write => rw [hphase] at hw; cases hw

/-! ### Every command, every acceptance, every move -/

/-- The command in progress advances, whatever it is. -/
theorem exec_advances {i : Instr} {s : State} (h : Inv s) (run : Running i s) : Advances (exec i s) := by
  cases i with
  | tpWrite bytes => exact execTpWrite_advances h run
  | tpRead n => exact execTpRead_advances h run
  | fcStart => exact execEncode_advances h run (.inl rfl)
  | fcPush b => exact execEncode_advances h run (.inr (.inl ⟨b, rfl⟩))
  | fcFinish => exact execEncode_advances h run (.inr (.inr rfl))
  | fcPull => exact execFcPull_advances h run
  | _ => exact exec_single_advances h run rfl rfl

/-- A command taken off the port is accepted, or faults ILLEGAL (R80, R86). -/
theorem acceptCommand_inv {i : Instr} {u : State} (h : CanRespond u) : Inv (acceptCommand i u) := by
  unfold acceptCommand
  split
  · rename_i hi
    exact DataOk.inv { h with accepted := fun _ e => Option.some.inj e ▸ hi } (fun _ => h.begins) trivial
      (fun _ => rfl) (fun e => absurd rfl e) fun _ => GuardsClear.ok { h with } rfl rfl
  · exact h.inv_takeFault h.begins (by decide)

theorem acceptNext_advances {s : State} (h : Inv s) (idle : IdleHost s) (hw : wholeCommand s.host.port = true) :
    Advances (acceptNext s) := by
  have hp := h.host.idle_start idle.2
  have ho : Outside s.host.phase := by rw [hp]; exact outside_start
  have can port : CanRespond (s.withHost { s.host with port := port }) :=
    { h.canRespond idle.1 ho with }
  cases hport : s.host.port with
  | nil => rw [hport] at hw; cases hw
  | cons w ws =>
    rw [hport] at hw
    cases hdec : decodeCommand (w :: ws) with
    | ok p =>
      obtain ⟨i, rest⟩ := p
      simp only [acceptNext, hport, hdec]
      rw [exec_accept (s := s.withHost { s.host with port := rest }) idle (isCommand_of_decodeCommand hdec)]
      exact advances_next (acceptCommand_inv (can rest))
    | error e =>
      have raise : Advances (raiseHost codeIllegal _) :=
        (can ((w :: ws).drop (commandLength w))).raiseHost_advances (can _).begins (by decide)
      simp only [acceptNext, hport, hdec]
      cases e with
      | short => exact absurd hdec (decodeCommand_ne_short hw)
      | _ => exact raise

theorem hostMove_advances {s : State} (h : Inv s) (he : enabled s .host = true) : Advances (hostMove s) := by
  simp only [enabled, Bool.and_eq_true, beq_iff_eq] at he
  obtain ⟨free, hwork⟩ := he
  unfold hostMove
  cases hc : s.host.cmd with
  | some i => exact exec_advances h ⟨free, hc⟩
  | none => exact acceptNext_advances h ⟨free, hc⟩ (by simpa [hostHasWork, hc] using hwork)

theorem perform_advances {s : State} {m : Move} (h : Inv s) (he : enabled s m = true) : Advances (perform m s) := by
  by_cases hm : m = .host
  · subst hm
    exact hostMove_advances h he
  · exact perform_agent_advances h hm he

/-- A step advances, or the block is stopped and no reset is scheduled (R175). -/
theorem step_advances {s : State} (h : Inv s) :
    Advances (step s) ∨ (s.fault ≠ 0 ∧ step s = .fault (.blockStopped s.fault)) := by
  rcases step_cases s with ⟨m, q, k, he, e⟩ | ⟨_, e⟩ <;> rw [e]
  · exact .inl (perform_advances (h.withChoice q k) (by simpa using he))
  · by_cases hf : s.fault = 0
    · rw [rest, if_neg (not_not.2 hf)]
      exact .inl (advances_next (h.withChoice [] s.tick))
    · exact .inr ⟨hf, rest_stopped hf⟩

/-- Settles O58: a step that has a next state advances. -/
theorem stepKeepsInv : Obligations.StepKeepsInv := by
  intro s t h e
  rcases step_advances h with ⟨u, hu, hinv⟩ | ⟨_, hstop⟩
  · cases hu.symm.trans e
    exact hinv
  · cases hstop.symm.trans e

/-- Settles O59: a step and the command in progress advance. -/
theorem invNeverStuck : Obligations.InvNeverStuck :=
  ⟨fun _ h => (step_advances h).imp_left fun ⟨t, e, _⟩ => ⟨t, e⟩, fun _ _ h run => exec_advances h run⟩

/-! ### At most one accessor (R27, R28, R65, C9) -/

theorem writing_of_holdsTx {ph : Phase} (h : holdsTx ph = true) : writing ph = true := by
  cases ph with
  | write => rfl
  | _ => cases h

theorem reading_of_holdsRx {ph : Phase} (h : holdsRx ph = true) : reading ph = true := by
  cases ph with
  | read => rfl
  | _ => cases h

/-- A micro-step of a handler touches `tx` and the transmit slot only where EV_TXC runs and may access its ring. -/
theorem HandlerStep.transmit_access {h : Handler} {s t : State} (step : HandlerStep h s t) :
    (t.tx = s.tx ∧ t.phy.txq = s.phy.txq) ∨ (s.isr.active = .txc ∧ AccessFree .txc s) := by
  cases step with
  | moveOut _ _ hh ha free => subst hh; exact .inr ⟨ha, free⟩
  | skip | exit => cases h <;> exact .inl ⟨rfl, rfl⟩
  | dispatchRace | enter | accessRace | finish | moveIn => exact .inl ⟨rfl, rfl⟩

theorem HandlerStep.receive_access {h : Handler} {s t : State} (step : HandlerStep h s t) :
    (t.rx = s.rx ∧ t.phy.rxq = s.phy.rxq) ∨ (s.isr.active = .rxd ∧ AccessFree .rxd s) := by
  cases step with
  | moveIn _ _ hh ha free => subst hh; exact .inr ⟨ha, free⟩
  | skip | exit => cases h <;> exact .inl ⟨rfl, rfl⟩
  | dispatchRace | enter | accessRace | finish | moveOut => exact .inl ⟨rfl, rfl⟩

/-- Settles O56: the guards and the exclusion of the invariant, and the one micro-step of a handler that moves a byte. -/
theorem atMostOneAccessor : Obligations.AtMostOneAccessor := by
  constructor
  · intro s t h e hf
    have inv := stepKeepsInv s t h e
    have guards := inv.guards hf
    have exclusion := inv.exclusion hf
    refine ⟨fun hc => ?_, by rw [guards.writeLock_eq], by rw [guards.readLock_eq],
      fun hp => inv.host.phase_ok.writesChannel (writing_of_holdsTx hp),
      fun hp => inv.host.phase_ok.readsChannel (reading_of_holdsRx hp), fun ⟨ha, hp⟩ => ?_, fun ⟨ha, hp⟩ => ?_⟩
    · have hp := inv.host.idle_start hc
      obtain ⟨hwl, hrl, hit, hir⟩ := guards.clear (by rw [hp]; rfl) (by rw [hp]; rfl)
      exact ⟨hwl, hrl, hit, hir⟩
    · exact absurd (hp.symm.trans (guards.writeLock_eq.symm.trans (exclusion.txc ha).1)) Bool.noConfusion
    · exact absurd (hp.symm.trans (guards.readLock_eq.symm.trans (exclusion.rxd ha).1)) Bool.noConfusion
  · intro s t m h hm e
    obtain ⟨hf, step⟩ := perform_handler_step hm e
    have guards := h.guards hf
    have exclusion := h.exclusion hf
    constructor
    · intro moved
      rcases step.elim HandlerStep.transmit_access HandlerStep.transmit_access with ⟨htx, htxq⟩ | ⟨ha, free⟩
      · exact absurd ⟨htx, htxq⟩ (not_and_or.2 moved)
      · exact ⟨(exclusion.txc ha).1, free.hidden guards⟩
    · intro moved
      rcases step.elim HandlerStep.receive_access HandlerStep.receive_access with ⟨hrx, hrxq⟩ | ⟨ha, free⟩
      · exact absurd ⟨hrx, hrxq⟩ (not_and_or.2 moved)
      · exact ⟨(exclusion.rxd ha).1, free.hidden guards⟩

end Sys2Proof.Safety
end

section
/-! PROOFS. O51 (R39, R144, R152): the frames of the channel commands. `besideWriter` and `besideReader` blank out what the
bodies of TP_WRITE and TP_READ may change, `besideEncoder` and `besideDecoder` the codec's half as well: a micro-step keeps
the whole rest of the state if it keeps the blanked state. -/

namespace Sys2Proof.Safety

open Sys2Proof.Machine

/-! ### The state beside a command -/

/-- The HOST without its sequencer and its responses: what a command may change. -/
def HostPort.blank (h : HostPort) : HostPort := { h with cmd := none, phase := .start, responses := [] }

/-- The state without what a TP_WRITE body may change. -/
def besideWriter (s : State) : State :=
  { s with
    tx := Ring.reset, tp := { s.tp with writeLock := false, hostInTx := false }, phy := { s.phy with txq := [] }
    host := HostPort.blank s.host, fault := 0 }

/-- The state without what a TP_READ body may change. -/
def besideReader (s : State) : State :=
  { s with
    rx := Ring.reset, tp := { s.tp with readLock := false, hostInRx := false }, phy := { s.phy with rxq := [] }
    host := HostPort.blank s.host, fault := 0 }

/-- The state without what an encode command may change. -/
def besideEncoder (s : State) : State :=
  (besideWriter s).withFc { s.fc with encState := .idle, sum1 := 0, sum2 := 0 }

/-- The codec without its accumulation buffer. -/
def encoderOf (c : Codec) : Codec := { c with acc := [], fill := 0 }

/-- The state without what FC_PULL may change. -/
def besideDecoder (s : State) : State := (besideReader s).withFc (encoderOf s.fc)

theorem besideEncoder_of_besideWriter {s t : State} (h : besideWriter t = besideWriter s) :
    besideEncoder t = besideEncoder s :=
  congrArg (fun u => u.withFc { u.fc with encState := .idle, sum1 := 0, sum2 := 0 }) h

theorem besideDecoder_of_besideReader {s t : State} (h : besideReader t = besideReader s) :
    besideDecoder t = besideDecoder s :=
  congrArg (fun u => u.withFc (encoderOf u.fc)) h

/-! ### The bodies of TP_WRITE and TP_READ -/

theorem moveTxToPhy_beside (s : State) :
    OnNext (fun t => besideWriter t = besideWriter s) (moveTxToPhy .host s) := by
  unfold moveTxToPhy
  split
  · exact onNext_next.2 rfl
  · exact onNext_fault
  · refine onNext_next.2 ?_
    unfold phyTxPush
    split <;> rfl

theorem movePhyToRx_beside (s : State) :
    OnNext (fun t => besideReader t = besideReader s) (movePhyToRx .host s) := by
  cases slot : s.phy.rxq with
  | nil =>
    simp only [movePhyToRx, phyRxPop, slot]
    exact onNext_next.2 rfl
  | cons b rest =>
    rw [movePhyToRx_cons .host slot]
    exact onNext_next.2 rfl

section WriteBody

variable {Q : State → Prop} {done : State → Result} {s : State} (keep : ∀ t, besideWriter t = besideWriter s → Q t)
  (hdone : ∀ u, besideWriter u = besideWriter s → OnNext Q (done u))
include keep hdone

theorem writeAt_beside (pos : WritePos) (todo later : List Byte) : OnNext Q (writeAt done pos todo later s) := by
  cases pos with
  | spin =>
    simp only [writeAt]
    split <;> exact onNext_next.2 (keep _ rfl)
  | put =>
    cases todo with
    | nil => exact onNext_refused
    | cons => exact onNext_next.2 (keep _ rfl)
  | kick =>
    simp only [writeAt]
    split
    · exact onNext_next.2 (keep _ rfl)
    · exact fun t e => keep t (moveTxToPhy_beside s t e)
  | kickUnlock =>
    cases later with
    | nil => exact hdone (clearTxGuard s) rfl
    | cons => exact onNext_next.2 (keep _ rfl)
  | mark | lock | unlock | kickMark | kickLock => exact onNext_next.2 (keep _ rfl)

theorem enterWrite_beside (todo later : List Byte) : OnNext Q (enterWrite done todo later s) :=
  onNext_requireLine (fun _ => writeAt_beside keep hdone _ todo later) fun _ => keep _ rfl

/-- A micro-step of an encode command: its own first one, or one of its ChanWrite's. -/
theorem chanMicro_beside {first : State → Result} (hfirst : OnNext Q (first s)) : OnNext Q (chanMicro first done s) := by
  unfold chanMicro
  split
  · exact hfirst
  · exact enterWrite_beside keep hdone _ _
  · exact writeAt_beside keep hdone _ _ _
  all_goals exact onNext_refused

end WriteBody

section ReadBody

variable {Q : State → Prop} {done : List Byte → State → Result} {s : State}
  (keep : ∀ t, besideReader t = besideReader s → Q t)
  (hdone : ∀ out u, besideReader u = besideReader s → OnNext Q (done out u))
include keep hdone

theorem readAt_beside (pos : ReadPos) (left : Nat) (out : List Byte) : OnNext Q (readAt done pos left out s) := by
  cases pos with
  | get =>
    simp only [readAt]
    split
    · exact onNext_next.2 (keep _ rfl)
    · exact onNext_fault
    · exact onNext_next.2 (keep _ rfl)
  | drain =>
    simp only [readAt]
    split
    · exact onNext_next.2 (keep _ rfl)
    · exact fun t e => keep t (movePhyToRx_beside s t e)
  | drainUnlock => exact hdone out (clearRxGuard s) rfl
  | mark | lock | unlock | drainMark | drainLock => exact onNext_next.2 (keep _ rfl)

theorem enterRead_beside (left : Nat) : OnNext Q (enterRead done left s) :=
  onNext_requireLine (fun _ => readAt_beside keep hdone _ left []) fun _ => keep _ rfl

end ReadBody

/-! ### The commands -/

theorem exec_tpWrite_beside {bytes : List Byte} {s : State} (run : Running (.tpWrite bytes) s) :
    OnNext (fun t => besideWriter t = besideWriter s) (exec (.tpWrite bytes) s) := by
  have done (u) (hu : besideWriter u = besideWriter s) :
      OnNext (fun t => besideWriter t = besideWriter s) (tpWriteDone bytes u) := onNext_next.2 hu
  simp only [exec, execTpWrite]
  rw [running_body run]
  split
  · exact enterWrite_beside (fun _ h => h) done _ _
  · exact writeAt_beside (fun _ h => h) done _ _ _
  all_goals exact onNext_refused

theorem exec_tpRead_beside {n : Half} {s : State} (run : Running (.tpRead n) s) :
    OnNext (fun t => besideReader t = besideReader s) (exec (.tpRead n) s) := by
  have done (out u) (hu : besideReader u = besideReader s) :
      OnNext (fun t => besideReader t = besideReader s) (tpReadDone n out u) := onNext_next.2 hu
  simp only [exec, execTpRead]
  rw [running_body run]
  split
  · exact enterRead_beside (fun _ h => h) done _
  · exact readAt_beside (fun _ h => h) done _ _ _
  all_goals exact onNext_refused

theorem chanWrite_beside {bytes : List Byte} {s u : State} (h : besideEncoder u = besideEncoder s) :
    OnNext (fun t => besideEncoder t = besideEncoder s) (chanWrite bytes u) := by
  cases bytes with
  | nil => exact onNext_refused
  | cons => exact onNext_next.2 h

/-- The checks of an encode command raise a fault or let its first micro-step run. -/
theorem encodeChecks_beside {e : EncState} {body : State → Result} {s : State}
    (h : OnNext (fun t => besideEncoder t = besideEncoder s) (body s)) :
    OnNext (fun t => besideEncoder t = besideEncoder s) (requireLine (requireEnc e body) s) := by
  refine onNext_requireLine (fun _ => ?_) fun _ => rfl
  unfold requireEnc
  split
  · exact h
  · exact onNext_next.2 rfl

theorem exec_encode_beside {i : Instr} {s : State} (run : Running i s) (he : IsEncode (some i)) :
    OnNext (fun t => besideEncoder t = besideEncoder s) (exec i s) := by
  have keep (t) (h : besideWriter t = besideWriter s) := besideEncoder_of_besideWriter h
  rcases he with e | ⟨b, e⟩ | e <;> cases e
  · rw [exec_fcStart run]
    refine chanMicro_beside keep (fun u hu => ?_) (encodeChecks_beside (chanWrite_beside rfl))
    exact onNext_next.2 (keep u hu)
  · rw [exec_fcPush run]
    refine chanMicro_beside keep (fun u hu => ?_) (encodeChecks_beside (chanWrite_beside rfl))
    exact onNext_next.2 (keep u hu)
  · rw [exec_fcFinish run]
    refine chanMicro_beside keep (fun u hu => ?_) (encodeChecks_beside (chanWrite_beside rfl))
    exact onNext_next.2 (keep u hu)

theorem encoderOf_retire (rest : List Byte) (c : Codec) : encoderOf (retire rest c) = encoderOf c := by
  unfold retire
  split <;> rfl

theorem encoderOf_stepsFromStart (p : Params) (body : List Byte) (c : Codec) :
    encoderOf (stepsFromStart p body c).2 = encoderOf c := by
  unfold stepsFromStart
  split
  · dsimp only
    split <;> rfl
  · exact encoderOf_retire _ c

/-- Steps 2 to 6 leave the encoder alone (R152). -/
theorem encoderOf_stepsTwoToSix (p : Params) (bs : List Byte) (c : Codec) :
    encoderOf (stepsTwoToSix p bs c).2 = encoderOf c := by
  unfold stepsTwoToSix
  split
  · rfl
  · exact encoderOf_stepsFromStart p _ (accMoved _ c)

theorem fcPullDecode_beside (s : State) :
    OnNext (fun t => besideDecoder t = besideDecoder s) (fcPullDecode s) := by
  unfold fcPullDecode
  split
  · exact onNext_fault
  · exact onNext_next.2 (congrArg (besideReader s).withFc (encoderOf_stepsTwoToSix _ _ s.fc))

theorem exec_fcPull_beside {s : State} (run : Running .fcPull s) :
    OnNext (fun t => besideDecoder t = besideDecoder s) (exec .fcPull s) := by
  have keep (t) (h : besideReader t = besideReader s) := besideDecoder_of_besideReader h
  have done (out u) (hu : besideReader u = besideReader s) :
      OnNext (fun t => besideDecoder t = besideDecoder s) (fcPullIngest out u) := onNext_next.2 (keep u hu)
  simp only [exec, execFcPull]
  rw [running_body run]
  split
  · exact onNext_requireLine (fun _ => onNext_next.2 rfl) fun _ => rfl
  · exact enterRead_beside keep done _
  · exact readAt_beside keep done _ _ _
  · exact fcPullDecode_beside s
  all_goals exact onNext_refused

theorem exec_writer_beside {i : Instr} {s : State} (run : Running i s) (hi : writesChannel i = true) :
    OnNext (fun t => besideEncoder t = besideEncoder s) (exec i s) := by
  cases i with
  | tpWrite bytes => exact fun t e => besideEncoder_of_besideWriter (exec_tpWrite_beside run t e)
  | fcStart => exact exec_encode_beside run (.inl rfl)
  | fcPush b => exact exec_encode_beside run (.inr (.inl ⟨b, rfl⟩))
  | fcFinish => exact exec_encode_beside run (.inr (.inr rfl))
  | _ => cases hi

theorem exec_reader_beside {i : Instr} {s : State} (run : Running i s) (hi : readsChannel i = true) :
    OnNext (fun t => besideDecoder t = besideDecoder s) (exec i s) := by
  cases i with
  | tpRead n => exact fun t e => besideDecoder_of_besideReader (exec_tpRead_beside run t e)
  | fcPull => exact exec_fcPull_beside run
  | _ => cases hi

/-- Whichever side a micro-step keeps, it keeps what lies beside both. -/
theorem beside_both {s t : State} (h : besideDecoder t = besideDecoder s ∨ besideEncoder t = besideEncoder s) :
    besideEncoder (besideDecoder t) = besideEncoder (besideDecoder s) := by
  rcases h with h | h
  · exact congrArg besideEncoder h
  · exact congrArg besideDecoder h

/-- Settles O51: each claim is a field of a blanked state that the command keeps. -/
theorem channelFrames : Obligations.ChannelFrames := by
  intro i s t run e
  refine ⟨fun hr => ?_, fun hw => ?_, fun hrw => ?_, fun hi => ?_⟩
  · have h := exec_reader_beside run hr t e
    exact ⟨congrArg (·.tx) h, congrArg (·.phy.txq) h, congrArg (·.tp.writeLock) h, congrArg (·.tp.hostInTx) h,
      congrArg (·.fc.encState) h, congrArg (·.fc.sum1) h, congrArg (·.fc.sum2) h⟩
  · have h := exec_writer_beside run hw t e
    exact ⟨congrArg (·.rx) h, congrArg (·.phy.rxq) h, congrArg (·.tp.readLock) h, congrArg (·.tp.hostInRx) h,
      congrArg (·.fc.acc) h, congrArg (·.fc.fill) h⟩
  · have h := beside_both (hrw.imp (fun hr => exec_reader_beside run hr t e) fun hw => exec_writer_beside run hw t e)
    exact ⟨congrArg (·.params) h, congrArg (·.isr) h, congrArg (·.tp.lineEn) h, congrArg (·.phy.txPending) h,
      congrArg (·.phy.rxPending) h, congrArg (·.phy.wireOut) h, congrArg (·.phy.wireIn) h, congrArg (·.host.port) h,
      congrArg (·.sched) h, congrArg (·.tick) h⟩
  · rcases hi with ⟨n, rfl⟩ | ⟨bytes, rfl⟩
    · exact congrArg (·.fc) (exec_tpRead_beside run t e)
    · exact congrArg (·.fc) (exec_tpWrite_beside run t e)

end Sys2Proof.Safety
end

section
/-! PROOFS. O7 (R55): the bytes of a block's data words are the block, then its zero padding, and byte `4k + j` of a list of
words is byte `j` of word `k`. -/

namespace Sys2Proof

/-- Byte `j` of a data word (R55). -/
theorem wordBytes_getElem? {j : Nat} (w : Word) (hj : j < 4) : (wordBytes w)[j]? = some (w.extractLsb' (8 * j) 8) := by
  match j with
  | 0 | 1 | 2 | 3 => rfl

/-- Above its last byte, a word written as bytes is the word of the others. -/
theorem extract_append_byte {n : Nat} (x : BitVec n) (b : Byte) (k : Nat) :
    (x ++ b).extractLsb' (8 + k) 8 = x.extractLsb' k 8 := by
  rw [BitVec.extractLsb'_append_eq_of_le (Nat.le_add_right _ _), Nat.add_sub_cancel_left]

theorem wordBytes_bytesWord (b0 b1 b2 b3 : Byte) : wordBytes (bytesWord b0 b1 b2 b3) = [b0, b1, b2, b3] := by
  have byte0 : (bytesWord b0 b1 b2 b3).extractLsb' 0 8 = b0 := Laws.extract_low _ b0
  have byte1 : (bytesWord b0 b1 b2 b3).extractLsb' 8 8 = b1 :=
    (extract_append_byte _ b0 0).trans (Laws.extract_low _ b1)
  have byte2 : (bytesWord b0 b1 b2 b3).extractLsb' 16 8 = b2 :=
    (extract_append_byte _ b0 8).trans ((extract_append_byte _ b1 0).trans (Laws.extract_low b3 b2))
  have byte3 : (bytesWord b0 b1 b2 b3).extractLsb' 24 8 = b3 :=
    (extract_append_byte _ b0 16).trans ((extract_append_byte _ b1 8).trans (Laws.extract_high b3 b2))
  rw [wordBytes, byte0, byte1, byte2, byte3]

theorem flatMap_wordBytes_getElem? {j : Nat} (hj : j < 4) :
    ∀ (ws : List Word) (k : Nat),
      (ws.flatMap wordBytes)[4 * k + j]? = ws[k]?.map fun w => w.extractLsb' (8 * j) 8
  | [], _ => by simp
  | w :: ws, 0 => by
    rw [List.flatMap_cons, Nat.mul_zero, Nat.zero_add, List.getElem?_append_left (by simpa [wordBytes] using hj),
      wordBytes_getElem? w hj]
    rfl
  | w :: ws, k + 1 => by
    have hpos : 4 * (k + 1) + j = (wordBytes w).length + (4 * k + j) := by simp [wordBytes]; omega
    rw [List.flatMap_cons, hpos, List.getElem?_append_right (Nat.le_add_right _ _), Nat.add_sub_cancel_left,
      flatMap_wordBytes_getElem? hj ws k, List.getElem?_cons_succ]

/-- Unpacking a packed block gives the block and its zero padding (R55, R83). -/
theorem flatMap_wordBytes_packBytes : ∀ l : List Byte,
    (packBytes l).flatMap wordBytes = l ++ List.replicate (4 * dataWords l.length - l.length) 0
  | [] => rfl
  | [_] | [_, _] | [_, _, _] => by simp [packBytes, wordBytes_bytesWord, dataWords, List.replicate]
  | a :: b :: c :: d :: rest => by
    have hpad : 4 * dataWords (rest.length + 4) - (rest.length + 4) = 4 * dataWords rest.length - rest.length := by
      simp only [dataWords]; omega
    simp [packBytes, wordBytes_bytesWord, flatMap_wordBytes_packBytes rest, hpad]

/-- Zero padding is not seen by a read that is 0 beyond the end. -/
theorem getD_append_replicate {α : Type} (l : List α) (n i : Nat) (a : α) :
    (l ++ List.replicate n a).getD i a = l.getD i a := by
  rcases Nat.lt_or_ge i l.length with h | h
  · exact List.getD_append _ _ _ _ h
  · rw [List.getD_append_right _ _ _ _ h, List.getD_eq_default _ _ h, List.getD_eq_getElem?_getD,
      List.getElem?_getD_replicate_default_eq]

/-- Settles O7: a word's byte is read from the unpacked words, which are the block and zeros. -/
theorem dataWordsLittleEndian : Obligations.DataWordsLittleEndian := by
  have unpack (ws : List Word) (k j : Nat) (w : Word) (hj : j < 4) (hw : ws[k]? = some w) :
      (ws.flatMap wordBytes)[4 * k + j]? = some (w.extractLsb' (8 * j) 8) := by
    rw [flatMap_wordBytes_getElem? hj, hw, Option.map_some]
  refine ⟨Laws.packBytes_length, fun l k j w hj hw => ?_, unpack⟩
  have hbyte := unpack (packBytes l) k j w hj hw
  rw [flatMap_wordBytes_packBytes] at hbyte
  rw [← getD_append_replicate l, List.getD_eq_getElem?_getD, hbyte, Option.getD_some]

end Sys2Proof
end

section
/-! PROOFS. O10 (R60, R80, R177): the schedule's first entry, when enabled, is the move performed, and each agent's move is
exec of its instruction. -/

namespace Sys2Proof.Safety

open Sys2Proof.Machine

theorem step_of_chooseMove {s s' : State} {m : Move} (h : chooseMove s = some (m, s')) : step s = perform m s' := by
  simp only [step, nextMicroStep, h]

theorem step_scheduled {s : State} {m : Move} {q : List Move} (he : enabled s m = true) (hs : s.sched = m :: q) :
    step s = perform m (s.withSched q) :=
  step_of_chooseMove (chooseMove_head hs he)

theorem chooseMove_unscheduled {s : State} {m : Move} (hs : s.sched = []) (hm : enabledMoves s = [m]) :
    chooseMove s = some (m, s) := by
  have hsame : s.withSched [] = s := by rw [← hs]; rfl
  simp [chooseMove, hs, hm, hsame]

theorem length_of_decodeTpWrite {w : Word} {ws : List Word} {p : Instr × List Word} (h : decodeTpWrite w ws = .ok p) :
    dataWords (immOf w).toNat ≤ ws.length := by
  by_contra hshort
  simp only [decodeTpWrite, if_pos (Nat.lt_of_not_le hshort)] at h
  split at h <;> cases h

/-- What the port's decoder reads is there whole (R80, R87). -/
theorem wholeCommand_of_decodeCommand {ws rest : List Word} {i : Instr} (h : decodeCommand ws = .ok (i, rest)) :
    wholeCommand ws = true := by
  cases ws with
  | nil => cases h
  | cons w ws =>
    refine decide_eq_true ?_
    rw [commandLength]
    split
    · rename_i hop
      simp only [decodeCommand, decode, if_pos hop] at h
      split at h
      · cases h
      · exact Nat.add_le_add_left (length_of_decodeTpWrite ‹_›) 1
    · exact Nat.le_add_right 1 ws.length

theorem enabled_host {s : State} (free : HostFree s) (hw : hostHasWork s = true) : enabled s .host = true := by
  simp [enabled, free, hw]

theorem hostMove_running {i : Instr} {s : State} (hc : s.host.cmd = some i) : hostMove s = exec i s := by
  simp only [hostMove, hc]

/-- An idle HOST's micro-step is the acceptance of the command its port decodes to (R80). -/
theorem hostMove_accepts {i : Instr} {s : State} {rest : List Word} (hc : s.host.cmd = none)
    (hd : decodeCommand s.host.port = .ok (i, rest)) :
    hostMove s = exec i (s.withHost { s.host with port := rest }) := by
  cases hport : s.host.port with
  | nil => rw [hport] at hd; cases hd
  | cons w ws =>
    rw [hport] at hd
    simp only [hostMove, hc, acceptNext, hport, hd]

/-- Settles O10: each of these moves is enabled, so the schedule has its way, and the move is exec of its instruction. -/
theorem stepRunsDecodedInstruction : Obligations.StepRunsDecodedInstruction := by
  refine ⟨fun s i rest q idle hd hs => ?_, fun s i q run hs => ?_, fun s q free hw hs => ?_, fun s q free hw hs => ?_,
    fun s q hf ha hs => ?_, fun s q hf ha hs => ?_, fun s m q => step_scheduled, fun s m hs hm => ?_⟩
  · have hwork : hostHasWork s = true := by simp [hostHasWork, wholeCommand_of_decodeCommand hd]
    exact (step_scheduled (enabled_host idle.1 hwork) hs).trans (hostMove_accepts (s := s.withSched q) idle.2 hd)
  · have hwork : hostHasWork s = true := by simp [hostHasWork, run.2]
    exact (step_scheduled (enabled_host run.1 hwork) hs).trans (hostMove_running (s := s.withSched q) run.2)
  · exact step_scheduled (by simp [enabled, free, hw]) hs
  · exact step_scheduled (by simp [enabled, free, hw]) hs
  · rw [step_scheduled (by simp [enabled, hf, ha]) hs]
    simp only [perform, isrMove, State.withSched_isr, ha]
  · rw [step_scheduled (by simp [enabled, hf, ha]) hs]
    simp only [perform, isrMove, State.withSched_isr, ha]
  · exact step_of_chooseMove (chooseMove_unscheduled hs hm)

end Sys2Proof.Safety
end

section
/-! PROOFS. The fields of a command word (R81) and the bytes of its data words (R83): a word is its fields, so a word of each
format is told by its fields, and data words with zero padding are their bytes, packed. -/

namespace Sys2Proof

/-! ### A word is its fields -/

/-- Two fields that meet are one field. -/
theorem extract_append_extract (w : Word) (k m n : Nat) :
    w.extractLsb' (k + m) n ++ w.extractLsb' k m = w.extractLsb' k (n + m) :=
  BitVec.extractLsb'_append_extractLsb'_eq_extractLsb' rfl

theorem midOf_eq (w : Word) : midOf w = wcOf w ++ rsOf w := (extract_append_extract w 16 4 4).symm

theorem immOf_eq (w : Word) : immOf w = immHiOf w ++ byteOf w := (extract_append_extract w 0 8 8).symm

theorem word_eq_fields (w : Word) : w = opOf w ++ midOf w ++ immOf w := by
  have high : opOf w ++ midOf w = w.extractLsb' 16 16 := extract_append_extract w 16 8 8
  rw [high]
  exact BitVec.extractLsb'_eq_self.symm.trans (extract_append_extract w 0 16 16).symm

theorem bitVec_append_inj {n m : Nat} {x x' : BitVec n} {y y' : BitVec m} : x ++ y = x' ++ y' ↔ x = x' ∧ y = y' := by
  refine ⟨fun h => ⟨?_, ?_⟩, fun ⟨hx, hy⟩ => by rw [hx, hy]⟩
  · rw [← Laws.extract_high x y, h, Laws.extract_high]
  · rw [← Laws.extract_low x y, h, Laws.extract_low]

/-- WC lies in the must-be-zero field of Formats T and C. -/
theorem wcOf_eq_zero {w : Word} (h : midOf w = 0) : wcOf w = 0 :=
  (bitVec_append_inj (y' := 0#4)).1 ((midOf_eq w).symm.trans h) |>.1

/-- A zero-extended byte as immediate is a byte below must-be-zero bits. -/
theorem immOf_eq_setWidth_iff (w : Word) (b : Byte) : immOf w = b.setWidth 16 ↔ immHiOf w = 0 ∧ byteOf w = b := by
  have zext : b.setWidth 16 = 0#8 ++ b := BitVec.setWidth_eq_append (by decide)
  rw [immOf_eq, zext, bitVec_append_inj]
  rfl

/-! ### A word of each format is told by its fields -/

theorem eq_formatR_iff (w : Word) (op : Byte) (r : RingSel) (imm : Half) :
    w = formatR op r imm ↔ opOf w = op ∧ wcOf w = 0 ∧ rsOf w = ringCode r ∧ immOf w = imm := by
  have format : formatR op r imm = op ++ (0#4 ++ ringCode r) ++ imm := by
    rw [formatR, BitVec.append_assoc (x₁ := op)]
    rfl
  conv_lhs => rw [word_eq_fields w, format, midOf_eq]
  rw [bitVec_append_inj, bitVec_append_inj, bitVec_append_inj, and_assoc, and_assoc]
  rfl

theorem eq_formatT_iff (w : Word) (op : Byte) (n : Half) :
    w = formatT op n ↔ opOf w = op ∧ midOf w = 0 ∧ immOf w = n := by
  conv_lhs => rw [word_eq_fields w, formatT]
  rw [bitVec_append_inj, bitVec_append_inj, and_assoc]
  rfl

theorem eq_formatC_iff (w : Word) (op b : Byte) :
    w = formatC op b ↔ opOf w = op ∧ midOf w = 0 ∧ immHiOf w = 0 ∧ byteOf w = b := by
  have format : formatC op b = op ++ 0#8 ++ (0#8 ++ b) := by
    rw [BitVec.append_assoc' (x₁ := op ++ 0#8), BitVec.append_assoc (x₁ := op)]
    rfl
  conv_lhs => rw [word_eq_fields w, format, immOf_eq]
  rw [bitVec_append_inj, bitVec_append_inj, bitVec_append_inj, and_assoc]
  rfl

theorem toNat_ringCode_lt (r : RingSel) : (ringCode r).toNat < 2 := by cases r <;> decide

theorem exists_ringCode {x : BitVec 4} (h : ¬ 2 ≤ x.toNat) : ∃ r, x = ringCode r := by
  obtain h0 | h1 : x.toNat = 0 ∨ x.toNat = 1 := by omega
  · exact ⟨.rx, BitVec.eq_of_toNat_eq h0⟩
  · exact ⟨.tx, BitVec.eq_of_toNat_eq h1⟩

/-! ### Data words (R55, R83) -/

theorem bytesWord_wordBytes (w : Word) :
    bytesWord (w.extractLsb' 0 8) (w.extractLsb' 8 8) (w.extractLsb' 16 8) (w.extractLsb' 24 8) = w := by
  have high : w.extractLsb' 24 8 ++ w.extractLsb' 16 8 = w.extractLsb' 16 16 := extract_append_extract w 16 8 8
  have upper : w.extractLsb' 16 16 ++ w.extractLsb' 8 8 = w.extractLsb' 8 24 := extract_append_extract w 8 8 16
  rw [bytesWord, high, upper]
  exact (extract_append_extract w 0 8 24).trans BitVec.extractLsb'_eq_self

theorem packBytes_flatMap_wordBytes (ws : List Word) : packBytes (ws.flatMap wordBytes) = ws := by
  induction ws with
  | nil => rfl
  | cons w ws ih =>
    calc packBytes ((w :: ws).flatMap wordBytes)
      _ = bytesWord _ _ _ _ :: packBytes (ws.flatMap wordBytes) := rfl
      _ = w :: ws := by rw [bytesWord_wordBytes, ih]

/-- Data words for `n` bytes whose padding is zero are their first `n` bytes, packed: both unpack to the same bytes. -/
theorem packBytes_take {ws : List Word} {n : Nat} (hlen : ws.length = dataWords n)
    (hpad : ∀ b ∈ (ws.flatMap wordBytes).drop n, b = 0) :
    ((ws.flatMap wordBytes).take n).length = n ∧ packBytes ((ws.flatMap wordBytes).take n) = ws := by
  have total : (ws.flatMap wordBytes).length = 4 * dataWords n := by
    simp [List.length_flatMap, wordBytes, hlen, Nat.mul_comm]
  have length : ((ws.flatMap wordBytes).take n).length = n := by
    rw [List.length_take, total, dataWords]
    omega
  have padding : (ws.flatMap wordBytes).drop n = List.replicate (4 * dataWords n - n) 0 :=
    List.eq_replicate_iff.2 ⟨by rw [List.length_drop, total], hpad⟩
  have unpacked := flatMap_wordBytes_packBytes ((ws.flatMap wordBytes).take n)
  rw [length, ← padding, List.take_append_drop] at unpacked
  exact ⟨length, by rw [← packBytes_flatMap_wordBytes (packBytes _), unpacked, packBytes_flatMap_wordBytes]⟩

end Sys2Proof
end

section
/-! PROOFS. O1, O2, O3 (R84, R87, R88): each format's decoder reads exactly the words of its format, so the port reads exactly
the encodings of well-formed commands. -/

namespace Sys2Proof

/-! ### What each format's decoder reads (R81, R86) -/

theorem decodeRing_eq_ok_iff {w : Word} {r : RingSel} :
    decodeRing w = .ok r ↔ wcOf w = 0 ∧ rsOf w = ringCode r := by
  unfold decodeRing
  split_ifs with hwc h0 h1
  · simpa using fun h => absurd h hwc
  all_goals cases r <;> simp_all [ringCode]

section Formats

variable {w : Word} {op : Byte} (hop : opOf w = op)
include hop

theorem decodeRingOnly_eq_ok_iff {mk : RingSel → Instr} {i : Instr} :
    decodeRingOnly w mk = .ok i ↔ ∃ r, mk r = i ∧ w = formatR op r 0 := by
  have format (r) : w = formatR op r 0 ↔ decodeRing w = .ok r ∧ immOf w = 0 := by
    rw [eq_formatR_iff, decodeRing_eq_ok_iff, and_iff_right hop, and_assoc]
  simp only [format, decodeRingOnly]
  cases decodeRing w with
  | error e => simp
  | ok r => by_cases himm : immOf w = 0#16 <;> simp [himm]

theorem decodeTNone_eq_ok_iff {i j : Instr} : decodeTNone w i = .ok j ↔ i = j ∧ w = formatT op 0 := by
  rw [eq_formatT_iff, and_iff_right hop, decodeTNone]
  split_ifs <;> simp_all

theorem decodeC_eq_ok_iff {mk : Byte → Except DecodeError Instr} {i : Instr} :
    decodeC w mk = .ok i ↔ ∃ b, mk b = .ok i ∧ w = formatC op b := by
  simp only [eq_formatC_iff, and_iff_right hop, decodeC]
  split_ifs <;> simp_all

theorem decodeCNone_eq_ok_iff {i j : Instr} : decodeCNone w i = .ok j ↔ i = j ∧ w = formatC op 0 := by
  rw [decodeCNone, decodeC_eq_ok_iff hop]
  constructor
  · rintro ⟨b, hb, hw⟩
    split at hb
    · subst b
      exact ⟨Except.ok.inj hb, hw⟩
    · cases hb
  · rintro ⟨rfl, hw⟩
    exact ⟨0, if_pos rfl, hw⟩

end Formats

/-! ### One-word instructions -/

@[simp] theorem opOf_encodeHead (i : Instr) : opOf (encodeHead i) = opcode i := by
  cases i with
  | rbInit | rbWrite | rbRead | rbStatus | rbOcc | rbFree => exact Laws.opOf_formatR _ _ _
  | tpInit | tpWrite | tpRead | tpReadable | tpWriteable => exact Laws.opOf_formatT _ _
  | fcStart | fcPush | fcFinish | fcPull | evTxc | evRxd => exact Laws.opOf_formatC _ _

theorem exists_bytes_of_opcode {i : Instr} (h : opcode i = 0x21) : ∃ bytes, i = .tpWrite bytes := by
  cases i with
  | tpWrite bytes => exact ⟨bytes, rfl⟩
  | _ => exact absurd h (by simp [opcode])

/-- Every instruction but TP_WRITE has an encoding, of one word. -/
theorem encode_one {i : Instr} (h : opcode i ≠ 0x21) : i.wellFormed = true ∧ encode i = [encodeHead i] := by
  cases i with
  | tpWrite => exact absurd rfl h
  | _ => exact ⟨rfl, rfl⟩

/-- The first word of a one-word instruction is read as that instruction. -/
theorem decodeOne_of_eq_encodeHead {w : Word} {i : Instr} (hw : w = encodeHead i) (hi : opcode i ≠ 0x21) :
    decodeOne w = .ok i := by
  have hop : opOf w = opcode i := by rw [hw, opOf_encodeHead]
  unfold decodeOne
  rw [hop]
  cases i with
  | rbInit r c =>
    obtain ⟨-, hwc, hrs, himm⟩ := (eq_formatR_iff _ _ _ _).1 hw
    simp [opcode, decodeRing_eq_ok_iff.2 ⟨hwc, hrs⟩, himm]
  | rbWrite r b =>
    obtain ⟨-, hwc, hrs, himm⟩ := (eq_formatR_iff _ _ _ _).1 hw
    obtain ⟨hhi, hb⟩ := (immOf_eq_setWidth_iff w b).1 himm
    simp [opcode, decodeRing_eq_ok_iff.2 ⟨hwc, hrs⟩, hhi, hb]
  | rbRead r | rbStatus r | rbOcc r | rbFree r => exact (decodeRingOnly_eq_ok_iff hop).2 ⟨r, rfl, hw⟩
  | tpInit | tpReadable | tpWriteable => exact (decodeTNone_eq_ok_iff hop).2 ⟨rfl, hw⟩
  | tpRead n =>
    obtain ⟨-, hmid, hn⟩ := (eq_formatT_iff _ _ _).1 hw
    simp [opcode, hmid, hn]
  | fcStart | fcFinish | fcPull => exact (decodeCNone_eq_ok_iff hop).2 ⟨rfl, hw⟩
  | fcPush b => exact (decodeC_eq_ok_iff hop).2 ⟨b, rfl, hw⟩
  | evTxc | evRxd => rfl
  | tpWrite => exact absurd rfl hi

/-- A word read as a one-word command is that command's first word: no bit of it is dropped (R88). The cases are the rows of
the opcode map (R84) in order. -/
theorem encodeHead_of_decodeOne {w : Word} {i : Instr} (h : decodeOne w = .ok i) (hi : i.isCommand = true) :
    w = encodeHead i := by
  have ringOnly {op mk} (hop : opOf w = op) (h : decodeRingOnly w mk = .ok i)
      (hmk : ∀ r, encodeHead (mk r) = formatR op r 0) : w = encodeHead i := by
    obtain ⟨r, rfl, hw⟩ := (decodeRingOnly_eq_ok_iff hop).1 h
    rw [hw, hmk]
  have tNone {op j} (hop : opOf w = op) (h : decodeTNone w j = .ok i) (hj : encodeHead j = formatT op 0) :
      w = encodeHead i := by
    obtain ⟨rfl, hw⟩ := (decodeTNone_eq_ok_iff hop).1 h
    rw [hw, hj]
  have cNone {op j} (hop : opOf w = op) (h : decodeCNone w j = .ok i) (hj : encodeHead j = formatC op 0) :
      w = encodeHead i := by
    obtain ⟨rfl, hw⟩ := (decodeCNone_eq_ok_iff hop).1 h
    rw [hw, hj]
  unfold decodeOne at h
  split at h
  case h_1 hop => -- RB_INIT
    split at h
    · cases h
    · rename_i hr
      cases h
      obtain ⟨hwc, hrs⟩ := decodeRing_eq_ok_iff.1 hr
      exact (eq_formatR_iff _ _ _ _).2 ⟨hop, hwc, hrs, rfl⟩
  case h_2 hop => -- RB_WRITE
    split at h
    · cases h
    · rename_i hr
      split at h
      · rename_i hhi
        cases h
        obtain ⟨hwc, hrs⟩ := decodeRing_eq_ok_iff.1 hr
        exact (eq_formatR_iff _ _ _ _).2 ⟨hop, hwc, hrs, (immOf_eq_setWidth_iff w _).2 ⟨hhi, rfl⟩⟩
      · cases h
  case h_3 hop | h_4 hop | h_5 hop | h_6 hop => exact ringOnly hop h fun _ => rfl
  case h_7 hop | h_9 hop | h_10 hop => exact tNone hop h rfl
  case h_8 hop => -- TP_READ
    split at h
    · cases h
    · rename_i hmid
      cases h
      exact (eq_formatT_iff _ _ _).2 ⟨hop, not_not.1 hmid, rfl⟩
  case h_11 hop | h_13 hop | h_14 hop => exact cNone hop h rfl
  case h_12 hop => -- FC_PUSH
    obtain ⟨b, hb, hw⟩ := (decodeC_eq_ok_iff hop).1 h
    cases hb
    exact hw
  case h_15 | h_16 => cases h; cases hi
  case h_17 => cases h

/-! ### TP_WRITE (R83, R87) -/

/-- The padding must be zero, the payload is what stands before it, and the words after the data words are left. -/
theorem decodeTpWrite_eq_ok_iff {w : Word} {ws rest : List Word} {i : Instr} {n : Nat} (hn : (immOf w).toNat = n) :
    decodeTpWrite w ws = .ok (i, rest) ↔
      midOf w = 0 ∧ dataWords n ≤ ws.length ∧ (∀ b ∈ ((ws.take (dataWords n)).flatMap wordBytes).drop n, b = 0) ∧
      .tpWrite (((ws.take (dataWords n)).flatMap wordBytes).take n) = i ∧ ws.drop (dataWords n) = rest := by
  simp only [decodeTpWrite, hn, List.all_eq_true, beq_iff_eq]
  split_ifs with hmid hlen hpad
  · simpa using fun h => absurd h hmid
  · simpa using fun _ h => absurd hlen (Nat.not_lt.2 h)
  · rw [Except.ok.injEq, Prod.mk.injEq, and_iff_right (not_not.1 hmid), and_iff_right (Nat.not_lt.1 hlen),
      and_iff_right hpad]
  · simpa using fun _ _ h => absurd h hpad

theorem eq_encode_of_decodeTpWrite {w : Word} {ws rest : List Word} {i : Instr} (hop : opOf w = 0x21)
    (h : decodeTpWrite w ws = .ok (i, rest)) : i.wellFormed = true ∧ w :: ws = encode i ++ rest := by
  obtain ⟨hmid, hlen, hpad, hi, hrest⟩ := (decodeTpWrite_eq_ok_iff rfl).1 h
  obtain ⟨length, packed⟩ := packBytes_take (by rw [List.length_take, Nat.min_eq_left hlen]) hpad
  generalize ((ws.take _).flatMap wordBytes).take _ = bytes at hi length packed
  subst i rest
  have head : w = encodeHead (.tpWrite bytes) :=
    (eq_formatT_iff _ _ _).2 ⟨hop, hmid, by rw [length, BitVec.ofNat_toNat, BitVec.setWidth_eq]⟩
  refine ⟨decide_eq_true ?_, ?_⟩
  · rw [length]
    exact Nat.le_of_lt_succ (immOf w).isLt
  · rw [encode, ← head, encodeTail, packed, List.cons_append, List.take_append_drop]

theorem decodeTpWrite_encode {bytes : List Byte} (rest : List Word) (h : bytes.length ≤ 65535) :
    decodeTpWrite (encodeHead (.tpWrite bytes)) (packBytes bytes ++ rest) = .ok (.tpWrite bytes, rest) := by
  obtain ⟨-, hmid, himm⟩ := (eq_formatT_iff _ _ _).1 (rfl : encodeHead (.tpWrite bytes) = _)
  have hn : (immOf (encodeHead (.tpWrite bytes))).toNat = bytes.length := by
    rw [himm, BitVec.toNat_ofNat, Nat.mod_eq_of_lt (Nat.lt_succ_of_le h)]
  have htake : (packBytes bytes ++ rest).take (dataWords bytes.length) = packBytes bytes :=
    List.take_left' (Laws.packBytes_length bytes)
  rw [decodeTpWrite_eq_ok_iff hn, htake, flatMap_wordBytes_packBytes]
  refine ⟨hmid, ?_, ?_, ?_, ?_⟩
  · simp [Laws.packBytes_length]
  · simp [List.drop_left']
  · rw [List.take_left' rfl]
  · exact List.drop_left' (Laws.packBytes_length bytes)

/-! ### The whole decoder -/

/-- Settles O2: the first word carries the opcode, and the decoder of its row reads the encoding. -/
theorem decodeOfEncode : Obligations.DecodeOfEncode := by
  intro i rest hwf
  by_cases hop : opcode i = 0x21
  · obtain ⟨bytes, rfl⟩ := exists_bytes_of_opcode hop
    rw [encode, List.cons_append, decode, opOf_encodeHead, if_pos hop]
    exact decodeTpWrite_encode rest (of_decide_eq_true hwf)
  · rw [(encode_one hop).2, List.singleton_append, decode, opOf_encodeHead, if_neg hop,
      decodeOne_of_eq_encodeHead rfl hop]

theorem eq_encode_of_decode {ws rest : List Word} {i : Instr} (hi : i.isCommand = true)
    (h : decode ws = .ok (i, rest)) : i.wellFormed = true ∧ ws = encode i ++ rest := by
  cases ws with
  | nil => cases h
  | cons w ws =>
    rw [decode] at h
    split at h
    · exact eq_encode_of_decodeTpWrite ‹_› h
    · rename_i hop
      split at h
      · cases h
      · rename_i hone
        cases h
        have hw := encodeHead_of_decodeOne hone hi
        obtain ⟨hwf, henc⟩ := encode_one (i := i) (by rwa [← opOf_encodeHead, ← hw])
        exact ⟨hwf, by rw [henc, hw]; rfl⟩

theorem decode_of_decodeCommand {ws rest : List Word} {i : Instr} (h : decodeCommand ws = .ok (i, rest)) :
    decode ws = .ok (i, rest) := by
  unfold decodeCommand at h
  split at h
  · cases h
  · split at h
    · cases h
      assumption
    · cases h

/-- The port reads exactly the encodings of well-formed commands (R85, R88). -/
theorem decodeCommand_eq_ok_iff {ws rest : List Word} {i : Instr} :
    decodeCommand ws = .ok (i, rest) ↔ i.isCommand = true ∧ i.wellFormed = true ∧ ws = encode i ++ rest := by
  constructor
  · intro h
    have hi := Safety.isCommand_of_decodeCommand h
    exact ⟨hi, eq_encode_of_decode hi (decode_of_decodeCommand h)⟩
  · rintro ⟨hi, hwf, rfl⟩
    simp only [decodeCommand, decodeOfEncode i rest hwf, if_pos hi]

/-- Settles O3, by the words the port reads. -/
theorem decodedWordsAreTheEncoding : Obligations.DecodedWordsAreTheEncoding :=
  fun _ _ _ h => decodeCommand_eq_ok_iff.1 h

/-- Settles O1, by evaluating the ten examples. -/
theorem encodingExamples : Obligations.EncodingExamples := by
  unfold Obligations.EncodingExamples
  decide

end Sys2Proof
end

section
/-! PROOFS. O4, O5 (R81, R85 to R87): the words a command takes, and the words that are no command. -/

namespace Sys2Proof.Safety

/-! ### A command's length (R87) -/

theorem commandLength_tpWrite {w : Word} (h : opOf w = 0x21) : commandLength w = dataWords (immOf w).toNat + 1 := by
  rw [commandLength, if_pos h, Nat.add_comm]

theorem commandLength_one {w : Word} (h : opOf w ≠ 0x21) : commandLength w = 1 := if_neg h

theorem decodeTpWrite_take {w : Word} {ws : List Word} (h : dataWords (immOf w).toNat ≤ ws.length) :
    decodeTpWrite w ws =
      (decodeTpWrite w (ws.take (dataWords (immOf w).toNat))).map fun x => (x.1, ws.drop (dataWords (immOf w).toNat)) := by
  simp only [decodeTpWrite, List.take_take, Nat.min_self, List.length_take, Nat.min_eq_left h, Nat.lt_irrefl,
    Nat.not_lt.2 h, if_false]
  split_ifs <;> rfl

/-- The decoder reads the words of the first command and no others. -/
theorem decode_take {w : Word} {ws : List Word} (h : commandLength w ≤ 1 + ws.length) :
    decode (w :: ws) =
      (decode ((w :: ws).take (commandLength w))).map fun x => (x.1, (w :: ws).drop (commandLength w)) := by
  by_cases hop : opOf w = 0x21
  · rw [commandLength_tpWrite hop] at h ⊢
    simp only [List.take_succ_cons, List.drop_succ_cons, decode, if_pos hop]
    exact decodeTpWrite_take (by omega)
  · simp only [commandLength_one hop, List.take_succ_cons, List.drop_succ_cons, decode, if_neg hop]
    cases decodeOne w <;> rfl

/-- Settles O4: N alone gives TP_WRITE's length, and no other opcode has data words. -/
theorem lengthFromFirstWord : Obligations.LengthFromFirstWord := by
  refine ⟨fun w hop => ?_, fun w hop => commandLength_one hop, fun w ws h => ⟨?_, decode_take h⟩⟩
  · rw [commandLength_tpWrite hop, dataWords]
    omega
  · exact decode_ne_short (decide_eq_true h)

/-! ### Legal words (R81, R84 to R86) -/

/-- A command that decodes is none of the illegal ones: every field is as its encoding has it. -/
theorem legal_of_decodeCommand {w : Word} {ws rest : List Word} {i : Instr}
    (h : decodeCommand (w :: ws) = .ok (i, rest)) : ¬ IllegalWords w ws := by
  obtain ⟨hi, -, henc⟩ := decodeCommand_eq_ok_iff.1 h
  have hw : w = encodeHead i := (List.cons.inj henc).1
  cases i with
  | rbInit r | rbRead r | rbStatus r | rbOcc r | rbFree r =>
    obtain ⟨hop, hwc, hrs, himm⟩ := (eq_formatR_iff _ _ _ _).1 hw
    simp [hop, hwc, hrs, himm, toNat_ringCode_lt r, ringOpcodes, transportOpcodes, codecOpcodes]
  | rbWrite r b =>
    obtain ⟨hop, hwc, hrs, himm⟩ := (eq_formatR_iff _ _ _ _).1 hw
    obtain ⟨hhi, -⟩ := (immOf_eq_setWidth_iff w b).1 himm
    simp [hop, hwc, hrs, hhi, toNat_ringCode_lt r, ringOpcodes, transportOpcodes, codecOpcodes]
  | tpInit | tpRead | tpReadable | tpWriteable =>
    obtain ⟨hop, hmid, himm⟩ := (eq_formatT_iff _ _ _).1 hw
    simp [hop, hmid, himm, wcOf_eq_zero hmid, ringOpcodes, transportOpcodes, codecOpcodes]
  | tpWrite bytes =>
    obtain ⟨hop, hmid, -⟩ := (eq_formatT_iff _ _ _).1 hw
    have hdec : decodeTpWrite w ws = .ok (.tpWrite bytes, rest) := by
      simpa [decode, hop] using decode_of_decodeCommand h
    obtain ⟨-, -, hpad, -⟩ := (decodeTpWrite_eq_ok_iff rfl).1 hdec
    simpa [hop, hmid, wcOf_eq_zero hmid, ringOpcodes, transportOpcodes, codecOpcodes] using hpad
  | fcStart | fcPush | fcFinish | fcPull =>
    obtain ⟨hop, hmid, hhi, hb⟩ := (eq_formatC_iff _ _ _).1 hw
    simp [hop, hmid, hhi, hb, wcOf_eq_zero hmid, ringOpcodes, transportOpcodes, codecOpcodes]
  | evTxc | evRxd => cases hi

/-- A whole command that is none of the illegal ones encodes the command that its opcode names. -/
theorem decodeCommand_of_legal {w : Word} {ws : List Word} (hlen : commandLength w ≤ 1 + ws.length)
    (h : ¬ IllegalWords w ws) : ∃ i rest, decodeCommand (w :: ws) = .ok (i, rest) := by
  simp only [IllegalWords, not_or, not_and, not_not] at h
  obtain ⟨hop, hrs, hwc, hmid, hhi, himm, hn, hb, hpad, hhiC⟩ := h
  have one (i : Instr) (hw : w = encodeHead i) (hi : i.isCommand = true := by rfl)
      (hne : opcode i ≠ 0x21 := by simp [opcode]) : ∃ i rest, decodeCommand (w :: ws) = .ok (i, rest) := by
    obtain ⟨hwf, henc⟩ := encode_one hne
    exact ⟨i, ws, decodeCommand_eq_ok_iff.2 ⟨hi, hwf, by rw [henc, hw]; rfl⟩⟩
  rw [List.append_assoc, List.mem_append, List.mem_append] at hop
  rcases hop with hring | htransport | hcodec
  · obtain ⟨r, hr⟩ := exists_ringCode (hrs hring)
    have head {op imm} (hop : opOf w = op) (himm : immOf w = imm) : w = formatR op r imm :=
      (eq_formatR_iff _ _ _ _).2 ⟨hop, hwc, hr, himm⟩
    simp only [ringOpcodes, List.mem_cons, List.not_mem_nil, or_false] at hring
    rcases hring with hop | hop | hop | hop | hop | hop
    · exact one (.rbInit r _) (head hop rfl)
    · exact one (.rbWrite r _) (head hop ((immOf_eq_setWidth_iff w _).2 ⟨hhi hop, rfl⟩))
    · exact one (.rbRead r) (head hop (himm (by simp [hop])))
    · exact one (.rbStatus r) (head hop (himm (by simp [hop])))
    · exact one (.rbOcc r) (head hop (himm (by simp [hop])))
    · exact one (.rbFree r) (head hop (himm (by simp [hop])))
  · have hmid : midOf w = 0 := hmid (List.mem_append_left _ htransport)
    have head {op n} (hop : opOf w = op) (hn : immOf w = n) : w = formatT op n :=
      (eq_formatT_iff _ _ _).2 ⟨hop, hmid, hn⟩
    simp only [transportOpcodes, List.mem_cons, List.not_mem_nil, or_false] at htransport
    rcases htransport with hop | hop | hop | hop | hop
    · exact one .tpInit (head hop (hn (by simp [hop])))
    · rw [commandLength_tpWrite hop, Nat.add_comm 1] at hlen
      have hdec := (decodeTpWrite_eq_ok_iff rfl).2
        ⟨hmid, Nat.le_of_succ_le_succ hlen, by simpa using hpad hop, rfl, rfl⟩
      obtain ⟨hwf, henc⟩ := eq_encode_of_decodeTpWrite hop hdec
      exact ⟨_, _, decodeCommand_eq_ok_iff.2 ⟨rfl, hwf, henc⟩⟩
    · exact one (.tpRead _) (head hop rfl)
    · exact one .tpReadable (head hop (hn (by simp [hop])))
    · exact one .tpWriteable (head hop (hn (by simp [hop])))
  · have head {op b} (hop : opOf w = op) (hb : byteOf w = b) : w = formatC op b :=
      (eq_formatC_iff _ _ _).2 ⟨hop, hmid (List.mem_append_right _ hcodec), hhiC hcodec, hb⟩
    simp only [codecOpcodes, List.mem_cons, List.not_mem_nil, or_false] at hcodec
    rcases hcodec with hop | hop | hop | hop
    · exact one .fcStart (head hop (hb (by simp [hop])))
    · exact one (.fcPush _) (head hop rfl)
    · exact one .fcFinish (head hop (hb (by simp [hop])))
    · exact one .fcPull (head hop (hb (by simp [hop])))

/-- Settles O5: a command that decodes is legal, and a legal whole command decodes. -/
theorem legalWordsDecode : Obligations.LegalWordsDecode :=
  fun _ _ hlen => ⟨fun ⟨_, _, h⟩ => legal_of_decodeCommand h, decodeCommand_of_legal hlen⟩

end Sys2Proof.Safety
end

section
/-! PROOFS. O6 (R86, R174): an illegal command is not decoded or not accepted, and either way the acceptance micro-step faults
ILLEGAL. -/

namespace Sys2Proof.Safety

open Sys2Proof.Machine

theorem hostMove_idle {s : State} (hc : s.host.cmd = none) : hostMove s = acceptNext s := by
  simp only [hostMove, hc]

/-- An idle HOST takes the command its port decodes to and accepts or refuses it (R80). -/
theorem hostMove_takes {s : State} {i : Instr} {rest : List Word} (idle : IdleHost s)
    (hd : decodeCommand s.host.port = .ok (i, rest)) :
    hostMove s = .next (acceptCommand i (s.withHost { s.host with port := rest })) := by
  rw [hostMove_accepts idle.2 hd]
  exact exec_accept (s := s.withHost _) idle (isCommand_of_decodeCommand hd)

theorem faults_takeFault (code : Byte) (s : State) : Faults code s (takeFault .host code s) := ⟨.start, rfl⟩

theorem acceptNext_illegal {s : State} {w : Word} {ws : List Word} (hport : s.host.port = w :: ws)
    (hwhole : commandLength w ≤ 1 + ws.length) (h : IllegalWords w ws) :
    ∃ port, acceptNext s = raiseHost codeIllegal (s.withHost { s.host with port := port }) := by
  refine ⟨(w :: ws).drop (commandLength w), ?_⟩
  simp only [acceptNext, hport]
  cases hdec : decodeCommand (w :: ws) with
  | ok p => exact absurd h (legal_of_decodeCommand hdec)
  | error e =>
    cases e with
    | short => exact absurd hdec (decodeCommand_ne_short (decide_eq_true hwhole))
    | _ => rfl

/-- R86 (f): RB_INIT with another capacity than the ring's is not accepted. -/
theorem not_accepted_of_illegalCapacity {p : Params} {i : Instr} (h : IllegalCapacity p (encodeHead i)) :
    i.accepted p = false := by
  obtain ⟨hop, hcap⟩ := h
  rw [opOf_encodeHead] at hop
  cases i with
  | rbInit r c =>
    obtain ⟨-, -, hrs, himm⟩ := (eq_formatR_iff _ _ r c).1 (rfl : encodeHead (.rbInit r c) = _)
    have hring : (if ringCode r = 0 then RingSel.rx else .tx) = r := by cases r <;> rfl
    rw [hrs, himm, hring] at hcap
    simp [Instr.accepted, Instr.capacityMatches, hcap]
  | _ => simp [opcode] at hop

/-- Settles O6: illegal words are not decoded, and an illegal capacity is refused at acceptance. -/
theorem illegalCommandFaults : Obligations.IllegalCommandFaults := by
  intro s w ws idle hport hwhole h
  by_cases hill : IllegalWords w ws
  · obtain ⟨port, hmove⟩ := acceptNext_illegal hport hwhole hill
    exact ⟨_, port, (hostMove_idle idle.2).trans hmove, faults_takeFault codeIllegal _⟩
  · obtain ⟨i, rest, hdec⟩ := decodeCommand_of_legal hwhole hill
    obtain ⟨-, -, henc⟩ := decodeCommand_eq_ok_iff.1 hdec
    have hw : w = encodeHead i := (List.cons.inj henc).1
    have refused : i.accepted s.params = false := not_accepted_of_illegalCapacity (hw ▸ h.resolve_left hill)
    refine ⟨_, rest, hostMove_takes idle (hport ▸ hdec), ?_⟩
    rw [acceptCommand, if_neg (by simp [refused])]
    exact faults_takeFault codeIllegal _

end Sys2Proof.Safety
end

section
/-! PROOFS. O8, O9 (R80, R82, R175): `CommandStep` says once what a micro-step of the command in progress does to the HOST and
to `fault`; the responses and the port are read off its cases. -/

namespace Sys2Proof.Safety

open Sys2Proof.Machine

/-- What a micro-step of the command in progress does to the HOST and to `fault`: it moves the position, or it ends the command
with one response, OK or DROPPED, or it ends the command with a fault and the FAULTED response (R82, R175). -/
inductive CommandStep (s t : State) : Prop
  | moves (ph : Phase) (host : t.host = { s.host with phase := ph }) (fault : t.fault = s.fault)
  | answers (r : Response)
      (host : t.host = { s.host with cmd := none, phase := .start, responses := s.host.responses ++ [r] })
      (status : r.status = statusOk ∨ r.status = statusDropped) (fcode : r.fcode = 0) (fault : t.fault = s.fault)
  | faults (code : Byte) (raised : code ≠ 0) (fault : t.fault = code)
      (host : t.host =
        { s.host with cmd := none, phase := .start, responses := s.host.responses ++ [⟨statusFaulted, code, 0, []⟩] })

/-! ### The ends of a micro-step -/

/-- `u` is `s` as far as the HOST and `fault` go. -/
def SameHost (s u : State) : Prop := u.host = s.host ∧ u.fault = s.fault

theorem sameHost_withSelected (r : RingSel) (x : Ring) (s : State) : SameHost s (withSelected r x s) := by
  cases r <;> exact ⟨rfl, rfl⟩

theorem commandStep_setPhase {s u : State} {ph : Phase} (h : SameHost s u) :
    OnNext (CommandStep s) (.next (setPhase ph u)) := by
  obtain ⟨hhost, hfault⟩ := h
  exact onNext_next.2 (.moves ph (by rw [setPhase_host, hhost]) hfault)

theorem commandStep_respond {s u : State} {st : Byte} {v : Half} {d : List Byte} (h : SameHost s u)
    (hst : st = statusOk ∨ st = statusDropped) : OnNext (CommandStep s) (.next (respond st v d u)) := by
  obtain ⟨hhost, hfault⟩ := h
  exact onNext_next.2 (.answers ⟨st, 0, v, d⟩ (by rw [respond_host, hhost]) hst rfl hfault)

theorem commandStep_respondOk {s u : State} {v : Half} {d : List Byte} (h : SameHost s u) :
    OnNext (CommandStep s) (.next (respond statusOk v d u)) := commandStep_respond h (.inl rfl)

theorem commandStep_takeFault {code : Byte} (h : code ≠ 0) (s : State) : CommandStep s (takeFault .host code s) :=
  .faults code h rfl rfl

theorem requireLine_commandStep {body : State → Result} {s : State} (h : OnNext (CommandStep s) (body s)) :
    OnNext (CommandStep s) (requireLine body s) :=
  onNext_requireLine (fun _ => h) fun _ => commandStep_takeFault (by decide) s

theorem requireEnc_commandStep {e : EncState} {body : State → Result} {s : State} (h : OnNext (CommandStep s) (body s)) :
    OnNext (CommandStep s) (requireEnc e body s) := by
  unfold requireEnc
  split
  · exact h
  · exact onNext_raiseHost.2 (commandStep_takeFault (by decide) s)

/-! ### The bodies of TP_WRITE and TP_READ -/

theorem moveTxToPhy_commandStep (s : State) : OnNext (CommandStep s) (moveTxToPhy .host s) := by
  unfold moveTxToPhy
  split
  · exact onNext_next.2 (commandStep_takeFault (by decide) s)
  · exact onNext_fault
  · refine onNext_next.2 (.moves s.host.phase ?_ ?_) <;> unfold phyTxPush <;> split <;> rfl

theorem movePhyToRx_commandStep (s : State) : OnNext (CommandStep s) (movePhyToRx .host s) := by
  cases slot : s.phy.rxq with
  | nil =>
    simp only [movePhyToRx, phyRxPop, slot]
    exact onNext_next.2 (commandStep_takeFault (by decide) s)
  | cons b rest =>
    rw [movePhyToRx_cons .host slot]
    exact onNext_next.2 (.moves s.host.phase rfl rfl)

section WriteBody

variable {done : State → Result} {s : State} (hdone : ∀ u, SameHost s u → OnNext (CommandStep s) (done u))
include hdone

theorem writeAt_commandStep (pos : WritePos) (todo later : List Byte) :
    OnNext (CommandStep s) (writeAt done pos todo later s) := by
  cases pos with
  | spin =>
    simp only [writeAt]
    split <;> exact commandStep_setPhase ⟨rfl, rfl⟩
  | put =>
    cases todo with
    | nil => exact onNext_refused
    | cons => exact commandStep_setPhase ⟨rfl, rfl⟩
  | kick =>
    simp only [writeAt]
    split
    · exact commandStep_setPhase ⟨rfl, rfl⟩
    · exact moveTxToPhy_commandStep s
  | kickUnlock =>
    cases later with
    | nil => exact hdone (clearTxGuard s) ⟨rfl, rfl⟩
    | cons => exact commandStep_setPhase ⟨rfl, rfl⟩
  | mark | lock | unlock | kickMark | kickLock => exact commandStep_setPhase ⟨rfl, rfl⟩

theorem enterWrite_commandStep (todo later : List Byte) : OnNext (CommandStep s) (enterWrite done todo later s) :=
  requireLine_commandStep (writeAt_commandStep hdone _ todo later)

/-- A micro-step of an encode command: its own first one, or one of its ChanWrite's. -/
theorem chanMicro_commandStep {first : State → Result} (hfirst : OnNext (CommandStep s) (first s)) :
    OnNext (CommandStep s) (chanMicro first done s) := by
  unfold chanMicro
  split
  · exact hfirst
  · exact enterWrite_commandStep hdone _ _
  · exact writeAt_commandStep hdone _ _ _
  all_goals exact onNext_refused

end WriteBody

section ReadBody

variable {done : List Byte → State → Result} {s : State}
  (hdone : ∀ out u, SameHost s u → OnNext (CommandStep s) (done out u))
include hdone

theorem readAt_commandStep (pos : ReadPos) (left : Nat) (out : List Byte) :
    OnNext (CommandStep s) (readAt done pos left out s) := by
  cases pos with
  | get =>
    simp only [readAt]
    split
    · exact onNext_raiseHost.2 (commandStep_takeFault (by decide) s)
    · exact onNext_fault
    · exact commandStep_setPhase ⟨rfl, rfl⟩
  | drain =>
    simp only [readAt]
    split
    · exact commandStep_setPhase ⟨rfl, rfl⟩
    · exact movePhyToRx_commandStep s
  | drainUnlock => exact hdone out (clearRxGuard s) ⟨rfl, rfl⟩
  | mark | lock | unlock | drainMark | drainLock => exact commandStep_setPhase ⟨rfl, rfl⟩

theorem enterRead_commandStep (left : Nat) : OnNext (CommandStep s) (enterRead done left s) :=
  requireLine_commandStep (readAt_commandStep hdone _ left [])

end ReadBody

/-! ### The commands -/

theorem exec_tpWrite_commandStep {bytes : List Byte} {s : State} (run : Running (.tpWrite bytes) s) :
    OnNext (CommandStep s) (exec (.tpWrite bytes) s) := by
  have done (u) (hu : SameHost s u) : OnNext (CommandStep s) (tpWriteDone bytes u) := commandStep_respondOk hu
  simp only [exec, execTpWrite]
  rw [running_body run]
  split
  · exact enterWrite_commandStep done _ _
  · exact writeAt_commandStep done _ _ _
  all_goals exact onNext_refused

theorem exec_tpRead_commandStep {n : Half} {s : State} (run : Running (.tpRead n) s) :
    OnNext (CommandStep s) (exec (.tpRead n) s) := by
  have done (out u) (hu : SameHost s u) : OnNext (CommandStep s) (tpReadDone n out u) := commandStep_respondOk hu
  simp only [exec, execTpRead]
  rw [running_body run]
  split
  · exact enterRead_commandStep done _
  · exact readAt_commandStep done _ _ _
  all_goals exact onNext_refused

theorem chanWrite_commandStep {s u : State} {bytes : List Byte} (h : SameHost s u) :
    OnNext (CommandStep s) (chanWrite bytes u) := by
  cases bytes with
  | nil => exact onNext_refused
  | cons b rest => exact commandStep_setPhase h

theorem exec_encode_commandStep {i : Instr} {s : State} (run : Running i s) (he : IsEncode (some i)) :
    OnNext (CommandStep s) (exec i s) := by
  rcases he with e | ⟨b, e⟩ | e <;> cases e
  · rw [exec_fcStart run]
    refine chanMicro_commandStep (fun u hu => ?_) (requireLine_commandStep (requireEnc_commandStep ?_))
    · exact commandStep_respondOk hu
    · exact chanWrite_commandStep ⟨rfl, rfl⟩
  · rw [exec_fcPush run]
    refine chanMicro_commandStep (fun u hu => ?_) (requireLine_commandStep (requireEnc_commandStep ?_))
    · exact commandStep_respondOk hu
    · exact chanWrite_commandStep ⟨rfl, rfl⟩
  · rw [exec_fcFinish run]
    refine chanMicro_commandStep (fun u hu => ?_) (requireLine_commandStep (requireEnc_commandStep ?_))
    · exact commandStep_respondOk hu
    · exact chanWrite_commandStep ⟨rfl, rfl⟩

theorem fcPullDecode_commandStep (s : State) : OnNext (CommandStep s) (fcPullDecode s) := by
  unfold fcPullDecode
  split
  · exact onNext_fault
  · exact commandStep_respondOk ⟨rfl, rfl⟩

theorem exec_fcPull_commandStep {s : State} (run : Running .fcPull s) : OnNext (CommandStep s) (exec .fcPull s) := by
  have done (out u) (hu : SameHost s u) : OnNext (CommandStep s) (fcPullIngest out u) := commandStep_setPhase hu
  simp only [exec, execFcPull]
  rw [running_body run]
  split
  · exact requireLine_commandStep (commandStep_setPhase ⟨rfl, rfl⟩)
  · exact enterRead_commandStep done _
  · exact readAt_commandStep done _ _ _
  · exact fcPullDecode_commandStep s
  all_goals exact onNext_refused

/-- The command in progress goes on, answers or faults, whatever it is. -/
theorem exec_commandStep {i : Instr} {s : State} (hi : i.isCommand = true) (run : Running i s) :
    OnNext (CommandStep s) (exec i s) := by
  cases i with
  | rbInit r c => rw [exec_rbInit run]; exact commandStep_respondOk (sameHost_withSelected r _ s)
  | rbWrite r b =>
    rw [exec_rbWrite run]
    refine commandStep_respond (sameHost_withSelected r _ s) ?_
    cases (ringPut (s.params.cap r) (selected r s) b).2 with
    | ok => exact .inl rfl
    | dropped => exact .inr rfl
  | rbRead r =>
    rw [exec_rbRead run]
    split
    · exact onNext_raiseHost.2 (commandStep_takeFault (by decide) s)
    · exact onNext_fault
    · exact commandStep_respondOk (sameHost_withSelected r _ s)
  | rbStatus r => rw [exec_rbStatus run]; exact commandStep_respondOk ⟨rfl, rfl⟩
  | rbOcc r => rw [exec_rbOcc run]; exact commandStep_respondOk ⟨rfl, rfl⟩
  | rbFree r => rw [exec_rbFree run]; exact commandStep_respondOk ⟨rfl, rfl⟩
  | tpInit => rw [exec_tpInit run]; exact commandStep_respondOk ⟨rfl, rfl⟩
  | tpReadable => rw [exec_tpReadable run]; exact requireLine_commandStep (commandStep_respondOk ⟨rfl, rfl⟩)
  | tpWriteable => rw [exec_tpWriteable run]; exact requireLine_commandStep (commandStep_respondOk ⟨rfl, rfl⟩)
  | tpWrite bytes => exact exec_tpWrite_commandStep run
  | tpRead n => exact exec_tpRead_commandStep run
  | fcStart => exact exec_encode_commandStep run (.inl rfl)
  | fcPush b => exact exec_encode_commandStep run (.inr (.inl ⟨b, rfl⟩))
  | fcFinish => exact exec_encode_commandStep run (.inr (.inr rfl))
  | fcPull => exact exec_fcPull_commandStep run
  | evTxc | evRxd => cases hi

/-! ### Responses and the port (R80, R82) -/

/-- The fields of a response word. -/
theorem responseWord_fields (r : Response) :
    (responseWord r).extractLsb' 24 8 = r.status ∧ (responseWord r).extractLsb' 16 8 = r.fcode ∧
      (responseWord r).extractLsb' 0 16 = r.value := by
  have high (k : Nat) : (responseWord r).extractLsb' (16 + k) 8 = (r.status ++ r.fcode).extractLsb' k 8 := by
    rw [responseWord, BitVec.extractLsb'_append_eq_of_le (Nat.le_add_right _ _), Nat.add_sub_cancel_left]
  exact ⟨(high 8).trans (Laws.extract_high _ _), (high 0).trans (Laws.extract_low _ _), Laws.extract_low _ _⟩

/-- Settles O9: a command goes on without a response, or ends with the one its last micro-step gives. -/
theorem oneResponsePerCommand : Obligations.OneResponsePerCommand := by
  refine ⟨fun i s t hi run h => ?_, fun r => ⟨responseWord r, rfl, responseWord_fields r⟩⟩
  have noFault : s.fault = 0 := run.1.1
  cases exec_commandStep hi run t h with
  | moves ph host fault => exact .inl ⟨by rw [host, run.2], by rw [host], fault.trans noFault⟩
  | answers r host status fcode fault =>
    have hft : t.fault = 0 := fault.trans noFault
    refine .inr ⟨by rw [host], r, by rw [host], fcode.trans hft.symm, ?_, status.imp id .inl⟩
    rcases status with e | e <;> simp [e, hft, statusOk, statusDropped]
  | faults code raised fault host =>
    exact .inr ⟨by rw [host], _, by rw [host], fault.symm, iff_of_true rfl (fault ▸ raised), .inr (.inr rfl)⟩

theorem CommandStep.port {s t : State} (h : CommandStep s t) : t.host.port = s.host.port := by
  cases h with
  | moves _ host | answers _ host | faults _ _ _ host => rw [host]

/-- No micro-step of an instruction in progress takes a word off the port. -/
theorem exec_port {i : Instr} {s t : State} (run : Running i s) (h : exec i s = .next t) :
    t.host.port = s.host.port := by
  cases i with
  | evTxc => rw [(perform_agent_frame (m := .dispatchTxc) (by decide) h).host]
  | evRxd => rw [(perform_agent_frame (m := .dispatchRxd) (by decide) h).host]
  | _ => exact (exec_commandStep rfl run t h).port

/-- Settles O8: the port decodes to the accepted command, whose words alone are taken, and the command in progress leaves the
port alone. -/
theorem acceptanceMicroStep : Obligations.AcceptanceMicroStep := by
  refine ⟨fun s i rest idle hacc hport => ?_, fun s t i run h => ?_, fun s hf => ?_⟩
  · obtain ⟨⟨hi, hwf⟩, -⟩ : (i.isCommand = true ∧ i.wellFormed = true) ∧ i.capacityMatches s.params = true := by
      simpa [Instr.accepted] using hacc
    rw [hostMove_takes idle (decodeCommand_eq_ok_iff.2 ⟨hi, hwf, hport⟩)]
    exact congrArg _ (if_pos hacc)
  · exact exec_port run (hostMove_running run.2 ▸ h)
  · rw [enabled, beq_false_of_ne hf]
    rfl

end Sys2Proof.Safety
end

section
/-! PROOFS. O12 to O17 (R93 to R106): the contents of a ring under its primitives, the RB_* commands through them, and the
runs of RB_* commands from an idle HOST. -/

namespace Sys2Proof.Safety

open Sys2Proof.Machine

/-! ### The contents of a ring (R23) under RingPut and RingGet -/

/-- Two occupied positions are two cells: the ring is no longer than its array. -/
theorem cell_ne_of_lt (cap head : Nat) {k n : Nat} (hk : k < n) (hn : n < cap) :
    (head + k) % cap ≠ (head + n) % cap := by
  intro e
  have hmod : k ≡ n [MOD cap] := Nat.ModEq.add_left_cancel' head e
  exact hk.ne (hmod.eq_of_lt_of_lt (hk.trans hn) hn)

theorem contents_empty {cap : Nat} {r : Ring} (h : r.count = 0) : contents cap r = [] := by
  simp [contents, h]

/-- Every occupied cell holds a value, so none is left out of the contents. -/
theorem RingOk.length_contents {cap : Nat} {r : Ring} (h : RingOk cap r) : (contents cap r).length = r.count := by
  rw [contents, List.length_filterMap_eq_countP, List.countP_eq_length.2, List.length_range]
  exact fun k hk => h.written k (List.mem_range.1 hk)

/-- RingPut into a ring with room appends: the cell it writes is none of the occupied ones (R95). -/
theorem RingOk.contents_put {cap : Nat} {r : Ring} (h : RingOk cap r) (hroom : r.count ≠ cap) (v : Byte) :
    contents cap (ringPut cap r v).1 = contents cap r ++ [v] := by
  have hlt : r.count < cap := Nat.lt_of_le_of_ne h.count_le hroom
  have kept : ∀ k ∈ List.range r.count,
      Memory.read (Memory.write r.buf r.tail v) ((r.head + k) % cap) = Memory.read r.buf ((r.head + k) % cap) := by
    intro k hk
    rw [h.tail_eq]
    exact Memory.read_write_other _ _ _ _ (cell_ne_of_lt cap r.head (List.mem_range.1 hk) hlt)
  have last : Memory.read (Memory.write r.buf r.tail v) ((r.head + r.count) % cap) = some v := by
    rw [← h.tail_eq]
    exact Memory.read_write_same _ _ _
  rw [ringPut_room v hroom, contents, contents, List.range_succ, List.filterMap_append, List.filterMap_congr kept]
  simp [last]

/-- RingGet that answers a byte takes the one at `head` (R96). -/
theorem ringGet_eq_byte {cap : Nat} {r q : Ring} {v : Byte} (h : ringGet cap r = .byte v q) :
    r.count ≠ 0 ∧ Memory.read r.buf r.head = some v ∧
      q = { buf := r.buf, head := (r.head + 1) % cap, tail := r.tail, count := r.count - 1 } := by
  rcases ringGet_cases cap r with ⟨_, e⟩ | ⟨_, _, e⟩ | ⟨w, hc, hw, e⟩ <;> rw [e] at h
  · cases h
  · cases h
  · cases h
    exact ⟨hc, hw, rfl⟩

/-- RingGet takes the first of the contents. -/
theorem RingOk.contents_get {cap : Nat} {r q : Ring} {v : Byte} (h : RingOk cap r) (got : ringGet cap r = .byte v q) :
    contents cap r = v :: contents cap q := by
  obtain ⟨hc, hv, rfl⟩ := ringGet_eq_byte got
  have first : Memory.read r.buf ((r.head + 0) % cap) = some v := by
    rwa [Nat.add_zero, Nat.mod_eq_of_lt h.head_lt]
  have shift (k : Nat) : ((r.head + 1) % cap + k) % cap = (r.head + (k + 1)) % cap := by
    rw [Nat.mod_add_mod, Nat.add_assoc, Nat.add_comm 1 k]
  obtain ⟨n, hn⟩ := Nat.exists_eq_succ_of_ne_zero hc
  simp only [contents, hn, Nat.succ_eq_add_one, Nat.add_sub_cancel, List.range_succ_eq_map, List.filterMap_cons, first,
    List.filterMap_map, Function.comp_def, shift]

/-- A RingGet that answers a byte keeps the ring invariant. -/
theorem RingOk.of_get {cap : Nat} {r q : Ring} {v : Byte} (h : RingOk cap r) (got : ringGet cap r = .byte v q) :
    RingOk cap q := by
  obtain ⟨w, x, got', hx, _⟩ := h.get (ringGet_eq_byte got).1
  cases got.symm.trans got'
  exact hx

/-- Settles O16, by induction on the accesses: a put that is accepted appends, and a get takes the first. -/
theorem fifoLaw : Obligations.FifoLaw := by
  intro cap ops
  induction ops with
  | nil =>
    rintro r r' got put hr ⟨⟩
    exact ⟨by simp, hr⟩
  | cons op ops ih =>
    intro r r' got put hr hrun
    cases op with
    | put v =>
      simp only [ringRun] at hrun
      cases htail : ringRun cap ops (ringPut cap r v).1 with
      | none => simp [htail] at hrun
      | some p =>
        obtain ⟨got', put', r''⟩ := p
        rw [htail] at hrun
        cases hrun
        obtain ⟨hlaw, hr'⟩ := ih _ _ _ _ (hr.put v) htail
        refine ⟨?_, hr'⟩
        rw [hlaw]
        by_cases hfull : r.count = cap
        · simp [ringPut_full v hfull]
        · rw [hr.contents_put hfull, ringPut_room v hfull]
          simp
    | get =>
      simp only [ringRun] at hrun
      cases hget : ringGet cap r with
      | empty | noValue => simp [hget] at hrun
      | byte v q =>
        simp only [hget] at hrun
        cases htail : ringRun cap ops q with
        | none => simp [htail] at hrun
        | some p =>
          obtain ⟨got', put', r''⟩ := p
          rw [htail] at hrun
          cases hrun
          obtain ⟨hlaw, hr'⟩ := ih _ _ _ _ (hr.of_get hget) htail
          exact ⟨by rw [hr.contents_get hget, List.cons_append, hlaw, List.cons_append], hr'⟩

/-! ### The selected ring -/

@[simp] theorem withSelected_host (r : RingSel) (x : Ring) (s : State) : (withSelected r x s).host = s.host := by
  cases r <;> rfl
@[simp] theorem withSelected_isr (r : RingSel) (x : Ring) (s : State) : (withSelected r x s).isr = s.isr := by
  cases r <;> rfl
@[simp] theorem withSelected_fault (r : RingSel) (x : Ring) (s : State) : (withSelected r x s).fault = s.fault := by
  cases r <;> rfl
@[simp] theorem selected_withSelected (r : RingSel) (x : Ring) (s : State) : selected r (withSelected r x s) = x := by
  cases r <;> rfl
@[simp] theorem selected_respond (r : RingSel) (st : Byte) (v : Half) (d : List Byte) (s : State) :
    selected r (respond st v d s) = selected r s := by
  cases r <;> rfl
/-- Putting back the ring that is there changes nothing. -/
@[simp] theorem withSelected_selected (r : RingSel) (s : State) : withSelected r (selected r s) s = s := by
  cases r <;> rfl

/-- R24 by the count alone. -/
theorem ringStatus_eq (cap : Nat) (r : Ring) :
    ringStatus cap r = if r.count = 0 then .empty else if r.count = cap then .full else .part := by
  simp [ringStatus, ringEmpty, ringFull]

theorem cap_le (p : Params) (r : RingSel) : p.cap r ≤ 65535 := by
  cases r with
  | rx => exact p.rxCap_legal.2
  | tx => exact p.txCap_legal.2

/-- A count of at most a ring's capacity fits the 16-bit value of a response. -/
theorem toNat_countValue {n : Nat} (h : n ≤ 65535) : (countValue n).toNat = n := by
  rw [countValue, BitVec.toNat_ofNat]
  exact Nat.mod_eq_of_lt (Nat.lt_succ_of_le h)

/-! ### The RB_* commands -/

theorem answers_respond (st : Byte) (v : Half) (d : List Byte) (s : State) :
    Answers ⟨st, 0, v, d⟩ s (respond st v d s) := ⟨.start, rfl⟩

/-- Settles O12: RingReset leaves the count 0, and an idle HOST refuses another capacity. -/
theorem rbInitResult : Obligations.RbInitResult := by
  refine ⟨fun r c s ready => ⟨_, exec_rbInit ready.1, answers_respond _ _ _ _, ?_, ?_⟩, fun r c s idle hc => ?_⟩
  · simp [ringStatus_eq]
  · simp [ringFree]
  · have refused : ¬ (Instr.rbInit r c).accepted s.params = true := by simp [Instr.accepted, Instr.capacityMatches, hc]
    refine ⟨_, exec_accept idle rfl, ?_⟩
    rw [acceptCommand, if_neg refused]
    exact faults_takeFault codeIllegal s

/-- Settles O13: RingPut into a FULL ring and into one with room. -/
theorem rbWriteResult : Obligations.RbWriteResult := by
  intro r b s ready
  refine ⟨fun hfull => ⟨_, exec_rbWrite ready.1, ?_⟩, fun hroom => ⟨_, exec_rbWrite ready.1, ?_⟩⟩
  · rw [ringPut_full b hfull, withSelected_selected]
    exact answers_respond _ _ _ _
  · rw [ringPut_room b hroom]
    exact answers_respond _ _ _ _

theorem exec_rbRead_empty {r : RingSel} {s : State} (run : Running (.rbRead r) s) (h : (selected r s).count = 0) :
    exec (.rbRead r) s = raiseHost codeEmptyRead s := by
  rw [exec_rbRead run, ringGet_empty h]

theorem exec_rbRead_byte {r : RingSel} {s : State} {v : Byte} {q : Ring} (run : Running (.rbRead r) s)
    (got : ringGet (s.params.cap r) (selected r s) = .byte v q) :
    exec (.rbRead r) s = .next (respond statusOk (zext16 v) [] (withSelected r q s)) := by
  rw [exec_rbRead run, got]

/-- Settles O14: RingGet of an EMPTY ring, and of one whose oldest cell holds a value by the ring invariant. -/
theorem rbReadResult : Obligations.RbReadResult := by
  intro r s ready hr
  refine ⟨fun h0 => ⟨_, exec_rbRead_empty ready.1 h0, faults_takeFault codeEmptyRead s⟩, fun hc => ?_⟩
  obtain ⟨v, q, got, _⟩ := hr.get hc
  obtain ⟨_, hv, rfl⟩ := ringGet_eq_byte got
  exact ⟨_, v, exec_rbRead_byte ready.1 got, hv, answers_respond _ _ _ _⟩

/-- Settles O15: the status goes by the count, and the counts fit 16 bits by the ring invariant. -/
theorem rbReportResults : Obligations.RbReportResults := by
  intro r s hr
  have hcap := cap_le s.params r
  refine ⟨fun ready => ⟨_, exec_rbStatus ready.1, ?_⟩,
    fun ready => ⟨_, _, exec_rbOcc ready.1, answers_respond _ _ _ _, toNat_countValue (hr.count_le.trans hcap)⟩,
    fun ready => ⟨_, _, exec_rbFree ready.1, answers_respond _ _ _ _, toNat_countValue ((Nat.sub_le _ _).trans hcap)⟩⟩
  have hcode : statusCode (ringStatus (s.params.cap r) (selected r s)) =
      if (selected r s).count = 0 then 0 else if (selected r s).count = s.params.cap r then 2 else 1 := by
    rw [ringStatus_eq]
    split_ifs <;> rfl
  rw [hcode]
  exact answers_respond _ _ _ _

/-! ### Runs of RB_* commands from an idle HOST (R101) -/

/-- The acceptance of a command the port takes (R80). -/
theorem acceptCommand_accepted {i : Instr} {s : State} (acc : i.accepted s.params = true) :
    acceptCommand i s = s.withHost { s.host with cmd := some i, phase := .start } := if_pos acc

theorem running_acceptCommand {i : Instr} {s : State} (idle : IdleHost s) (acc : i.accepted s.params = true) :
    Running i (acceptCommand i s) := by
  rw [acceptCommand_accepted acc]
  exact ⟨idle.1, rfl⟩

/-- Accepted or refused, the rings stay (R80, R174). -/
@[simp] theorem selected_acceptCommand (r : RingSel) (i : Instr) (s : State) :
    selected r (acceptCommand i s) = selected r s := by
  unfold acceptCommand
  split <;> cases r <;> rfl

/-- The state in which a command on the ring `r` has left the ring `x` there and has answered `st` and `v`. -/
def ringAnswered (r : RingSel) (x : Ring) (st : Byte) (v : Half) (s : State) : State :=
  respond st v [] (withSelected r x s)

section ringAnswered
variable (r : RingSel) (x : Ring) (st : Byte) (v : Half) (s : State)

@[simp] theorem ringAnswered_params : (ringAnswered r x st v s).params = s.params := by simp [ringAnswered]
@[simp] theorem ringAnswered_fault : (ringAnswered r x st v s).fault = s.fault := by simp [ringAnswered]
@[simp] theorem selected_ringAnswered : selected r (ringAnswered r x st v s) = x := by simp [ringAnswered]
@[simp] theorem ringAnswered_responses :
    (ringAnswered r x st v s).host.responses = s.host.responses ++ [⟨st, 0, v, []⟩] := by simp [ringAnswered]

/-- The answer ends the command, so the command's acceptance no longer shows. -/
theorem ringAnswered_withHost (ph : Phase) (c : Option Instr) :
    ringAnswered r x st v (s.withHost { s.host with cmd := c, phase := ph }) = ringAnswered r x st v s := by
  cases r <;> rfl

variable {s}

theorem idleHost_ringAnswered (idle : IdleHost s) : IdleHost (ringAnswered r x st v s) := by
  obtain ⟨⟨hf, ha⟩, -⟩ := idle
  exact ⟨⟨by simp [hf], by simp [ringAnswered, ha]⟩, rfl⟩

end ringAnswered

/-- A command of one micro-step on a ring, from its acceptance to its response. -/
theorem execUntil_of_ringAnswered {i : Instr} {s : State} {r : RingSel} {x : Ring} {st : Byte} {v : Half}
    (idle : IdleHost s) (hi : i.isCommand = true) (acc : i.accepted s.params = true)
    (h : exec i (acceptCommand i s) = .next (ringAnswered r x st v (acceptCommand i s))) :
    execUntil hostDone i 2 s = some (ringAnswered r x st v s) := by
  rw [acceptCommand_accepted acc, ringAnswered_withHost] at h
  have running : hostDone (s.withHost { s.host with cmd := some i, phase := .start }) = false := rfl
  have done : hostDone (ringAnswered r x st v s) = true := rfl
  simp only [execUntil, exec_accept idle hi, acceptCommand_accepted acc, running, h, done, if_true, Bool.false_eq_true,
    if_false]

theorem execUntil_rbWrite {s : State} (r : RingSel) (b : Byte) (idle : IdleHost s) :
    execUntil hostDone (.rbWrite r b) 2 s =
      some (ringAnswered r (ringPut (s.params.cap r) (selected r s) b).1
        (putStatus (ringPut (s.params.cap r) (selected r s) b).2) 0 s) := by
  refine execUntil_of_ringAnswered idle rfl rfl ?_
  rw [exec_rbWrite (running_acceptCommand idle rfl), acceptCommand_params, selected_acceptCommand]
  rfl

theorem execUntil_rbWrite_room {s : State} {r : RingSel} (b : Byte) (idle : IdleHost s)
    (hroom : (selected r s).count ≠ s.params.cap r) :
    execUntil hostDone (.rbWrite r b) 2 s =
      some (ringAnswered r (ringPut (s.params.cap r) (selected r s) b).1 statusOk 0 s) := by
  rw [execUntil_rbWrite r b idle, ringPut_room b hroom]
  rfl

theorem execUntil_rbWrite_full {s : State} {r : RingSel} (b : Byte) (idle : IdleHost s)
    (hfull : (selected r s).count = s.params.cap r) :
    execUntil hostDone (.rbWrite r b) 2 s = some (ringAnswered r (selected r s) statusDropped 0 s) := by
  rw [execUntil_rbWrite r b idle, ringPut_full b hfull]
  rfl

theorem execUntil_rbRead {s : State} {r : RingSel} {v : Byte} {q : Ring} (idle : IdleHost s)
    (got : ringGet (s.params.cap r) (selected r s) = .byte v q) :
    execUntil hostDone (.rbRead r) 2 s = some (ringAnswered r q statusOk (zext16 v) s) := by
  refine execUntil_of_ringAnswered idle rfl rfl (exec_rbRead_byte (running_acceptCommand idle rfl) ?_)
  rwa [acceptCommand_params, selected_acceptCommand]

/-- What RB_WRITEs of the bytes `vs` do to a ring with room for them all. -/
structure Appended (r : RingSel) (vs : List Byte) (s t : State) : Prop where
  run : CompletesAll (vs.map (.rbWrite r)) s t
  idle : IdleHost t
  params : t.params = s.params
  ring : RingOk (s.params.cap r) (selected r t)
  holds : contents (s.params.cap r) (selected r t) = contents (s.params.cap r) (selected r s) ++ vs
  responses : t.host.responses = s.host.responses ++ List.replicate vs.length ⟨statusOk, 0, 0, []⟩

/-- By induction on the bytes: each finds room, appends and is answered OK. -/
theorem exists_appended (r : RingSel) (vs : List Byte) : ∀ s : State, IdleHost s →
    RingOk (s.params.cap r) (selected r s) → (selected r s).count + vs.length ≤ s.params.cap r →
    ∃ t, Appended r vs s t := by
  induction vs with
  | nil => exact fun s idle ring _ => ⟨s, rfl, idle, rfl, ring, by simp, by simp⟩
  | cons v vs ih =>
    intro s idle ring hle
    rw [List.length_cons] at hle
    have hroom : (selected r s).count ≠ s.params.cap r := by omega
    obtain ⟨t, run, idle', hp, hring, hholds, hresp⟩ := ih _
      (idleHost_ringAnswered r (ringPut (s.params.cap r) (selected r s) v).1 statusOk 0 idle)
      (by simpa using ring.put v) (by simp [ringPut_room v hroom]; omega)
    simp only [ringAnswered_params, selected_ringAnswered, ringAnswered_responses] at hp hring hholds hresp
    refine ⟨t, ⟨2, _, execUntil_rbWrite_room v idle hroom, (ringAnswered_fault ..).trans idle.1.1, run⟩, idle', hp,
      hring, ?_, ?_⟩
    · rw [hholds, ring.contents_put hroom, List.append_assoc]
      rfl
    · rw [hresp, List.append_assoc]
      rfl

/-- One command that ends in `t` without a fault. -/
theorem completesAll_single {i : Instr} {s t : State} (run : execUntil hostDone i 2 s = some t) (hf : t.fault = 0) :
    CompletesAll [i] s t := ⟨2, t, run, hf, rfl⟩

/-- Settles O17: the writes fill the ring, so the next is DROPPED; the read makes room for one more. -/
theorem capacityLaw : Obligations.CapacityLaw := by
  intro s r vs v w inv idle hempty hlen
  obtain ⟨t, full⟩ := exists_appended r vs s idle ((inv.dataOk idle.1.2).selected r) (by omega)
  have hholds : contents (s.params.cap r) (selected r t) = vs := by rw [full.holds, contents_empty hempty, List.nil_append]
  have hcount : (selected r t).count = s.params.cap r := by rw [← full.ring.length_contents, hholds, hlen]
  have hpos := full.ring.cap_pos
  obtain ⟨b, q, got, _, hq⟩ := full.ring.get (by omega)
  have idle₁ := idleHost_ringAnswered r (selected r t) statusDropped 0 full.idle
  have idle₂ := idleHost_ringAnswered r q statusOk (zext16 b) idle₁
  have drop := execUntil_rbWrite_full v full.idle (by rw [full.params, hcount])
  have read := execUntil_rbRead (r := r) (v := b) (q := q) idle₁ (by simpa [full.params] using got)
  have write := execUntil_rbWrite_room (r := r) w idle₂ (by simp [full.params]; omega)
  have status : ringStatus (s.params.cap r) q = if s.params.cap r = 1 then .empty else .part := by
    rw [ringStatus_eq, if_neg (show q.count ≠ s.params.cap r by omega)]
    exact if_congr (by omega) rfl rfl
  refine ⟨t, _, _, _, full.run, full.responses, ?_, ?_, ?_, completesAll_single drop ?_, ?_, ?_,
    completesAll_single read ?_, ?_, completesAll_single write ?_, ?_⟩
  · rw [full.params, hholds]
  · rw [full.params, ringStatus_eq, if_neg (by omega), if_pos hcount]
  · rw [full.params, ringFree, hcount, Nat.sub_self]
  · exact idle₁.1.1
  · exact ringAnswered_responses ..
  · exact selected_ringAnswered ..
  · exact idle₂.1.1
  · simpa [full.params] using status
  · exact (ringAnswered_fault ..).trans idle₂.1.1
  · exact ringAnswered_responses ..

end Sys2Proof.Safety
end

section
/-! PROOFS. O18, O19, O21, O22, O24 (R120 to R128): each micro-step of the TP_WRITE and TP_READ bodies, for every command that
runs them. `writeDone` and `readDone` name what such a command does in the micro-step that clears its last guard. -/

namespace Sys2Proof.Safety

open Sys2Proof.Machine

/-! ### TP_INIT and the counts (R120, R127, R128) -/

/-- Settles O18: TP_INIT is one micro-step, and its next state is the one R120 lists. -/
theorem tpInitResult : Obligations.TpInitResult :=
  fun _ ready => ⟨_, exec_tpInit ready.1, answers_respond _ _ _ _⟩

/-- Settles O19: with the line each count fits 16 bits, and without it both commands fault NOT_INIT. -/
theorem tpCountResults : Obligations.TpCountResults := by
  intro s hrx
  refine ⟨fun ready => ⟨fun on => ?_, fun off => ?_⟩, fun ready => ⟨fun on => ?_, fun off => ?_⟩⟩
  · exact ⟨_, _, (exec_tpReadable ready.1).trans (requireLine_on on), answers_respond _ _ _ _,
      toNat_countValue (hrx.trans s.params.rxCap_legal.2)⟩
  · exact ⟨_, (exec_tpReadable ready.1).trans (requireLine_off off), faults_takeFault codeNotInit s⟩
  · exact ⟨_, _, (exec_tpWriteable ready.1).trans (requireLine_on on), answers_respond _ _ _ _,
      toNat_countValue ((Nat.sub_le _ _).trans s.params.txCap_legal.2)⟩
  · exact ⟨_, (exec_tpWriteable ready.1).trans (requireLine_off off), faults_takeFault codeNotInit s⟩

/-! ### The body of TP_WRITE (R121) -/

/-- What a command that runs TP_WRITE bodies does in the micro-step that clears its last guard (R121, R145 to R148). -/
def writeDone : Instr → State → Result
  | .tpWrite bytes => tpWriteDone bytes
  | .fcStart => fcStartDone
  | .fcPush _ => fcPushDone
  | .fcFinish => fcFinishDone
  | _ => fun _ => .refused .noSuchPhase

/-- Every command that runs a TP_WRITE body runs the same micro-steps (R111). -/
theorem exec_write_at {i : Instr} {s : State} {pos : WritePos} {todo later : List Byte} (hi : writesChannel i = true)
    (run : Running i s) (hp : s.host.phase = .write pos todo later) :
    exec i s = writeAt (writeDone i) pos todo later s := by
  cases i with
  | tpWrite bytes => exact exec_tpWrite_at run hp
  | fcStart => rw [exec_fcStart run, chanMicro, hp]; rfl
  | fcPush b => rw [exec_fcPush run, chanMicro, hp]; rfl
  | fcFinish => rw [exec_fcFinish run, chanMicro, hp]; rfl
  | _ => cases hi

theorem raceOpen_eq_true_iff (s : State) : raceOpen s = true ↔ s.params.race = .opened := by simp [raceOpen]

theorem phyTxFull_eq_false_iff (s : State) : phyTxFull s = false ↔ s.phy.txq.length ≠ s.params.hwTxDepth := by
  simp [phyTxFull]

theorem guardTxPos_eq (s : State) : guardTxPos s = if s.params.race = .opened then .mark else .lock := by
  simp only [guardTxPos, raceOpen_eq_true_iff]

theorem nextWritePos_nil (s : State) :
    nextWritePos [] s = if s.params.race = .opened then .kickMark else .kickLock := by
  simp only [nextWritePos, raceOpen_eq_true_iff]

theorem nextWritePos_eq (todo : List Byte) (s : State) :
    nextWritePos todo s = if todo ≠ [] then .spin else if s.params.race = .opened then .kickMark else .kickLock := by
  cases todo with
  | nil => exact nextWritePos_nil s
  | cons b rest => rfl

/-- No body begins with a RingPut. -/
theorem nextWritePos_ne_put (todo : List Byte) (s : State) : nextWritePos todo s ≠ .put := by
  rw [nextWritePos_eq]
  split_ifs <;> exact nofun

section WriteAt

variable (done : State → Result) (todo later : List Byte) (s : State)

theorem writeAt_spin : writeAt done .spin todo later s = .next (setPhase
    (if s.tx.count < s.params.txCap then .write (guardTxPos s) todo later else .write .spin todo later) s) := by
  simp only [writeAt]
  split <;> rfl

variable {s}

theorem writeAt_kick_over (h : s.phy.txq.length = s.params.hwTxDepth ∨ s.tx.count = 0) :
    writeAt done .kick todo later s = .next (setPhase (.write .kickUnlock todo later) s) :=
  if_pos (by simpa [phyTxFull, ringEmpty] using h)

theorem writeAt_kick_move (room : s.phy.txq.length ≠ s.params.hwTxDepth) (h : s.tx.count ≠ 0) :
    writeAt done .kick todo later s = moveTxToPhy .host s :=
  if_neg (by simp [phyTxFull, ringEmpty, room, h])

end WriteAt

/-- The move of a byte from `tx` to a slot with room, the byte standing at `head`. -/
theorem moveTxToPhy_of_read (w : Agent) {s : State} {v : Byte} (room : s.phy.txq.length ≠ s.params.hwTxDepth)
    (h : s.tx.count ≠ 0) (hv : Memory.read s.tx.buf s.tx.head = some v) :
    moveTxToPhy w s = .next ((s.withTx
      { buf := s.tx.buf, head := (s.tx.head + 1) % s.params.txCap, tail := s.tx.tail, count := s.tx.count - 1 }).withPhy
      { s.phy with txq := s.phy.txq ++ [v] }) :=
  moveTxToPhy_of_byte w ((phyTxFull_eq_false_iff s).2 room) (ringGet_byte h hv)

/-- The first micro-step of TP_WRITE on an enabled line is the one at the position its body begins with (log entry 7). -/
theorem exec_tpWrite_first {bytes : List Byte} {s : State} (ready : Ready (.tpWrite bytes) s) (on : s.tp.lineEn = true) :
    exec (.tpWrite bytes) s = writeAt (tpWriteDone bytes) (nextWritePos bytes s) bytes [] s :=
  (exec_tpWrite_start ready).trans (requireLine_on on)

/-- Settles O21: the first micro-step, the body at each of its positions, the last micro-step. -/
theorem tpWriteMicroSteps : Obligations.TpWriteMicroSteps := by
  refine ⟨fun bytes s ready => ⟨fun off => ?_, fun on hne => ?_, fun on hnil hopen => ?_, fun on hnil hclosed => ?_⟩,
    fun i s todo later hi run => ?_, fun bytes todo s run hp => ?_⟩
  · exact ⟨_, (exec_tpWrite_start ready).trans (requireLine_off off), faults_takeFault codeNotInit s⟩
  · rw [exec_tpWrite_first ready on, nextWritePos_eq, if_pos hne, writeAt_spin, guardTxPos_eq]
  · subst hnil
    rw [exec_tpWrite_first ready on, nextWritePos_nil, if_pos hopen]
    rfl
  · subst hnil
    rw [exec_tpWrite_first ready on, nextWritePos_nil, if_neg (by simp [hclosed])]
    rfl
  · have body {pos : WritePos} (hp : s.host.phase = .write pos todo later) := exec_write_at hi run hp
    refine ⟨fun hp => ?_, body, body, fun b rest htodo hp room => ?_, fun b rest htodo hp => ?_, body, body,
      fun hp hover => ?_, fun v hp room hne hv => ?_⟩
    · rw [body hp, writeAt_spin, guardTxPos_eq]
    · rw [body hp, htodo]
      simp only [writeAt, ringPut_room b room]
    · rw [body hp, htodo, writeAt, List.tail_cons, nextWritePos_eq]
      rfl
    · exact (body hp).trans (writeAt_kick_over _ todo later hover)
    · exact (body hp).trans ((writeAt_kick_move _ todo later room hne).trans (moveTxToPhy_of_read .host room hne hv))
  · exact ⟨_, exec_write_at rfl run hp, answers_respond _ _ _ _⟩

/-- Settles O22: the position of the RingPut carries the room its spin has seen (R123). -/
theorem tpWriteNeverDrops : Obligations.TpWriteNeverDrops := by
  intro i s b todo later inv run hp
  obtain ⟨j, hj, hi⟩ := inv.host.phase_ok.writesChannel (by rw [hp]; rfl)
  cases run.2.symm.trans hj
  obtain ⟨-, -, room⟩ := inv.write_position hp
  refine ⟨by rw [ringPut_room b room.ne], _, exec_write_at hi run hp, ?_⟩
  exact inv.tx.contents_put room.ne b

/-! ### The body of TP_READ (R124) -/

/-- What a command that runs a TP_READ body does with the bytes dequeued, in the micro-step that clears its last guard (R124,
R156). -/
def readDone : Instr → List Byte → State → Result
  | .tpRead n => tpReadDone n
  | .fcPull => fcPullIngest
  | _ => fun _ _ => .refused .noSuchPhase

/-- Both commands that run a TP_READ body run the same micro-steps (R111). -/
theorem exec_read_at {i : Instr} {s : State} {pos : ReadPos} {left : Nat} {out : List Byte} (hi : readsChannel i = true)
    (run : Running i s) (hp : s.host.phase = .read pos left out) :
    exec i s = readAt (readDone i) pos left out s := by
  cases i with
  | tpRead n => exact exec_tpRead_at run hp
  | fcPull => exact exec_fcPull_at run hp
  | _ => cases hi

theorem nextReadPos_eq (left : Nat) (s : State) :
    nextReadPos left s = if left = 0 then (if s.params.race = .opened then .drainMark else .drainLock)
      else (if s.params.race = .opened then .mark else .lock) := by
  simp only [nextReadPos, raceOpen_eq_true_iff]

/-- No body begins with a RingGet. -/
theorem nextReadPos_ne_get (left : Nat) (s : State) : nextReadPos left s ≠ .get := by
  rw [nextReadPos_eq]
  split_ifs <;> exact nofun

section ReadAt

variable (done : List Byte → State → Result) (left : Nat) (out : List Byte) {s : State}

theorem readAt_get_empty (h : s.rx.count = 0) : readAt done .get left out s = raiseHost codeEmptyRead s := by
  simp only [readAt, ringGet_empty h]

theorem readAt_get_byte {v : Byte} {r : Ring} (got : ringGet s.params.rxCap s.rx = .byte v r) :
    readAt done .get left out s = .next (setPhase (.read .unlock left (out ++ [v])) (s.withRx r)) := by
  simp only [readAt, got]

theorem readAt_drain_over (h : s.rx.count = s.params.rxCap ∨ s.phy.rxq = []) :
    readAt done .drain left out s = .next (setPhase (.read .drainUnlock left out) s) :=
  if_pos (by simpa [ringFull, phyRxAvail] using h)

theorem readAt_drain_move (room : s.rx.count ≠ s.params.rxCap) (h : s.phy.rxq ≠ []) :
    readAt done .drain left out s = movePhyToRx .host s :=
  if_neg (by simp [ringFull, room, phyRxAvail, List.length_pos_iff, h])

end ReadAt

/-- The move of a byte from the receive slot to a ring with room. -/
theorem movePhyToRx_room (w : Agent) {s : State} {v : Byte} {rest : List Byte} (room : s.rx.count ≠ s.params.rxCap)
    (slot : s.phy.rxq = v :: rest) :
    movePhyToRx w s = .next ((s.withPhy { s.phy with rxq := rest }).withRx
      { buf := Memory.write s.rx.buf s.rx.tail v, head := s.rx.head
        tail := (s.rx.tail + 1) % s.params.rxCap, count := s.rx.count + 1 }) := by
  rw [movePhyToRx_cons w slot, ringPut_room v room]

/-- The first micro-step of TP_READ on an enabled line is the one at the position its body begins with (log entry 7). -/
theorem exec_tpRead_first {n : Half} {s : State} (ready : Ready (.tpRead n) s) (on : s.tp.lineEn = true) :
    exec (.tpRead n) s = readAt (tpReadDone n) (nextReadPos n.toNat s) n.toNat [] s :=
  (exec_tpRead_start ready).trans (requireLine_on on)

/-- Settles O24: the first micro-step, the body at each of its positions, the last micro-step. -/
theorem tpReadMicroSteps : Obligations.TpReadMicroSteps := by
  have zero (n : Half) : n.toNat = 0 ↔ n = 0 := (BitVec.toNat_eq (y := 0)).symm
  refine ⟨fun n s ready => ⟨fun off => ?_, fun on hopen => ?_, fun on hclosed => ?_⟩,
    fun i s left out hi run => ?_, fun n s left out run hp => ?_⟩
  · exact ⟨_, (exec_tpRead_start ready).trans (requireLine_off off), faults_takeFault codeNotInit s⟩
  · rw [exec_tpRead_first ready on, nextReadPos_eq, if_pos hopen, if_pos hopen]
    simp only [zero n]
    split_ifs <;> rfl
  · have hnot : s.params.race ≠ .opened := by simp [hclosed]
    rw [exec_tpRead_first ready on, nextReadPos_eq, if_neg hnot, if_neg hnot]
    simp only [zero n]
    split_ifs <;> rfl
  · have body {pos : ReadPos} (hp : s.host.phase = .read pos left out) := exec_read_at hi run hp
    refine ⟨body, body, fun hp h0 => ?_, fun v hp h0 hv => ?_, fun hp => ?_, body, body, fun hp hover => ?_,
      fun v rest hp room slot => ?_⟩
    · exact ⟨_, (body hp).trans (readAt_get_empty _ left out h0), faults_takeFault codeEmptyRead s⟩
    · exact (body hp).trans (readAt_get_byte _ left out (ringGet_byte h0 hv))
    · rw [body hp, readAt, nextReadPos_eq]
      rfl
    · exact (body hp).trans (readAt_drain_over _ left out hover)
    · exact (body hp).trans ((readAt_drain_move _ left out room (by simp [slot])).trans (movePhyToRx_room .host room slot))
  · exact ⟨_, exec_read_at rfl run hp, answers_respond _ _ _ _⟩

end Sys2Proof.Safety
end

section
/-! PROOFS. O28, O31 (R117, R118, R130, R132): the micro-steps of the handlers and of the PHY. The two dispatches are one
function, and so is the race at the first ring access, so what they do is said once for both handlers. -/

namespace Sys2Proof.Safety

open Sys2Proof.Machine

/-! ### The PHY (R117, R118) -/

theorem phyShiftOut_cons {s : State} {b : Byte} {rest : List Byte} (h : s.phy.txq = b :: rest) :
    phyShiftOut s = s.withPhy { s.phy with
      txq := rest, wireOut := s.phy.wireOut ++ [b], txPending := rest.isEmpty || s.phy.txPending } := by
  simp only [phyShiftOut, h]

theorem phyArrive_cons {s : State} {b : Byte} {rest : List Byte} (h : s.phy.wireIn = b :: rest) :
    phyArrive s = s.withPhy { s.phy with
      wireIn := rest, rxPending := true
      rxq := if s.phy.rxq.length < s.params.hwRxDepth then s.phy.rxq ++ [b] else s.phy.rxq } := by
  simp only [phyArrive, h]

theorem enabled_shiftOut_iff (s : State) :
    enabled s .shiftOut = true ↔ s.tp.lineEn = true ∧ s.fault = 0 ∧ s.phy.txq ≠ [] := by
  simp [enabled, and_assoc, and_left_comm]

theorem enabled_arrive_iff (s : State) :
    enabled s .arrive = true ↔ s.tp.lineEn = true ∧ s.fault = 0 ∧ s.phy.wireIn ≠ [] := by
  simp [enabled, and_assoc, and_left_comm]

/-- Settles O31: the slot's last byte raises the event, another one leaves it as it is. -/
theorem phyMicroSteps : Obligations.PhyMicroSteps := by
  refine ⟨enabled_shiftOut_iff, fun s b rest h => ?_, enabled_arrive_iff, fun s b rest h => ?_⟩
  · rw [perform, phyShiftOut_cons h]
    cases rest <;> rfl
  · rw [perform, phyArrive_cons h]

/-! ### The dispatch of a handler (R64, R130, R132, R178) -/

theorem dispatchHandler_held (h : Handler) (hidden : Bool) (s : State) :
    dispatchHandler h true hidden s = .next (exitHandler h s) :=
  congrArg Host.Outcome.next (exitHandler_enterHandler h s)

theorem dispatchHandler_race {h : Handler} {hidden : Bool} {s : State} (race : s.params.race = .opened)
    (hh : hidden = true) (hat : s.params.raceAt = .dispatch) :
    dispatchHandler h false hidden s = .next ((enterHandler h s).withFault codeRingRace) := by
  simp [dispatchHandler, raceOpen, race, hh, hat, takeFault]

theorem dispatchHandler_enter {h : Handler} {hidden : Bool} {s : State}
    (free : ¬ (s.params.race = .opened ∧ hidden = true ∧ s.params.raceAt = .dispatch)) :
    dispatchHandler h false hidden s = .next (enterHandler h s) := by
  rcases dispatchHandler_cases h false hidden s with ⟨hg, _⟩ | ⟨_, race, hh, hat, _⟩ | ⟨_, _, e⟩
  · cases hg
  · exact absurd ⟨race, hh, hat⟩ free
  · exact e

theorem ringAccess_race {hidden : Bool} {access : State → Result} {s : State} (race : s.params.race = .opened)
    (hh : hidden = true) : ringAccess hidden access s = .next (s.withFault codeRingRace) :=
  if_pos (by simp [raceOpen, race, hh])

theorem ringAccess_free {hidden : Bool} {access : State → Result} {s : State}
    (free : ¬ (s.params.race = .opened ∧ hidden = true)) : ringAccess hidden access s = access s :=
  if_neg (by simpa [raceOpen] using free)

section Dispatch

variable {i : Instr} {h : Handler} {guard hidden : Bool} {s : State}

/-- Where RING_RACE is raised in the dispatch, or else at the first ring access, no third micro-step is taken (R65, R171). -/
theorem execUntil_ringRace (hf : s.fault = 0) (race : s.params.race = .opened) (hh : hidden = true)
    (dispatch : exec i s = dispatchHandler h false hidden s)
    (access : exec i (enterHandler h s) = .next ((enterHandler h s).withFault codeRingRace)) :
    ∃ n, n ≤ 2 ∧ execUntil (fun u => u.fault != 0) i n s = some ((enterHandler h s).withFault codeRingRace) := by
  have stops : (((enterHandler h s).withFault codeRingRace).fault != 0) = true := rfl
  have goesOn : ((enterHandler h s).fault != 0) = false := bne_eq_false_iff_eq.2 hf
  cases hat : s.params.raceAt with
  | dispatch =>
    refine ⟨1, by decide, ?_⟩
    simp only [execUntil, dispatch, dispatchHandler_race race hh hat, stops, if_true]
  | access =>
    refine ⟨2, le_rfl, ?_⟩
    have enters := dispatchHandler_enter (h := h) (hidden := hidden) (s := s) (by simp [hat])
    simp only [execUntil, dispatch, enters, goesOn, access, stops, Bool.false_eq_true, if_true, if_false]

/-- Everything the dispatch `i` of the handler `h` does, by its guard and its hidden flag. -/
theorem dispatch_microSteps (hf : s.fault = 0) (dispatch : exec i s = dispatchHandler h guard hidden s)
    (access : s.params.race = .opened → hidden = true →
      exec i (enterHandler h s) = .next ((enterHandler h s).withFault codeRingRace)) :
    (guard = false → ¬ (s.params.race = .opened ∧ hidden = true) → exec i s = .next (enterHandler h s)) ∧
    (guard = false → s.params.race = .opened → hidden = true →
      (s.params.raceAt = .dispatch → exec i s = .next ((enterHandler h s).withFault codeRingRace)) ∧
      (s.params.raceAt = .access → exec i s = .next (enterHandler h s)) ∧
      ∃ n, n ≤ 2 ∧ execUntil (fun u => u.fault != 0) i n s = some ((enterHandler h s).withFault codeRingRace)) ∧
    (guard = true → exec i s = .next (exitHandler h s)) := by
  refine ⟨fun clear free => ?_, fun clear race hh => ⟨fun hat => ?_, fun hat => ?_, ?_⟩, fun held => ?_⟩
  · rw [dispatch, clear]
    exact dispatchHandler_enter fun ⟨race, hh, _⟩ => free ⟨race, hh⟩
  · rw [dispatch, clear]
    exact dispatchHandler_race race hh hat
  · rw [dispatch, clear]
    exact dispatchHandler_enter (by simp [hat])
  · exact execUntil_ringRace hf race hh (clear ▸ dispatch) (access race hh)
  · rw [dispatch, held]
    exact dispatchHandler_held h hidden s

end Dispatch

theorem exec_evTxc_of_enabled {s : State} (he : enabled s .dispatchTxc = true) :
    exec .evTxc s = dispatchHandler .txc s.tp.writeLock s.tp.hostInTx s := by
  simp only [enabled, Bool.and_eq_true, beq_iff_eq] at he
  exact exec_evTxc_dispatch he.1 he.2

theorem exec_evRxd_of_enabled {s : State} (he : enabled s .dispatchRxd = true) :
    exec .evRxd s = dispatchHandler .rxd s.tp.readLock s.tp.hostInRx s := by
  simp only [enabled, Bool.and_eq_true, beq_iff_eq] at he
  exact exec_evRxd_dispatch he.1 he.2

theorem fault_of_enabled {s : State} {m : Move} (hm : m ≠ .reset) (he : enabled s m = true) : s.fault = 0 := by
  by_contra hf
  exact hm (eq_reset_of_enabled hf he)

/-! ### The running handlers (R62, R130, R132, R179) -/

theorem exec_evTxc_loop {s : State} (hf : s.fault = 0) (h : s.isr = ⟨.txc, false⟩) :
    exec .evTxc s = ringAccess s.tp.hostInTx txcDrain s := by
  rw [exec_evTxc_running hf (congrArg Isr.active h), txcMicro, h]
  rfl

theorem exec_evTxc_exit {s : State} (hf : s.fault = 0) (h : s.isr = ⟨.txc, true⟩) :
    exec .evTxc s = .next (exitHandler .txc s) := by
  rw [exec_evTxc_running hf (congrArg Isr.active h), txcMicro, h]
  rfl

theorem exec_evRxd_loop {s : State} (hf : s.fault = 0) (h : s.isr = ⟨.rxd, false⟩) :
    exec .evRxd s = ringAccess s.tp.hostInRx rxdDrain s := by
  rw [exec_evRxd_running hf (congrArg Isr.active h), rxdMicro, h]
  rfl

theorem exec_evRxd_exit {s : State} (hf : s.fault = 0) (h : s.isr = ⟨.rxd, true⟩) :
    exec .evRxd s = .next (exitHandler .rxd s) := by
  rw [exec_evRxd_running hf (congrArg Isr.active h), rxdMicro, h]
  rfl

theorem endLoop_eq {s : State} {h : Handler} {l : Bool} (hisr : s.isr = ⟨h, l⟩) : endLoop s = s.withIsr ⟨h, true⟩ := by
  rw [endLoop, hisr]

theorem txcDrain_over {s : State} (h : s.tx.count = 0 ∨ s.phy.txq.length = s.params.hwTxDepth) :
    txcDrain s = .next (endLoop s) :=
  if_pos (by simpa [ringEmpty, phyTxFull] using h)

theorem txcDrain_move {s : State} (h : s.tx.count ≠ 0) (room : s.phy.txq.length ≠ s.params.hwTxDepth) :
    txcDrain s = moveTxToPhy .isr s :=
  if_neg (by simp [ringEmpty, phyTxFull, h, room])

theorem rxdDrain_over {s : State} (h : s.rx.count = s.params.rxCap ∨ s.phy.rxq = []) :
    rxdDrain s = .next (endLoop s) :=
  if_pos (by simpa [ringFull, phyRxAvail] using h)

theorem rxdDrain_move {s : State} (room : s.rx.count ≠ s.params.rxCap) (h : s.phy.rxq ≠ []) :
    rxdDrain s = movePhyToRx .isr s :=
  if_neg (by simp [ringFull, phyRxAvail, List.length_pos_iff, room, h])

/-- Settles O28: the dispatch and the running handler, of EV_TXC and of EV_RXD. -/
theorem handlerMicroSteps : Obligations.HandlerMicroSteps := by
  refine ⟨fun s he => ?_, fun s he => ?_, fun s hf hisr => ?_, fun s hf hisr => exec_evTxc_exit hf hisr,
    fun s hf hisr => ?_, fun s hf hisr => exec_evRxd_exit hf hisr⟩
  · have hf := fault_of_enabled (by decide) he
    exact dispatch_microSteps hf (exec_evTxc_of_enabled he) fun race hh =>
      (exec_evTxc_loop (s := enterHandler .txc s) hf rfl).trans (ringAccess_race race hh)
  · have hf := fault_of_enabled (by decide) he
    exact dispatch_microSteps hf (exec_evRxd_of_enabled he) fun race hh =>
      (exec_evRxd_loop (s := enterHandler .rxd s) hf rfl).trans (ringAccess_race race hh)
  · have loop := exec_evTxc_loop hf hisr
    refine ⟨fun race hidden => loop.trans (ringAccess_race race hidden),
      fun free => ⟨fun hover => ?_, fun v hne room hv => ?_⟩⟩
    · rw [loop, ringAccess_free free, txcDrain_over hover, endLoop_eq hisr]
    · rw [loop, ringAccess_free free, txcDrain_move hne room, moveTxToPhy_of_read .isr room hne hv]
  · have loop := exec_evRxd_loop hf hisr
    refine ⟨fun race hidden => loop.trans (ringAccess_race race hidden),
      fun free => ⟨fun hover => ?_, fun v rest room slot => ?_⟩⟩
    · rw [loop, ringAccess_free free, rxdDrain_over hover, endLoop_eq hisr]
    · rw [loop, ringAccess_free free, rxdDrain_move room (by simp [slot]), movePhyToRx_room .isr room slot]

end Sys2Proof.Safety
end

section
/-! PROOFS. O53 (R119), and what the HOST leaves of each ring's side (R39): `SingleStep` says once what a command without a
body does. The line enable is TP_INIT's alone, and a command touches the side of a ring only if it runs that ring's body or
reaches the ring directly. -/

namespace Sys2Proof.Safety

open Sys2Proof.Machine

/-! ### The commands of one micro-step -/

/-- Everything the one micro-step of a command without a body can do. -/
inductive SingleStep (i : Instr) (s : State) : State → Prop
  | answers (st : Byte) (v : Half) (d : List Byte) : SingleStep i s (respond st v d s)
  | faults (code : Byte) : SingleStep i s (takeFault .host code s)
  | ring (r : RingSel) (x : Ring) (st : Byte) (v : Half) (direct : Direct r (some i)) :
      SingleStep i s (respond st v [] (withSelected r x s))
  | init (hi : i = .tpInit) (x y : Ring) (tp : Transport) (on : tp.lineEn = true) :
      SingleStep i s (respond statusOk 0 [] (((s.withRx x).withTx y).withTp tp))

theorem exec_single_step {i : Instr} {s : State} (run : Running i s) (hi : i.isCommand = true)
    (hw : writesChannel i = false) (hr : readsChannel i = false) : OnNext (SingleStep i s) (exec i s) := by
  have answer {st v d} : OnNext (SingleStep i s) (.next (respond st v d s)) := onNext_next.2 (.answers st v d)
  have fault {code} : OnNext (SingleStep i s) (raiseHost code s) := onNext_raiseHost.2 (.faults code)
  cases i with
  | rbInit r c => rw [exec_rbInit run]; exact onNext_next.2 (.ring r _ _ _ (.inl ⟨c, rfl⟩))
  | rbWrite r b => rw [exec_rbWrite run]; exact onNext_next.2 (.ring r _ _ _ (.inr (.inl ⟨b, rfl⟩)))
  | rbRead r =>
    rw [exec_rbRead run]
    split
    · exact fault
    · exact onNext_fault
    · exact onNext_next.2 (.ring r _ _ _ (.inr (.inr (.inl rfl))))
  | rbStatus r => rw [exec_rbStatus run]; exact answer
  | rbOcc r => rw [exec_rbOcc run]; exact answer
  | rbFree r => rw [exec_rbFree run]; exact answer
  | tpInit => rw [exec_tpInit run]; exact onNext_next.2 (.init rfl _ _ _ rfl)
  | tpReadable => rw [exec_tpReadable run]; exact onNext_requireLine (fun _ => answer) fun _ => .faults _
  | tpWriteable => rw [exec_tpWriteable run]; exact onNext_requireLine (fun _ => answer) fun _ => .faults _
  | evTxc | evRxd => cases hi
  | tpWrite | fcStart | fcPush | fcFinish => cases hw
  | tpRead | fcPull => cases hr

/-! ### The line enable (R119) -/

/-- The line enable is as it was, or TP_INIT has set it. -/
def LineKept (s t : State) : Prop :=
  t.tp.lineEn = s.tp.lineEn ∨ (t.tp.lineEn = true ∧ s.host.cmd = some .tpInit)

theorem SingleStep.lineKept {i : Instr} {s t : State} (h : SingleStep i s t) (hc : s.host.cmd = some i) :
    LineKept s t := by
  cases h with
  | answers | faults => exact .inl rfl
  | ring r => cases r <;> exact .inl rfl
  | init hi _ _ _ on => exact .inr ⟨on, hi ▸ hc⟩

theorem exec_lineKept {i : Instr} {s : State} (run : Running i s) : OnNext (LineKept s) (exec i s) := by
  intro t e
  by_cases hc : readsChannel i = true ∨ writesChannel i = true
  · obtain ⟨_, _, both, _⟩ := channelFrames i s t run e
    obtain ⟨_, _, lineEn, _⟩ := both hc
    exact .inl lineEn
  · rw [not_or, Bool.not_eq_true, Bool.not_eq_true] at hc
    cases hi : i.isCommand with
    | true => exact (exec_single_step run hi hc.2 hc.1 t e).lineKept run.2
    | false =>
      cases i with
      | evTxc => exact .inl (congrArg Transport.lineEn (exec_evTxc_step e).2.frame.tp)
      | evRxd => exact .inl (congrArg Transport.lineEn (exec_evRxd_step e).2.frame.tp)
      | _ => cases hi

/-- Acceptance, of a legal command or an illegal one, touches the HOST and `fault` alone (R80, R86). -/
theorem acceptNext_keeps {s : State} (idle : IdleHost s) :
    OnNext (fun t => t.rx = s.rx ∧ t.tx = s.tx ∧ t.phy = s.phy ∧ t.tp = s.tp) (acceptNext s) := by
  unfold acceptNext
  split
  · exact onNext_refused
  · split
    · rename_i i rest hdec
      rw [exec_accept (s := s.withHost { s.host with port := rest }) idle (isCommand_of_decodeCommand hdec), onNext_next,
        acceptCommand]
      split <;> exact ⟨rfl, rfl, rfl, rfl⟩
    · exact onNext_refused
    · exact onNext_raiseHost.2 ⟨rfl, rfl, rfl, rfl⟩

theorem hostFree_of_enabled {s : State} (he : enabled s .host = true) : HostFree s := by
  simp only [enabled, Bool.and_eq_true, beq_iff_eq] at he
  exact he.1

theorem hostMove_lineKept {s : State} (free : HostFree s) : OnNext (LineKept s) (hostMove s) := by
  intro t e
  cases hc : s.host.cmd with
  | none =>
    rw [hostMove_idle hc] at e
    obtain ⟨_, _, _, tp⟩ := acceptNext_keeps ⟨free, hc⟩ t e
    exact .inl (congrArg Transport.lineEn tp)
  | some i =>
    rw [hostMove_running hc] at e
    exact exec_lineKept ⟨free, hc⟩ t e

theorem perform_lineKept {s t : State} {m : Move} (he : enabled s m = true) (hm : m ≠ .reset)
    (e : perform m s = .next t) : LineKept s t := by
  cases m with
  | host => exact hostMove_lineKept (hostFree_of_enabled he) t e
  | reset => exact absurd rfl hm
  | _ => exact .inl (congrArg Transport.lineEn (perform_agent_frame (by simp) e).tp)

theorem rest_lineKept (s : State) : OnNext (LineKept s) (rest s) := by
  unfold rest
  split
  · exact onNext_fault
  · exact onNext_next.2 (.inl rfl)

/-- Settles O53: every move but the reset keeps the line enable or is TP_INIT's, and the reset clears it. -/
theorem lineEnabledUntilReset : Obligations.LineEnabledUntilReset := by
  refine ⟨fun s t hr e on => ?_, fun s t e off on => ?_, fun s ready => ⟨_, exec_tpInit ready.1, rfl⟩, fun s off => ?_⟩
  · have kept : LineKept s t := by
      rcases step_cases_of_no_reset hr with ⟨m, q, k, hm, he, h⟩ | h <;> rw [h] at e
      · exact perform_lineKept (s := (s.withSched q).withTick k) (by simpa using he) hm e
      · exact rest_lineKept s t e
    rcases kept with h | ⟨h, _⟩
    · exact h.trans on
    · exact h
  · have kept : LineKept s t := by
      rcases step_cases s with ⟨m, q, k, he, h⟩ | ⟨_, h⟩ <;> rw [h] at e
      · by_cases hm : m = .reset
        · subst hm
          cases e
          cases on
        · exact perform_lineKept (s := (s.withSched q).withTick k) (by simpa using he) hm e
      · exact rest_lineKept s t e
    rcases kept with h | ⟨_, h⟩
    · exact absurd (off.symm.trans (h.symm.trans on)) Bool.noConfusion
    · exact h
  · simp [enabled, txcWaiting, rxdWaiting, off]

/-! ### The two sides under the HOST's other micro-steps (R39) -/

/-- The side of the ring `r`: the ring, its slot, its pending bit and its end of the line. -/
def SideKept : RingSel → State → State → Prop
  | .rx => ReceiveSideKept
  | .tx => TransmitSideKept

/-- The commands that run the body of the ring `r`. -/
def usesRing : RingSel → Instr → Bool
  | .rx => readsChannel
  | .tx => writesChannel

theorem sideKept_of_eq (r : RingSel) {s t : State} (rx : t.rx = s.rx) (tx : t.tx = s.tx) (phy : t.phy = s.phy) :
    SideKept r s t := by
  cases r with
  | rx => exact ⟨rx, by rw [phy], by rw [phy], by rw [phy]⟩
  | tx => exact ⟨tx, by rw [phy], by rw [phy], by rw [phy]⟩

/-- A command that does not reach the ring directly leaves its side. -/
theorem SingleStep.sideKept {r : RingSel} {i : Instr} {s t : State} (h : SingleStep i s t) (nd : ¬ Direct r (some i)) :
    SideKept r s t := by
  cases h with
  | answers | faults => exact sideKept_of_eq r rfl rfl rfl
  | init hi => subst hi; exact absurd (.inr (.inr (.inr rfl))) nd
  | ring q x _ _ direct =>
    cases r with
    | rx =>
      cases q with
      | rx => exact absurd direct nd
      | tx => exact ⟨rfl, rfl, rfl, rfl⟩
    | tx =>
      cases q with
      | tx => exact absurd direct nd
      | rx => exact ⟨rfl, rfl, rfl, rfl⟩

/-- A command that runs the other ring's body leaves a side. -/
theorem exec_channel_sideKept {r : RingSel} {i : Instr} {s : State} (run : Running i s)
    (hi : readsChannel i = true ∨ writesChannel i = true) (hr : usesRing r i = false) :
    OnNext (SideKept r s) (exec i s) := by
  intro t e
  obtain ⟨reads, writes, both, _⟩ := channelFrames i s t run e
  obtain ⟨_, _, _, txPending, rxPending, wireOut, wireIn, _⟩ := both hi
  cases r with
  | rx =>
    obtain ⟨rx, rxq, _⟩ := writes (hi.resolve_left (by simpa [usesRing] using hr))
    exact ⟨rx, rxq, rxPending, wireIn⟩
  | tx =>
    obtain ⟨tx, txq, _⟩ := reads (hi.resolve_right (by simpa [usesRing] using hr))
    exact ⟨tx, txq, txPending, wireOut⟩

theorem exec_sideKept {r : RingSel} {i : Instr} {s : State} (run : Running i s) (hi : i.isCommand = true)
    (hr : usesRing r i = false) (nd : ¬ Direct r (some i)) : OnNext (SideKept r s) (exec i s) := by
  by_cases hc : readsChannel i = true ∨ writesChannel i = true
  · exact exec_channel_sideKept run hc hr
  · rw [not_or, Bool.not_eq_true, Bool.not_eq_true] at hc
    exact fun t e => (exec_single_step run hi hc.2 hc.1 t e).sideKept nd

/-- The HOST leaves a side, unless its command reaches that ring directly or runs its body. -/
theorem hostMove_sideKept {r : RingSel} {s : State} (inv : Inv s) (free : HostFree s) (nd : ¬ Direct r s.host.cmd)
    (hr : ∀ i, s.host.cmd = some i → usesRing r i = false) : OnNext (SideKept r s) (hostMove s) := by
  intro t e
  cases hc : s.host.cmd with
  | none =>
    rw [hostMove_idle hc] at e
    obtain ⟨rx, tx, phy, _⟩ := acceptNext_keeps ⟨free, hc⟩ t e
    exact sideKept_of_eq r rx tx phy
  | some i =>
    have hacc := inv.host.accepted i hc
    simp only [Instr.accepted, Bool.and_eq_true] at hacc
    rw [hostMove_running hc] at e
    exact exec_sideKept ⟨free, hc⟩ hacc.1.1 (hr i hc) (hc ▸ nd) t e

end Sys2Proof.Safety
end

section
/-! PROOFS. O54 (R129, outbound): in the body of TP_WRITE, in EV_TXC and in PhyShiftOut a byte goes from the front of one queue
to the back of the next, and the RingPut appends one; nothing else touches the transmit side. -/

namespace Sys2Proof.Safety

open Sys2Proof.Machine

/-- The outbound bytes are as they were, and so is what is on the wire there. -/
def OutboundKept (s t : State) : Prop := s.phy.wireOut <+: t.phy.wireOut ∧ outbound t = outbound s

theorem TransmitSideKept.outboundKept {s t : State} (h : TransmitSideKept s t) (hp : t.params = s.params) :
    OutboundKept s t := by
  obtain ⟨tx, txq, _, wireOut⟩ := h
  exact ⟨by rw [wireOut], by rw [outbound, outbound, wireOut, txq, tx, hp]⟩

theorem OutboundKept.refl (s : State) : OutboundKept s s := ⟨List.prefix_rfl, rfl⟩

/-! ### The moves of a byte -/

theorem outboundKept_moveOut {s : State} {v : Byte} {r : Ring} (tx : RingOk s.params.txCap s.tx)
    (got : ringGet s.params.txCap s.tx = .byte v r) :
    OutboundKept s ((s.withTx r).withPhy { s.phy with txq := s.phy.txq ++ [v] }) :=
  ⟨List.prefix_rfl, by simp [outbound, tx.contents_get got]⟩

theorem HandlerStep.outboundKept {h : Handler} {s t : State} (step : HandlerStep h s t)
    (tx : RingOk s.params.txCap s.tx) : OutboundKept s t := by
  cases step with
  | moveOut v r _ _ _ _ got => exact outboundKept_moveOut tx got
  | skip | exit => cases h <;> exact OutboundKept.refl s
  | dispatchRace | enter | accessRace | finish | moveIn => exact OutboundKept.refl s

theorem phyShiftOut_outboundKept (s : State) : OutboundKept s (phyShiftOut s) := by
  cases h : s.phy.txq with
  | nil =>
    simp only [phyShiftOut, h]
    exact OutboundKept.refl s
  | cons b rest =>
    rw [phyShiftOut_cons h]
    exact ⟨List.prefix_append _ _, by simp [outbound, h]⟩

theorem phyArrive_outboundKept (s : State) : OutboundKept s (phyArrive s) := by
  unfold phyArrive
  split <;> exact OutboundKept.refl s

/-! ### The body of TP_WRITE -/

theorem writeDone_outboundKept (i : Instr) (s : State) : OnNext (OutboundKept s) (writeDone i s) := by
  cases i with
  | tpWrite | fcStart | fcPush | fcFinish => exact onNext_next.2 (OutboundKept.refl s)
  | _ => exact onNext_refused

section WriteBody

variable {done : State → Result} {s : State} (tx : RingOk s.params.txCap s.tx)
  (hdone : OnNext (OutboundKept s) (done (clearTxGuard s)))
include tx hdone

/-- Every micro-step of the body but the RingPut keeps the outbound bytes. -/
theorem writeAt_outboundKept {pos : WritePos} {todo : List Byte} (later : List Byte) (hput : pos = .put → todo = []) :
    OnNext (OutboundKept s) (writeAt done pos todo later s) := by
  cases pos with
  | spin => rw [writeAt_spin]; exact onNext_next.2 (OutboundKept.refl s)
  | put => rw [hput rfl]; exact onNext_refused
  | kick =>
    by_cases hover : s.phy.txq.length = s.params.hwTxDepth ∨ s.tx.count = 0
    · rw [writeAt_kick_over _ _ _ hover]
      exact onNext_next.2 (OutboundKept.refl s)
    · obtain ⟨room, hne⟩ := not_or.1 hover
      obtain ⟨v, r, got, _⟩ := tx.get hne
      rw [writeAt_kick_move _ _ _ room hne, moveTxToPhy_of_byte .host ((phyTxFull_eq_false_iff s).2 room) got]
      exact onNext_next.2 (outboundKept_moveOut tx got)
  | kickUnlock =>
    cases later with
    | nil => exact hdone
    | cons => exact onNext_next.2 (OutboundKept.refl s)
  | mark | lock | unlock | kickMark | kickLock => exact onNext_next.2 (OutboundKept.refl s)

theorem enterWrite_outboundKept (todo later : List Byte) : OnNext (OutboundKept s) (enterWrite done todo later s) := by
  have hput (h : nextWritePos todo s = .put) : todo = [] := absurd h (nextWritePos_ne_put todo s)
  exact onNext_requireLine (fun _ => writeAt_outboundKept tx hdone later hput) fun _ => OutboundKept.refl s

theorem chanMicro_outboundKept {first : State → Result} (hfirst : OnNext (OutboundKept s) (first s))
    (hput : ∀ {pos todo later}, s.host.phase = .write pos todo later → pos = .put → todo = []) :
    OnNext (OutboundKept s) (chanMicro first done s) := by
  unfold chanMicro
  split
  · exact hfirst
  · exact enterWrite_outboundKept tx hdone _ _
  · exact writeAt_outboundKept tx hdone _ (hput ‹_›)
  all_goals exact onNext_refused

end WriteBody

theorem chanWrite_outboundKept {s u : State} (bytes : List Byte) (h : OutboundKept s u) :
    OnNext (OutboundKept s) (chanWrite bytes u) := by
  cases bytes with
  | nil => exact onNext_refused
  | cons => exact onNext_next.2 h

/-- A body that requires the encoder's state runs, or raises CODEC_STATE. -/
theorem onNext_requireEnc {Q : State → Prop} {e : EncState} {body : State → Result} {s : State} (on : OnNext Q (body s))
    (off : Q (takeFault .host codeCodecState s)) : OnNext Q (requireEnc e body s) := by
  unfold requireEnc
  split
  · exact on
  · exact onNext_raiseHost.2 off

/-- The checks of an encode command raise a fault or let its first micro-step run. -/
theorem encodeChecks_outboundKept {e : EncState} {body : State → Result} {s : State}
    (h : OnNext (OutboundKept s) (body s)) : OnNext (OutboundKept s) (requireLine (requireEnc e body) s) :=
  onNext_requireLine (fun _ => onNext_requireEnc h (OutboundKept.refl s)) fun _ => OutboundKept.refl s

/-- A command that runs TP_WRITE bodies keeps the outbound bytes, the RingPut apart. -/
theorem exec_writer_outboundKept {i : Instr} {s : State} (tx : RingOk s.params.txCap s.tx) (run : Running i s)
    (hi : writesChannel i = true) (hput : ∀ b todo later, s.host.phase ≠ .write .put (b :: todo) later) :
    OnNext (OutboundKept s) (exec i s) := by
  have done : OnNext (OutboundKept s) (writeDone i (clearTxGuard s)) := writeDone_outboundKept i (clearTxGuard s)
  have put {pos todo later} (hp : s.host.phase = .write pos todo later) (h : pos = .put) : todo = [] := by
    cases todo with
    | nil => rfl
    | cons b todo => exact absurd (h ▸ hp) (hput b todo later)
  cases i with
  | tpWrite bytes =>
    simp only [exec, execTpWrite]
    rw [running_body run]
    split
    · exact enterWrite_outboundKept tx done _ _
    · exact writeAt_outboundKept tx done _ (put ‹_›)
    all_goals exact onNext_refused
  | fcStart =>
    rw [exec_fcStart run]
    exact chanMicro_outboundKept tx done (encodeChecks_outboundKept (chanWrite_outboundKept _ (OutboundKept.refl s))) put
  | fcPush b =>
    rw [exec_fcPush run]
    exact chanMicro_outboundKept tx done (encodeChecks_outboundKept (chanWrite_outboundKept _ (OutboundKept.refl s))) put
  | fcFinish =>
    rw [exec_fcFinish run]
    exact chanMicro_outboundKept tx done (encodeChecks_outboundKept (chanWrite_outboundKept _ (OutboundKept.refl s))) put
  | _ => cases hi

/-- The RingPut of a body appends its byte and leaves the PHY. -/
theorem exec_put_outbound {i : Instr} {s t : State} {b : Byte} {todo later : List Byte} (inv : Inv s) (run : Running i s)
    (hp : s.host.phase = .write .put (b :: todo) later) (e : exec i s = .next t) :
    t.phy = s.phy ∧ outbound t = outbound s ++ [b] := by
  obtain ⟨j, hj, hi⟩ := inv.host.phase_ok.writesChannel (by rw [hp]; rfl)
  cases run.2.symm.trans hj
  rw [exec_write_at hi run hp] at e
  obtain ⟨-, -, room⟩ := inv.write_position hp
  cases e
  exact ⟨rfl, by simp [outbound, inv.tx.contents_put room.ne]⟩

/-! ### Every move -/

theorem hostMove_outboundKept {s : State} (inv : Inv s) (free : HostFree s) (nd : ¬ Direct .tx s.host.cmd)
    (hput : ∀ b todo later, s.host.phase ≠ .write .put (b :: todo) later) :
    OnNext (OutboundKept s) (hostMove s) := by
  by_cases hw : ∃ i, s.host.cmd = some i ∧ writesChannel i = true
  · obtain ⟨i, hc, hi⟩ := hw
    rw [hostMove_running hc]
    exact exec_writer_outboundKept inv.tx ⟨free, hc⟩ hi hput
  · have hr (i) (hc : s.host.cmd = some i) : usesRing .tx i = false := Bool.eq_false_iff.2 fun hi => hw ⟨i, hc, hi⟩
    intro t e
    have side : TransmitSideKept s t := hostMove_sideKept (r := .tx) inv free nd hr t e
    exact side.outboundKept (hostMove_keepsParams s t e)

theorem perform_outboundKept {s t : State} {m : Move} (inv : Inv s) (he : enabled s m = true) (hm : m ≠ .reset)
    (nd : ¬ (m = .host ∧ Direct .tx s.host.cmd))
    (hput : ∀ b todo later, ¬ (m = .host ∧ s.host.phase = .write .put (b :: todo) later)) (e : perform m s = .next t) :
    OutboundKept s t := by
  have handler (hm : m ∈ [.isr, .dispatchTxc, .dispatchRxd]) : OutboundKept s t :=
    (perform_handler_step hm e).2.elim (·.outboundKept inv.tx) (·.outboundKept inv.tx)
  cases m with
  | host =>
    exact hostMove_outboundKept inv (hostFree_of_enabled he) (fun h => nd ⟨rfl, h⟩)
      (fun b todo later hp => hput b todo later ⟨rfl, hp⟩) t e
  | isr | dispatchTxc | dispatchRxd => exact handler (by simp)
  | shiftOut => cases e; exact phyShiftOut_outboundKept s
  | arrive => cases e; exact phyArrive_outboundKept s
  | reset => exact absurd rfl hm

/-- Settles O54: the RingPut of a body appends, and every other move keeps the outbound bytes. -/
theorem outboundConserved : Obligations.OutboundConserved := by
  intro s t m inv he hm e nd
  by_cases hput : ∃ b todo later, m = .host ∧ s.host.phase = .write .put (b :: todo) later
  · obtain ⟨b, todo, later, rfl, hp⟩ := hput
    obtain ⟨i, hc, _⟩ := inv.host.phase_ok.writesChannel (by rw [hp]; rfl)
    have e' : exec i s = .next t := (hostMove_running hc).symm.trans e
    obtain ⟨phy, append⟩ := exec_put_outbound inv ⟨hostFree_of_enabled he, hc⟩ hp e'
    refine ⟨by rw [phy], fun b' todo' later' _ hp' => ?_, fun h => absurd ⟨rfl, hp⟩ (h b todo later)⟩
    cases hp.symm.trans hp'
    exact append
  · have none (b todo later) : ¬ (m = .host ∧ s.host.phase = .write .put (b :: todo) later) :=
      fun h => hput ⟨b, todo, later, h⟩
    obtain ⟨wire, kept⟩ := perform_outboundKept inv he hm nd none e
    exact ⟨wire, fun b todo later hm hp => absurd ⟨hm, hp⟩ (none b todo later), fun _ => kept⟩

end Sys2Proof.Safety
end

section
/-! PROOFS. O55 (R129, inbound): in the body of TP_READ and in EV_RXD a byte goes from the slot to the back of `rx`; the RingGet
takes the oldest byte out and PhyArrive brings one in; nothing else touches the receive side. -/

namespace Sys2Proof.Safety

open Sys2Proof.Machine

/-- The inbound bytes are as they were, and so is the line. -/
def InboundKept (s t : State) : Prop := inbound t = inbound s ∧ t.phy.wireIn = s.phy.wireIn

theorem ReceiveSideKept.inboundKept {s t : State} (h : ReceiveSideKept s t) (hp : t.params = s.params) :
    InboundKept s t := by
  obtain ⟨rx, rxq, _, wireIn⟩ := h
  exact ⟨by rw [inbound, inbound, rx, rxq, hp], wireIn⟩

theorem InboundKept.refl (s : State) : InboundKept s s := ⟨rfl, rfl⟩

/-! ### The moves of a byte -/

theorem inboundKept_moveIn {s : State} {v : Byte} {rest : List Byte} (rx : RingOk s.params.rxCap s.rx)
    (room : s.rx.count ≠ s.params.rxCap) (slot : s.phy.rxq = v :: rest) :
    InboundKept s ((s.withPhy { s.phy with rxq := rest }).withRx (ringPut s.params.rxCap s.rx v).1) :=
  ⟨by simp [inbound, rx.contents_put room, slot], rfl⟩

/-- A handler that leaves the slot alone while `rx` is FULL keeps the inbound bytes. -/
theorem HandlerStep.inboundKept {h : Handler} {s t : State} (step : HandlerStep h s t) (rx : RingOk s.params.rxCap s.rx)
    (full : s.rx.count = s.params.rxCap → t.phy.rxq = s.phy.rxq) : InboundKept s t := by
  cases step with
  | moveIn v rest _ _ _ slot =>
    refine inboundKept_moveIn rx (fun hc => ?_) slot
    have hrest : rest = v :: rest := (full hc).trans slot
    exact absurd hrest.symm (List.cons_ne_self v rest)
  | skip | exit => cases h <;> exact InboundKept.refl s
  | dispatchRace | enter | accessRace | finish | moveOut => exact InboundKept.refl s

/-- EV_RXD tests for a FULL ring before it moves a byte (R132). -/
theorem exec_evRxd_full {s t : State} (hfull : s.rx.count = s.params.rxCap) (e : exec .evRxd s = .next t) :
    t.phy.rxq = s.phy.rxq := by
  obtain ⟨hf, step⟩ := exec_evRxd_step e
  rcases step.receive_access with ⟨_, rxq⟩ | ⟨running, free⟩
  · exact rxq
  · rw [exec_evRxd_running hf running, rxdMicro] at e
    split at e
    · cases e; rfl
    · have access : ringAccess s.tp.hostInRx rxdDrain s = rxdDrain s := ringAccess_free free
      rw [access, rxdDrain_over (.inl hfull)] at e
      cases e; rfl

/-- EV_TXC has no move from the receive slot. -/
theorem exec_evTxc_rxq {s t : State} (e : exec .evTxc s = .next t) : t.phy.rxq = s.phy.rxq := by
  cases (exec_evTxc_step e).2 with
  | moveIn _ _ hh => cases hh
  | skip | exit | dispatchRace | enter | accessRace | finish | moveOut => rfl

/-- A dispatch or a handler's next micro-step is exec of one of the two events. -/
theorem exec_event_of_perform {s t : State} {m : Move} (hm : m ∈ [.isr, .dispatchTxc, .dispatchRxd])
    (e : perform m s = .next t) : exec .evTxc s = .next t ∨ exec .evRxd s = .next t := by
  cases m with
  | isr =>
    simp only [perform, isrMove] at e
    split at e
    · cases e
    · exact .inl e
    · exact .inr e
  | dispatchTxc => exact .inl e
  | dispatchRxd => exact .inr e
  | _ => simp at hm

theorem perform_handler_inboundKept {s t : State} {m : Move} (rx : RingOk s.params.rxCap s.rx)
    (hm : m ∈ [.isr, .dispatchTxc, .dispatchRxd]) (e : perform m s = .next t) : InboundKept s t := by
  rcases exec_event_of_perform hm e with e | e
  · exact (exec_evTxc_step e).2.inboundKept rx fun _ => exec_evTxc_rxq e
  · exact (exec_evRxd_step e).2.inboundKept rx fun hfull => exec_evRxd_full hfull e

theorem phyShiftOut_inboundKept (s : State) : InboundKept s (phyShiftOut s) := by
  unfold phyShiftOut
  split <;> exact InboundKept.refl s

/-! ### The body of TP_READ -/

theorem readDone_inboundKept (i : Instr) (out : List Byte) (s : State) : OnNext (InboundKept s) (readDone i out s) := by
  cases i with
  | tpRead | fcPull => exact onNext_next.2 (InboundKept.refl s)
  | _ => exact onNext_refused

section ReadBody

variable {done : List Byte → State → Result} {s : State} (rx : RingOk s.params.rxCap s.rx)
  (hdone : ∀ out, OnNext (InboundKept s) (done out (clearRxGuard s)))
include rx hdone

/-- Every micro-step of the body but a RingGet that finds a byte keeps the inbound bytes. -/
theorem readAt_inboundKept {pos : ReadPos} (left : Nat) (out : List Byte) (hget : pos = .get → s.rx.count = 0) :
    OnNext (InboundKept s) (readAt done pos left out s) := by
  cases pos with
  | get => rw [readAt_get_empty _ _ _ (hget rfl)]; exact onNext_raiseHost.2 (InboundKept.refl s)
  | drain =>
    by_cases hover : s.rx.count = s.params.rxCap ∨ s.phy.rxq = []
    · rw [readAt_drain_over _ _ _ hover]
      exact onNext_next.2 (InboundKept.refl s)
    · obtain ⟨room, hne⟩ := not_or.1 hover
      obtain ⟨v, rest, slot⟩ := List.exists_cons_of_ne_nil hne
      rw [readAt_drain_move _ _ _ room hne, movePhyToRx_cons .host slot]
      exact onNext_next.2 (inboundKept_moveIn rx room slot)
  | drainUnlock => exact hdone out
  | mark | lock | unlock | drainMark | drainLock => exact onNext_next.2 (InboundKept.refl s)

theorem enterRead_inboundKept (left : Nat) : OnNext (InboundKept s) (enterRead done left s) := by
  have hget (h : nextReadPos left s = .get) : s.rx.count = 0 := absurd h (nextReadPos_ne_get left s)
  exact onNext_requireLine (fun _ => readAt_inboundKept rx hdone left [] hget) fun _ => InboundKept.refl s

end ReadBody

theorem fcPullDecode_inboundKept (s : State) : OnNext (InboundKept s) (fcPullDecode s) := by
  unfold fcPullDecode
  split
  · exact onNext_fault
  · exact onNext_next.2 (InboundKept.refl s)

/-- A command that runs a TP_READ body keeps the inbound bytes, a RingGet that finds a byte apart. -/
theorem exec_reader_inboundKept {i : Instr} {s : State} (rx : RingOk s.params.rxCap s.rx) (run : Running i s)
    (hi : readsChannel i = true) (hget : ∀ left out, s.host.phase = .read .get left out → s.rx.count = 0) :
    OnNext (InboundKept s) (exec i s) := by
  have done (out) : OnNext (InboundKept s) (readDone i out (clearRxGuard s)) := readDone_inboundKept i out (clearRxGuard s)
  have get {pos left out} (hp : s.host.phase = .read pos left out) (h : pos = .get) : s.rx.count = 0 :=
    hget left out (h ▸ hp)
  cases i with
  | tpRead n =>
    simp only [exec, execTpRead]
    rw [running_body run]
    split
    · exact enterRead_inboundKept rx done _
    · exact readAt_inboundKept rx done _ _ (get ‹_›)
    all_goals exact onNext_refused
  | fcPull =>
    simp only [exec, execFcPull]
    rw [running_body run]
    split
    · exact onNext_requireLine (fun _ => onNext_next.2 (InboundKept.refl s)) fun _ => InboundKept.refl s
    · exact enterRead_inboundKept rx done _
    · exact readAt_inboundKept rx done _ _ (get ‹_›)
    · exact fcPullDecode_inboundKept s
    all_goals exact onNext_refused
  | _ => cases hi

/-- The RingGet of a body takes the oldest byte into the result and leaves the line. -/
theorem exec_get_inbound {i : Instr} {s t : State} {left : Nat} {out : List Byte} (inv : Inv s) (run : Running i s)
    (hp : s.host.phase = .read .get left out) (hne : s.rx.count ≠ 0) (e : exec i s = .next t) :
    ∃ b, inbound s = b :: inbound t ∧ t.host.phase = .read .unlock left (out ++ [b]) ∧ t.phy.wireIn = s.phy.wireIn := by
  obtain ⟨j, hj, hi⟩ := inv.host.phase_ok.readsChannel (by rw [hp]; rfl)
  cases run.2.symm.trans hj
  obtain ⟨v, r, got, _⟩ := inv.rx.get hne
  rw [exec_read_at hi run hp, readAt_get_byte _ _ _ got] at e
  cases e
  exact ⟨v, by simp [inbound, inv.rx.contents_get got], rfl, rfl⟩

/-! ### Every move -/

theorem hostMove_inboundKept {s : State} (inv : Inv s) (free : HostFree s) (nd : ¬ Direct .rx s.host.cmd)
    (hget : ∀ left out, s.host.phase = .read .get left out → s.rx.count = 0) :
    OnNext (InboundKept s) (hostMove s) := by
  by_cases hr : ∃ i, s.host.cmd = some i ∧ readsChannel i = true
  · obtain ⟨i, hc, hi⟩ := hr
    rw [hostMove_running hc]
    exact exec_reader_inboundKept inv.rx ⟨free, hc⟩ hi hget
  · have unused (i) (hc : s.host.cmd = some i) : usesRing .rx i = false := Bool.eq_false_iff.2 fun hi => hr ⟨i, hc, hi⟩
    intro t e
    have side : ReceiveSideKept s t := hostMove_sideKept (r := .rx) inv free nd unused t e
    exact side.inboundKept (hostMove_keepsParams s t e)

theorem perform_inboundKept {s t : State} {m : Move} (inv : Inv s) (he : enabled s m = true) (hm : m ≠ .reset)
    (harrive : m ≠ .arrive) (nd : ¬ (m = .host ∧ Direct .rx s.host.cmd))
    (hget : ∀ left out, ¬ (m = .host ∧ s.host.phase = .read .get left out ∧ s.rx.count ≠ 0)) (e : perform m s = .next t) :
    InboundKept s t := by
  cases m with
  | host =>
    refine hostMove_inboundKept inv (hostFree_of_enabled he) (fun h => nd ⟨rfl, h⟩) (fun left out hp => ?_) t e
    by_contra hne
    exact hget left out ⟨rfl, hp, hne⟩
  | isr | dispatchTxc | dispatchRxd => exact perform_handler_inboundKept inv.rx (by simp) e
  | shiftOut => cases e; exact phyShiftOut_inboundKept s
  | arrive => exact absurd rfl harrive
  | reset => exact absurd rfl hm

/-- PhyArrive appends the next byte of the line to the slot, or drops it (R118). -/
theorem phyArrive_inbound {s : State} (h : s.phy.wireIn ≠ []) :
    ∃ b, s.phy.wireIn = b :: (phyArrive s).phy.wireIn ∧
      inbound (phyArrive s) = if s.phy.rxq.length < s.params.hwRxDepth then inbound s ++ [b] else inbound s := by
  obtain ⟨b, rest, hw⟩ := List.exists_cons_of_ne_nil h
  rw [phyArrive_cons hw]
  refine ⟨b, hw, ?_⟩
  split_ifs <;> simp [inbound]

/-- Settles O55: the RingGet takes the oldest byte, PhyArrive brings one in, and every other move keeps the inbound bytes. -/
theorem inboundConserved : Obligations.InboundConserved := by
  intro s t m inv he hm e nd
  refine ⟨fun left out hhost hp hne => ?_, fun harrive => ?_, fun harrive hget => ?_⟩
  · subst hhost
    obtain ⟨i, hc, _⟩ := inv.host.phase_ok.readsChannel (by rw [hp]; rfl)
    have e' : exec i s = .next t := (hostMove_running hc).symm.trans e
    exact exec_get_inbound inv ⟨hostFree_of_enabled he, hc⟩ hp hne e'
  · subst harrive
    obtain ⟨_, _, hline⟩ := (enabled_arrive_iff s).1 he
    cases e
    exact phyArrive_inbound hline
  · exact perform_inboundKept inv he hm harrive nd hget e

end Sys2Proof.Safety
end

section
/-! PROOFS. O29, O30 (R130 to R133, R178, R179): runs of one instruction with no other agent stepping, the rings that several
RingPuts or RingGets leave, and the two drains, each said once for the handler and for the command that runs it. -/

namespace Sys2Proof.Safety

open Sys2Proof.Machine

/-! ### Several RingPuts, several RingGets (R95, R96) -/

/-- The ring after a RingPut of each of the bytes. -/
def ringPutAll (cap : Nat) : Ring → List Byte → Ring
  | r, [] => r
  | r, b :: bs => ringPutAll cap (ringPut cap r b).1 bs

/-- The ring after `n` RingGets. -/
def ringSkip (cap : Nat) : Nat → Ring → Ring
  | 0, r => r
  | n + 1, r => ringSkip cap n { r with head := (r.head + 1) % cap, count := r.count - 1 }

theorem ringPut_count {cap : Nat} {r : Ring} (v : Byte) (h : r.count ≠ cap) :
    (ringPut cap r v).1.count = r.count + 1 := by rw [ringPut_room v h]

/-- What RingPuts that all find room leave. -/
structure Queued (cap : Nat) (r : Ring) (bs : List Byte) (q : Ring) : Prop where
  ring : RingOk cap q
  holds : contents cap q = contents cap r ++ bs
  count : q.count = r.count + bs.length
  frame : ∀ a, (∀ k, k < bs.length → a ≠ (r.tail + k) % cap) → Memory.read q.buf a = Memory.read r.buf a

/-- By induction on the bytes: each is written behind the one before. -/
theorem queued_ringPutAll {cap : Nat} (bs : List Byte) : ∀ {r : Ring}, RingOk cap r → r.count + bs.length ≤ cap →
    Queued cap r bs (ringPutAll cap r bs) := by
  induction bs with
  | nil => exact fun h _ => ⟨h, (List.append_nil _).symm, rfl, fun _ _ => rfl⟩
  | cons b bs ih =>
    intro r h hle
    rw [List.length_cons] at hle
    have room : r.count ≠ cap := by omega
    have put := ringPut_room (cap := cap) (r := r) b room
    obtain ⟨ring, holds, count, frame⟩ := ih (h.put b) (by rw [ringPut_count b room]; omega)
    refine ⟨ring, ?_, ?_, fun a ha => ?_⟩
    · rw [ringPutAll, holds, h.contents_put room, List.append_assoc]
      rfl
    · rw [ringPutAll, count, ringPut_count b room, List.length_cons]
      omega
    · rw [List.length_cons] at ha
      have first : a ≠ r.tail := by
        have h0 := ha 0 (by omega)
        rwa [Nat.add_zero, Nat.mod_eq_of_lt (h.tail_eq ▸ Nat.mod_lt _ h.cap_pos)] at h0
      rw [ringPutAll, frame a fun k hk => ?_, put]
      · exact Memory.read_write_other _ _ _ _ first
      · rw [put]
        simp only
        rw [Nat.mod_add_mod, Nat.add_assoc, Nat.add_comm 1 k]
        exact ha (k + 1) (by omega)

@[simp] theorem ringSkip_buf (cap n : Nat) : ∀ r : Ring, (ringSkip cap n r).buf = r.buf := by
  induction n with
  | zero => exact fun _ => rfl
  | succ n ih => exact fun _ => ih _

@[simp] theorem ringSkip_tail (cap n : Nat) : ∀ r : Ring, (ringSkip cap n r).tail = r.tail := by
  induction n with
  | zero => exact fun _ => rfl
  | succ n ih => exact fun _ => ih _

@[simp] theorem ringSkip_count (cap n : Nat) : ∀ r : Ring, (ringSkip cap n r).count = r.count - n := by
  induction n with
  | zero => exact fun _ => rfl
  | succ n ih => exact fun r => (ih _).trans (by simp only; omega)

/-- RingGet of a ring that is not EMPTY answers the first of the contents. -/
theorem RingOk.get_skip {cap : Nat} {r : Ring} (h : RingOk cap r) (hne : r.count ≠ 0) : ∃ v,
    ringGet cap r = .byte v (ringSkip cap 1 r) ∧ RingOk cap (ringSkip cap 1 r) ∧
    contents cap r = v :: contents cap (ringSkip cap 1 r) := by
  obtain ⟨v, q, got, hq, _⟩ := h.get hne
  obtain ⟨_, _, rfl⟩ := ringGet_eq_byte got
  exact ⟨v, got, hq, h.contents_get got⟩

/-- RingGets that all find a byte take the first of the contents. -/
theorem RingOk.skip {cap : Nat} (n : Nat) : ∀ {r : Ring}, RingOk cap r → n ≤ r.count →
    RingOk cap (ringSkip cap n r) ∧ contents cap (ringSkip cap n r) = (contents cap r).drop n := by
  induction n with
  | zero => exact fun h _ => ⟨h, rfl⟩
  | succ n ih =>
    intro r h hle
    obtain ⟨v, _, hq, hcons⟩ := h.get_skip (by omega)
    obtain ⟨ring, holds⟩ := ih hq (by rw [ringSkip_count]; omega)
    exact ⟨ring, holds.trans (by rw [hcons, List.drop_succ_cons])⟩

/-! ### Runs of one instruction -/

/-- `n` micro-steps of the instruction `i` lead from `s` to `t`, and none of the states reached satisfies `stop`. -/
inductive RunsTo (stop : State → Bool) (i : Instr) : Nat → State → State → Prop
  | refl (s : State) : RunsTo stop i 0 s s
  | step {n : Nat} {s u t : State} (e : exec i s = .next u) (go : stop u = false) (rest : RunsTo stop i n u t) :
      RunsTo stop i (n + 1) s t

section RunsTo

variable {stop : State → Bool} {i : Instr} {n m : Nat} {s u t : State}

theorem RunsTo.single (e : exec i s = .next t) (go : stop t = false) : RunsTo stop i 1 s t := .step e go (.refl t)

theorem RunsTo.trans (h : RunsTo stop i n s u) (h' : RunsTo stop i m u t) : RunsTo stop i (n + m) s t := by
  induction h with
  | refl => rwa [Nat.zero_add]
  | step e go _ ih => rw [Nat.add_right_comm]; exact .step e go (ih h')

/-- A run goes on from the state it leads to. -/
theorem RunsTo.execUntil_eq (h : RunsTo stop i n s u) : execUntil stop i (n + m) s = execUntil stop i m u := by
  induction h with
  | refl => rw [Nat.zero_add]
  | step e go _ ih =>
    rw [Nat.add_right_comm, execUntil, e]
    simp only [go, Bool.false_eq_true, if_false]
    exact ih

/-- A run whose next state satisfies `stop` ends there. -/
theorem RunsTo.execUntil_last (h : RunsTo stop i n s u) (e : exec i u = .next t) (hstop : stop t = true) :
    execUntil stop i (n + 1) s = some t := by
  rw [h.execUntil_eq, execUntil, e]
  exact if_pos hstop

end RunsTo

/-! ### The drain of `tx` into the transmit slot (R121, R130) -/

theorem take_min_length {α : Type} (l : List α) (k : Nat) : l.take (min l.length k) = l.take k := by
  rw [Nat.min_comm]
  exact List.take_eq_take_min.symm

theorem drop_min_length {α : Type} (l : List α) (k : Nat) : l.drop (min l.length k) = l.drop k := by
  rcases Nat.le_total l.length k with h | h
  · rw [Nat.min_eq_left h, List.drop_length, List.drop_of_length_le h]
  · rw [Nat.min_eq_right h]

/-- The state with another `tx` and another transmit slot. -/
def withTransmit (r : Ring) (q : List Byte) (s : State) : State := (s.withTx r).withPhy { s.phy with txq := q }

/-- How many bytes a drain moves from the ring `r` behind the bytes `q` of the transmit slot. -/
def txMoves (p : Params) (r : Ring) (q : List Byte) : Nat := min r.count (p.hwTxDepth - q.length)

/-- The ring a drain leaves. -/
def txDrainedRing (p : Params) (r : Ring) (q : List Byte) : Ring := ringSkip p.txCap (txMoves p r q) r

/-- The transmit slot a drain leaves: filled from the front of the ring. -/
def txDrainedSlot (p : Params) (r : Ring) (q : List Byte) : List Byte := (q ++ contents p.txCap r).take p.hwTxDepth

/-- A drain that moves one byte in each micro-step comes to its end. -/
theorem runsTo_txMoves {stop : State → Bool} {i : Instr} {s : State}
    (move : ∀ r q v, q.length ≠ s.params.hwTxDepth → r.count ≠ 0 →
      ringGet s.params.txCap r = .byte v (ringSkip s.params.txCap 1 r) →
      exec i (withTransmit r q s) = .next (withTransmit (ringSkip s.params.txCap 1 r) (q ++ [v]) s))
    (go : ∀ r q, stop (withTransmit r q s) = false) (n : Nat) :
    ∀ r q, RingOk s.params.txCap r → n ≤ r.count → q.length + n ≤ s.params.hwTxDepth →
      RunsTo stop i n (withTransmit r q s)
        (withTransmit (ringSkip s.params.txCap n r) (q ++ (contents s.params.txCap r).take n) s) := by
  induction n with
  | zero =>
    intro r q _ _ _
    rw [List.take_zero, List.append_nil]
    exact .refl _
  | succ n ih =>
    intro r q hr hn hq
    obtain ⟨v, got, hskip, hcons⟩ := hr.get_skip (by omega)
    have rest := ih _ (q ++ [v]) hskip (by rw [ringSkip_count]; omega)
      (by rw [List.length_append, List.length_singleton]; omega)
    rw [hcons, List.take_succ_cons, ← List.singleton_append, ← List.append_assoc]
    exact .step (move r q v (by omega) (by omega) got) (go _ _) rest

section TxDrained

variable {p : Params} {r : Ring} {q : List Byte} (h : RingOk p.txCap r) (hq : q.length ≤ p.hwTxDepth)
include h hq

theorem append_take_txMoves : q ++ (contents p.txCap r).take (txMoves p r q) = txDrainedSlot p r q := by
  rw [txDrainedSlot, List.take_append, List.take_of_length_le hq, txMoves, ← h.length_contents, take_min_length]

theorem txDrainedRing_holds :
    contents p.txCap (txDrainedRing p r q) = (q ++ contents p.txCap r).drop p.hwTxDepth := by
  rw [txDrainedRing, (h.skip (txMoves p r q) (Nat.min_le_left _ _)).2, List.drop_append, List.drop_of_length_le hq,
    List.nil_append, txMoves, ← h.length_contents, drop_min_length]

omit hq in
theorem txDrainedRing_ok : RingOk p.txCap (txDrainedRing p r q) := (h.skip _ (Nat.min_le_left _ _)).1

/-- The test that ends the drain holds. -/
theorem txDrained_over : (txDrainedRing p r q).count = 0 ∨ (txDrainedSlot p r q).length = p.hwTxDepth := by
  rw [txDrainedRing, ringSkip_count, txDrainedSlot, List.length_take, List.length_append, h.length_contents, txMoves]
  omega

end TxDrained

/-- The whole drain, of the kick or of EV_TXC. -/
theorem runsTo_txDrain {stop : State → Bool} {i : Instr} {s : State} {r : Ring} {q : List Byte}
    (hr : RingOk s.params.txCap r) (hq : q.length ≤ s.params.hwTxDepth)
    (move : ∀ r q v, q.length ≠ s.params.hwTxDepth → r.count ≠ 0 →
      ringGet s.params.txCap r = .byte v (ringSkip s.params.txCap 1 r) →
      exec i (withTransmit r q s) = .next (withTransmit (ringSkip s.params.txCap 1 r) (q ++ [v]) s))
    (go : ∀ r q, stop (withTransmit r q s) = false) :
    RunsTo stop i (txMoves s.params r q) (withTransmit r q s)
      (withTransmit (txDrainedRing s.params r q) (txDrainedSlot s.params r q) s) := by
  have run := runsTo_txMoves move go (txMoves s.params r q) r q hr (Nat.min_le_left _ _) (by rw [txMoves]; omega)
  rwa [append_take_txMoves hr hq] at run

/-- The running EV_TXC to the end of its loop: one micro-step for each byte, and the test. -/
theorem runsTo_evTxc {s : State} (hf : s.fault = 0) (running : s.isr = ⟨.txc, false⟩) (hidden : s.tp.hostInTx = false)
    (tx : RingOk s.params.txCap s.tx) (hq : s.phy.txq.length ≤ s.params.hwTxDepth) :
    RunsTo isrDone .evTxc (txMoves s.params s.tx s.phy.txq + 1) s (endLoop
      (withTransmit (txDrainedRing s.params s.tx s.phy.txq) (txDrainedSlot s.params s.tx s.phy.txq) s)) := by
  have go : (s.isr.active == .none) = false := by rw [running]; rfl
  have loop (r q) : exec .evTxc (withTransmit r q s) = txcDrain (withTransmit r q s) :=
    (exec_evTxc_loop (s := withTransmit r q s) hf running).trans
      (ringAccess_free fun ⟨_, h⟩ => absurd (hidden.symm.trans h) Bool.noConfusion)
  refine (runsTo_txDrain tx hq (fun r q v room hne got => ?_) fun _ _ => go).trans
    (.single ((loop _ _).trans (txcDrain_over (txDrained_over tx hq))) go)
  rw [loop, txcDrain_move hne room]
  exact moveTxToPhy_of_byte (s := withTransmit r q s) .isr ((phyTxFull_eq_false_iff _).2 room) got

/-- A dispatch finds no handler running. -/
theorem isr_of_dispatch_enabled {s : State} (inv : Inv s)
    (he : enabled s .dispatchTxc = true ∨ enabled s .dispatchRxd = true) : s.isr = ⟨.none, false⟩ := by
  simp only [enabled, Bool.and_eq_true, beq_iff_eq] at he
  obtain ⟨⟨_, idle⟩, _⟩ | ⟨⟨_, idle⟩, _⟩ := he
  · exact (inv.dataOk idle).idle
  · exact (inv.dataOk idle).idle

/-- The state EV_TXC leaves. -/
theorem exitHandler_txc_drained {s : State} (idle : s.isr = ⟨.none, false⟩) (r : Ring) (q : List Byte) :
    exitHandler .txc (endLoop (withTransmit r q (enterHandler .txc s))) =
      (s.withTx r).withPhy { s.phy with txq := q, txPending := false } := by
  cases s
  cases idle
  rfl

/-- Settles O29: the dispatch, the drain with the test that ends it, the exit. -/
theorem evTxcCompletes : Obligations.EvTxcCompletes := by
  intro s inv he clear hidden
  have hf := fault_of_enabled (by decide) he
  have idle := isr_of_dispatch_enabled inv (.inl he)
  have hq := inv.phy.txq_le
  have enters : exec .evTxc s = .next (enterHandler .txc s) := by
    rw [exec_evTxc_of_enabled he, clear]
    exact dispatchHandler_enter (by simp [hidden])
  have loop := runsTo_evTxc (s := enterHandler .txc s) hf rfl hidden inv.tx hq
  have exits := (exec_evTxc_exit (s := endLoop (withTransmit (txDrainedRing s.params s.tx s.phy.txq)
    (txDrainedSlot s.params s.tx s.phy.txq) (enterHandler .txc s))) hf rfl).trans
    (congrArg _ (exitHandler_txc_drained idle _ _))
  have run := ((RunsTo.single enters rfl).trans loop).execUntil_last exits (by simp [isrDone, idle])
  refine ⟨_, _, ?_, run, rfl, txDrainedRing_holds inv.tx hq, txDrainedRing_ok inv.tx, ringSkip_buf _ _ _, rfl⟩
  have hmoves : txMoves s.params s.tx s.phy.txq ≤ s.tx.count := Nat.min_le_left _ _
  change 1 + (txMoves s.params s.tx s.phy.txq + 1) + 1 ≤ _
  omega

/-! ### The drain of the receive slot into `rx` (R124, R132) -/

/-- The state with another `rx` and another receive slot. -/
def withReceive (r : Ring) (q : List Byte) (s : State) : State := (s.withPhy { s.phy with rxq := q }).withRx r

/-- The ring a drain of the bytes `q` leaves: as many of them behind it as find room. -/
def rxDrainedRing (p : Params) (r : Ring) (q : List Byte) : Ring := ringPutAll p.rxCap r (q.take (p.rxCap - r.count))

/-- The receive slot a drain leaves. -/
def rxDrainedSlot (p : Params) (r : Ring) (q : List Byte) : List Byte := q.drop (p.rxCap - r.count)

section RxDrained

variable {p : Params} {r : Ring} {q : List Byte}

theorem RingOk.rxDrained (h : RingOk p.rxCap r) :
    Queued p.rxCap r (q.take (p.rxCap - r.count)) (rxDrainedRing p r q) := by
  have hle := h.count_le
  exact queued_ringPutAll _ h (by rw [List.length_take]; omega)

/-- The test that ends the drain holds. -/
theorem rxDrained_over (h : RingOk p.rxCap r) :
    (rxDrainedRing p r q).count = p.rxCap ∨ rxDrainedSlot p r q = [] := by
  have hle := h.count_le
  rw [h.rxDrained.count, rxDrainedSlot, List.length_take, List.drop_eq_nil_iff]
  omega

/-- The cells a drain does not write. -/
theorem read_rxDrainedRing (h : RingOk p.rxCap r) {a : Nat} (ha : ∀ j, j < q.length → a ≠ (r.tail + j) % p.rxCap) :
    Memory.read (rxDrainedRing p r q).buf a = Memory.read r.buf a :=
  h.rxDrained.frame a fun k hk => ha k (hk.trans_le (List.length_take_le' _ _))

end RxDrained

/-- The whole drain, of TP_READ or of EV_RXD, at one byte for each micro-step. -/
theorem runsTo_rxDrain {stop : State → Bool} {i : Instr} {s : State}
    (move : ∀ r v q, r.count ≠ s.params.rxCap →
      exec i (withReceive r (v :: q) s) = .next (withReceive (ringPut s.params.rxCap r v).1 q s))
    (go : ∀ r q, stop (withReceive r q s) = false) (q : List Byte) :
    ∀ r, r.count ≤ s.params.rxCap → RunsTo stop i (min q.length (s.params.rxCap - r.count)) (withReceive r q s)
      (withReceive (rxDrainedRing s.params r q) (rxDrainedSlot s.params r q) s) := by
  induction q with
  | nil =>
    intro r _
    simp only [rxDrainedRing, rxDrainedSlot, List.take_nil, List.drop_nil, List.length_nil, Nat.zero_min]
    exact .refl _
  | cons v q ih =>
    intro r hle
    by_cases hfull : r.count = s.params.rxCap
    · simp only [rxDrainedRing, rxDrainedSlot, hfull, Nat.sub_self, List.take_zero, List.drop_zero, Nat.min_zero]
      exact .refl _
    · have count := ringPut_count v hfull
      have rest := ih (ringPut s.params.rxCap r v).1 (by omega)
      have room : s.params.rxCap - r.count = s.params.rxCap - (r.count + 1) + 1 := by omega
      rw [rxDrainedRing, rxDrainedSlot, count] at rest
      rw [rxDrainedRing, rxDrainedSlot, room, List.length_cons, Nat.add_min_add_right, List.take_succ_cons,
        List.drop_succ_cons]
      exact .step (move r v q hfull) (go _ _) rest

/-- The running EV_RXD to the end of its loop: one micro-step for each byte, and the test. -/
theorem runsTo_evRxd {s : State} (hf : s.fault = 0) (running : s.isr = ⟨.rxd, false⟩) (hidden : s.tp.hostInRx = false)
    (rx : RingOk s.params.rxCap s.rx) :
    RunsTo isrDone .evRxd (min s.phy.rxq.length (s.params.rxCap - s.rx.count) + 1) s (endLoop
      (withReceive (rxDrainedRing s.params s.rx s.phy.rxq) (rxDrainedSlot s.params s.rx s.phy.rxq) s)) := by
  have go : (s.isr.active == .none) = false := by rw [running]; rfl
  have loop (r q) : exec .evRxd (withReceive r q s) = rxdDrain (withReceive r q s) :=
    (exec_evRxd_loop (s := withReceive r q s) hf running).trans
      (ringAccess_free fun ⟨_, h⟩ => absurd (hidden.symm.trans h) Bool.noConfusion)
  refine (runsTo_rxDrain (fun r v q room => ?_) (fun _ _ => go) s.phy.rxq s.rx rx.count_le).trans
    (.single ((loop _ _).trans (rxdDrain_over (rxDrained_over rx))) go)
  rw [loop, rxdDrain_move room (List.cons_ne_nil v q)]
  exact movePhyToRx_cons .isr rfl

/-- The state EV_RXD leaves. -/
theorem exitHandler_rxd_drained {s : State} (idle : s.isr = ⟨.none, false⟩) (r : Ring) (q : List Byte) :
    exitHandler .rxd (endLoop (withReceive r q (enterHandler .rxd s))) =
      (s.withRx r).withPhy { s.phy with rxq := q, rxPending := false } := by
  cases s
  cases idle
  rfl

/-- Settles O30: the dispatch, the drain with the test that ends it, the exit. -/
theorem evRxdCompletes : Obligations.EvRxdCompletes := by
  intro s inv he clear hidden
  have hf := fault_of_enabled (by decide) he
  have idle := isr_of_dispatch_enabled inv (.inr he)
  have enters : exec .evRxd s = .next (enterHandler .rxd s) := by
    rw [exec_evRxd_of_enabled he, clear]
    exact dispatchHandler_enter (by simp [hidden])
  have loop := runsTo_evRxd (s := enterHandler .rxd s) hf rfl hidden inv.rx
  have exits := (exec_evRxd_exit (s := endLoop (withReceive (rxDrainedRing s.params s.rx s.phy.rxq)
    (rxDrainedSlot s.params s.rx s.phy.rxq) (enterHandler .rxd s))) hf rfl).trans
    (congrArg _ (exitHandler_rxd_drained idle _ _))
  have run := ((RunsTo.single enters rfl).trans loop).execUntil_last exits (by simp [isrDone, idle])
  have drained := inv.rx.rxDrained (q := s.phy.rxq)
  refine ⟨_, _, ?_, run, drained.holds, drained.ring, fun a => read_rxDrainedRing inv.rx, rfl⟩
  have hmoves : min s.phy.rxq.length (s.params.rxCap - s.rx.count) ≤ s.params.rxCap - s.rx.count := Nat.min_le_right _ _
  change 1 + (min s.phy.rxq.length (s.params.rxCap - s.rx.count) + 1) + 1 ≤ _
  omega

end Sys2Proof.Safety
end

section
/-! PROOFS. O23, O25, O26 (R121 to R126): TP_WRITE and TP_READ with no other agent stepping. One lemma runs one byte's guarded
region, one the drain's, for every command that runs the body; between the regions the state is `writeAhead` or `readAhead`. -/

namespace Sys2Proof.Safety

open Sys2Proof.Machine

/-! ### Runs that end -/

/-- Some run of the instruction `i` leads from `s` to `t`, and none of the states reached satisfies `stop`. -/
def Reaches (stop : State → Bool) (i : Instr) (s t : State) : Prop := ∃ n, RunsTo stop i n s t

section Reaches

variable {stop : State → Bool} {i : Instr} {s u t : State}

theorem Reaches.refl (s : State) : Reaches stop i s s := ⟨0, .refl s⟩

theorem Reaches.step (e : exec i s = .next u) (go : stop u = false) (h : Reaches stop i u t) : Reaches stop i s t := by
  obtain ⟨n, run⟩ := h
  exact ⟨n + 1, .step e go run⟩

theorem Reaches.trans (h : Reaches stop i s u) (h' : Reaches stop i u t) : Reaches stop i s t := by
  obtain ⟨n, run⟩ := h
  obtain ⟨m, run'⟩ := h'
  exact ⟨n + m, run.trans run'⟩

/-- The run that ends after its last micro-step. -/
theorem Reaches.execUntil_last (h : Reaches stop i s u) (e : exec i u = .next t) (hstop : stop t = true) :
    ∃ n, execUntil stop i n s = some t := by
  obtain ⟨n, run⟩ := h
  exact ⟨n + 1, run.execUntil_last e hstop⟩

/-- A first micro-step that two states share is followed by the same run. -/
theorem execUntil_congr (e : exec i s = exec i u) (n : Nat) : execUntil stop i n s = execUntil stop i n u := by
  cases n with
  | zero => rfl
  | succ n => rw [execUntil, execUntil, e]

/-- More fuel than a run needs changes nothing. -/
theorem execUntil_add (k : Nat) : ∀ {n : Nat} {s : State}, execUntil stop i n s = some t →
    execUntil stop i (n + k) s = some t
  | 0, _, h => by cases h
  | n + 1, s, h => by
    rw [Nat.add_right_comm]
    rw [execUntil] at h ⊢
    cases e : exec i s with
    | next u =>
      simp only [e] at h ⊢
      split at h
      · rwa [if_pos ‹_›]
      · rw [if_neg ‹_›]
        exact execUntil_add k h
    | fault | refused => simp [e] at h

end Reaches

theorem hostDone_eq_false {i : Instr} {s : State} (run : Running i s) : hostDone s = false := by
  rw [hostDone, run.2]
  rfl

/-! ### The body of TP_WRITE (R121) -/

/-- Clearing a guard and a flag that are clear is no change. -/
theorem clearTxGuard_eq_self {s : State} (g : GuardsClear s) : clearTxGuard s = s := by
  have tp : (⟨false, s.tp.readLock, s.tp.lineEn, false, s.tp.hostInRx⟩ : Transport) = s.tp := by
    calc (⟨false, s.tp.readLock, s.tp.lineEn, false, s.tp.hostInRx⟩ : Transport)
      _ = ⟨s.tp.writeLock, s.tp.readLock, s.tp.lineEn, s.tp.hostInTx, s.tp.hostInRx⟩ := by rw [g.writeLock, g.hostInTx]
      _ = s.tp := rfl
  exact congrArg s.withTp tp

/-- The state before the bytes `todo` of a TP_WRITE body, with `tx` the ring `r`. -/
def writeAhead (todo later : List Byte) (r : Ring) (s : State) : State :=
  setPhase (.write (nextWritePos todo s) todo later) (s.withTx r)

section Write

variable {i : Instr} (hi : writesChannel i = true) {s : State} (run : Running i s) (later : List Byte)
include hi run

/-- A micro-step of the body at the position `pos`. -/
theorem exec_write_pos (pos : WritePos) (todo : List Byte) :
    exec i (setPhase (.write pos todo later) s) =
      writeAt (writeDone i) pos todo later (setPhase (.write pos todo later) s) :=
  exec_write_at hi run rfl

/-- A byte's guarded region: the guard set, the RingPut, the guard cleared. -/
theorem reaches_putRegion (b : Byte) (todo : List Byte) :
    Reaches hostDone i (setPhase (.write .lock (b :: todo) later) s)
      (writeAhead todo later (ringPut s.params.txCap s.tx b).1 (clearTxGuard s)) := by
  have go := hostDone_eq_false run
  exact .step (exec_write_pos hi run later .lock _) go
    (.step (exec_write_pos hi (s := setWriteLock s) run later .put _) go
      (.step (exec_write_pos hi (s := (setWriteLock s).withTx _) run later .unlock _) go (.refl _)))

/-- The drain of the kick and the test that ends it. -/
theorem reaches_kickDrain (hp : s.host.phase = .write .kick [] later) (tx : RingOk s.params.txCap s.tx)
    (hq : s.phy.txq.length ≤ s.params.hwTxDepth) :
    Reaches hostDone i s (setPhase (.write .kickUnlock [] later)
      (withTransmit (txDrainedRing s.params s.tx s.phy.txq) (txDrainedSlot s.params s.tx s.phy.txq) s)) := by
  have go := hostDone_eq_false run
  have kick (r q) := exec_write_at (s := withTransmit r q s) hi run hp
  refine .trans ⟨_, runsTo_txDrain tx hq (fun r q v room hne got => ?_) fun _ _ => go⟩
    (.step ((kick _ _).trans (writeAt_kick_over _ _ _ (txDrained_over tx hq).symm)) go (.refl _))
  rw [kick, writeAt_kick_move _ _ _ room hne]
  exact moveTxToPhy_of_byte (s := withTransmit r q s) .host ((phyTxFull_eq_false_iff _).2 room) got

/-- The kick's guarded region up to the micro-step that clears the guard. -/
theorem reaches_kickRegion (tx : RingOk s.params.txCap s.tx) (hq : s.phy.txq.length ≤ s.params.hwTxDepth) :
    Reaches hostDone i (setPhase (.write .kickLock [] later) s)
      (setPhase (.write .kickUnlock [] later) (withTransmit (txDrainedRing s.params s.tx s.phy.txq)
        (txDrainedSlot s.params s.tx s.phy.txq) (setWriteLock s))) :=
  .step (exec_write_pos hi run later .kickLock []) (hostDone_eq_false run)
    (reaches_kickDrain hi (s := setPhase (.write .kick [] later) (setWriteLock s)) run later rfl tx hq)

/-- One byte, from a spin that sees room. -/
theorem reaches_writeByte (b : Byte) (todo : List Byte) {r : Ring} (room : r.count < s.params.txCap) :
    Reaches hostDone i (writeAhead (b :: todo) later r s)
      (writeAhead todo later (ringPut s.params.txCap r b).1 (clearTxGuard s)) := by
  have go := hostDone_eq_false run
  refine .step ((exec_write_pos hi (s := s.withTx r) run later .spin (b :: todo)).trans (if_pos room)) go ?_
  rw [guardTxPos_eq]
  split
  · exact .step (exec_write_pos hi (s := s.withTx r) run later .mark (b :: todo)) go
      (reaches_putRegion hi (s := markTx (s.withTx r)) run later b todo)
  · exact reaches_putRegion hi (s := s.withTx r) run later b todo

/-- The kick; what it leaves in `tp` its last micro-step clears. -/
theorem reaches_kickUnlock {r : Ring} (hr : RingOk s.params.txCap r) (hq : s.phy.txq.length ≤ s.params.hwTxDepth) :
    ∃ tp, clearTxGuard (s.withTp tp) = clearTxGuard s ∧
      Reaches hostDone i (writeAhead [] later r s) (setPhase (.write .kickUnlock [] later)
        ((withTransmit (txDrainedRing s.params r s.phy.txq) (txDrainedSlot s.params r s.phy.txq) s).withTp tp)) := by
  rw [writeAhead, nextWritePos_nil]
  split
  · exact ⟨{ s.tp with writeLock := true, hostInTx := true }, rfl,
      .step (exec_write_pos hi (s := s.withTx r) run later .kickMark []) (hostDone_eq_false run)
        (reaches_kickRegion hi (s := markTx (s.withTx r)) run later hr hq)⟩
  · exact ⟨{ s.tp with writeLock := true }, rfl, reaches_kickRegion hi (s := s.withTx r) run later hr hq⟩

/-- The body of TP_WRITE, by induction on its bytes: each finds room and is queued, then the kick (R121, R122). -/
theorem reaches_writeBody (clear : clearTxGuard s = s) (hq : s.phy.txq.length ≤ s.params.hwTxDepth) (todo : List Byte) :
    ∀ {r : Ring}, RingOk s.params.txCap r → r.count + todo.length ≤ s.params.txCap →
    ∃ tp, clearTxGuard (s.withTp tp) = s ∧
      Reaches hostDone i (writeAhead todo later r s) (setPhase (.write .kickUnlock [] later)
        ((withTransmit (txDrainedRing s.params (ringPutAll s.params.txCap r todo) s.phy.txq)
          (txDrainedSlot s.params (ringPutAll s.params.txCap r todo) s.phy.txq) s).withTp tp)) := by
  induction todo with
  | nil =>
    intro r hr _
    obtain ⟨tp, htp, kick⟩ := reaches_kickUnlock hi run later hr hq
    exact ⟨tp, htp.trans clear, kick⟩
  | cons b todo ih =>
    intro r hr hle
    rw [List.length_cons] at hle
    have byte := reaches_writeByte hi run later b todo (r := r) (by omega)
    rw [clear] at byte
    obtain ⟨tp, htp, rest⟩ := ih (hr.put b) (by rw [ringPut_count b (by omega)]; omega)
    exact ⟨tp, htp, byte.trans rest⟩

end Write

/-- TP_WRITE's first micro-step is the one at the position its body begins with. -/
theorem exec_tpWrite_ahead {bytes : List Byte} {s : State} (ready : Ready (.tpWrite bytes) s) (on : s.tp.lineEn = true) :
    exec (.tpWrite bytes) s = exec (.tpWrite bytes) (writeAhead bytes [] s.tx s) := by
  rw [exec_tpWrite_first ready on, writeAt_nextWritePos]
  exact (exec_tpWrite_at (s := writeAhead bytes [] s.tx s) ready.1 rfl).symm

/-- TP_WRITE's last micro-step, the guard of the kick cleared. -/
theorem exec_tpWrite_last {bytes : List Byte} {s : State} {r : Ring} {q : List Byte} {tp : Transport}
    (run : Running (.tpWrite bytes) s) (htp : clearTxGuard (s.withTp tp) = s) :
    exec (.tpWrite bytes) (setPhase (.write .kickUnlock [] []) ((withTransmit r q s).withTp tp)) =
      .next (respond statusOk (countValue bytes.length) [] (withTransmit r q s)) := by
  conv_rhs => rw [← htp]
  exact exec_tpWrite_at (s := setPhase (.write .kickUnlock [] []) ((withTransmit r q s).withTp tp)) run rfl

/-- Settles O23: the body, then the micro-step that clears the kick's guard and answers. -/
theorem tpWriteCompletes : Obligations.TpWriteCompletes := by
  intro bytes s inv ready on hle
  have hq := inv.phy.txq_le
  have clear := clearTxGuard_eq_self (inv.guardsClear ready.1.1 (by rw [ready.2]; exact outside_start))
  have queued := queued_ringPutAll bytes inv.tx hle
  obtain ⟨tp, htp, body⟩ := reaches_writeBody (i := .tpWrite bytes) rfl ready.1 [] clear hq bytes inv.tx hle
  obtain ⟨n, run⟩ := body.execUntil_last (exec_tpWrite_last ready.1 htp) rfl
  refine ⟨n, _, (execUntil_congr (exec_tpWrite_ahead ready on) n).trans run, ?_, ?_, ?_, fun a ha => ?_, ⟨.start, rfl⟩⟩
  · rw [List.append_assoc, ← queued.holds]
    rfl
  · rw [List.append_assoc, ← queued.holds]
    exact txDrainedRing_holds queued.ring hq
  · exact txDrainedRing_ok queued.ring
  · exact (congrArg (Memory.read · a) (ringSkip_buf _ _ _)).trans (queued.frame a ha)

/-! ### The body of TP_READ (R124) -/

theorem clearRxGuard_eq_self {s : State} (g : GuardsClear s) : clearRxGuard s = s := by
  have tp : (⟨s.tp.writeLock, false, s.tp.lineEn, s.tp.hostInTx, false⟩ : Transport) = s.tp := by
    calc (⟨s.tp.writeLock, false, s.tp.lineEn, s.tp.hostInTx, false⟩ : Transport)
      _ = ⟨s.tp.writeLock, s.tp.readLock, s.tp.lineEn, s.tp.hostInTx, s.tp.hostInRx⟩ := by rw [g.readLock, g.hostInRx]
      _ = s.tp := rfl
  exact congrArg s.withTp tp

/-- The state in which a TP_READ body has `left` bytes still to dequeue and has dequeued `out`, with `rx` the ring `r`. -/
def readAhead (left : Nat) (out : List Byte) (r : Ring) (s : State) : State :=
  setPhase (.read (nextReadPos left s) left out) (s.withRx r)

section Read

variable {i : Instr} (hi : readsChannel i = true) {s : State} (run : Running i s)
include hi run

/-- A micro-step of the body at the position `pos`. -/
theorem exec_read_pos (pos : ReadPos) (left : Nat) (out : List Byte) :
    exec i (setPhase (.read pos left out) s) = readAt (readDone i) pos left out (setPhase (.read pos left out) s) :=
  exec_read_at hi run rfl

/-- A byte's guarded region up to its RingGet; what it leaves in `tp` the region's end clears. -/
theorem reaches_get (left : Nat) (out : List Byte) (r : Ring) :
    ∃ tp, clearRxGuard (s.withTp tp) = clearRxGuard s ∧
      Reaches hostDone i (readAhead (left + 1) out r s)
        (setPhase (.read .get (left + 1) out) ((s.withRx r).withTp tp)) := by
  have go := hostDone_eq_false run
  rw [readAhead, nextReadPos_eq, if_neg (Nat.succ_ne_zero left)]
  split
  · exact ⟨{ s.tp with readLock := true, hostInRx := true }, rfl,
      .step (exec_read_pos hi (s := s.withRx r) run .mark (left + 1) out) go
        (.step (exec_read_pos hi (s := markRx (s.withRx r)) run .lock (left + 1) out) go (.refl _))⟩
  · exact ⟨{ s.tp with readLock := true }, rfl,
      .step (exec_read_pos hi (s := s.withRx r) run .lock (left + 1) out) go (.refl _)⟩

/-- One byte, from a ring that is not EMPTY. -/
theorem reaches_readByte (left : Nat) (out : List Byte) {r q : Ring} {v : Byte}
    (got : ringGet s.params.rxCap r = .byte v q) :
    Reaches hostDone i (readAhead (left + 1) out r s) (readAhead left (out ++ [v]) q (clearRxGuard s)) := by
  have go := hostDone_eq_false run
  obtain ⟨tp, htp, toGet⟩ := reaches_get hi run left out r
  have get := (exec_read_pos hi (s := (s.withRx r).withTp tp) run .get (left + 1) out).trans (readAt_get_byte _ _ _ got)
  have unlock := exec_read_pos hi (s := (s.withRx q).withTp tp) run .unlock (left + 1) (out ++ [v])
  rw [← htp]
  exact toGet.trans (.step get go (.step unlock go (.refl _)))

/-- The bytes that are there, by induction on their number. -/
theorem reaches_readBytes (clear : clearRxGuard s = s) (left n : Nat) : ∀ {r : Ring} (out : List Byte),
    RingOk s.params.rxCap r → n ≤ r.count →
    Reaches hostDone i (readAhead (left + n) out r s)
      (readAhead left (out ++ (contents s.params.rxCap r).take n) (ringSkip s.params.rxCap n r) s) := by
  induction n with
  | zero =>
    intro r out _ _
    rw [List.take_zero, List.append_nil]
    exact .refl _
  | succ n ih =>
    intro r out hr hle
    obtain ⟨v, got, hskip, hcons⟩ := hr.get_skip (by omega)
    have byte := reaches_readByte hi run (left + n) out got
    have rest := ih (out ++ [v]) hskip (by rw [ringSkip_count]; omega)
    rw [clear] at byte
    rw [List.append_assoc, List.singleton_append, ← List.take_succ_cons, ← hcons] at rest
    exact byte.trans rest

/-- The final drain and the test that ends it. -/
theorem reaches_readDrain {out : List Byte} (hp : s.host.phase = .read .drain 0 out) (rx : RingOk s.params.rxCap s.rx) :
    Reaches hostDone i s (setPhase (.read .drainUnlock 0 out)
      (withReceive (rxDrainedRing s.params s.rx s.phy.rxq) (rxDrainedSlot s.params s.rx s.phy.rxq) s)) := by
  have go := hostDone_eq_false run
  have drain (r q) := exec_read_at (s := withReceive r q s) hi run hp
  refine .trans ⟨_, runsTo_rxDrain (fun r v q room => ?_) (fun _ _ => go) s.phy.rxq s.rx rx.count_le⟩
    (.step ((drain _ _).trans (readAt_drain_over _ _ _ (rxDrained_over rx))) go (.refl _))
  rw [drain, readAt_drain_move _ _ _ room (List.cons_ne_nil v q)]
  exact movePhyToRx_cons .host rfl

/-- The final drain's guarded region; what it leaves in `tp` its last micro-step clears. -/
theorem reaches_drainUnlock (out : List Byte) {r : Ring} (hr : RingOk s.params.rxCap r) :
    ∃ tp, clearRxGuard (s.withTp tp) = clearRxGuard s ∧
      Reaches hostDone i (readAhead 0 out r s) (setPhase (.read .drainUnlock 0 out)
        ((withReceive (rxDrainedRing s.params r s.phy.rxq) (rxDrainedSlot s.params r s.phy.rxq) s).withTp tp)) := by
  have go := hostDone_eq_false run
  have region {u : State} (hu : Running i u) (rx : RingOk u.params.rxCap u.rx) :=
    Reaches.step (exec_read_pos hi hu .drainLock 0 out) (hostDone_eq_false hu)
      (reaches_readDrain hi (s := setPhase (.read .drain 0 out) (setReadLock u)) hu rfl rx)
  rw [readAhead, nextReadPos_eq, if_pos rfl]
  split
  · exact ⟨{ s.tp with readLock := true, hostInRx := true }, rfl,
      .step (exec_read_pos hi (s := s.withRx r) run .drainMark 0 out) go (region (u := markRx (s.withRx r)) run hr)⟩
  · exact ⟨{ s.tp with readLock := true }, rfl, region (u := s.withRx r) run hr⟩

end Read

/-- TP_READ's first micro-step is the one at the position its body begins with. -/
theorem exec_tpRead_ahead {n : Half} {s : State} (ready : Ready (.tpRead n) s) (on : s.tp.lineEn = true) :
    exec (.tpRead n) s = exec (.tpRead n) (readAhead n.toNat [] s.rx s) := by
  rw [exec_tpRead_first ready on, readAt_nextReadPos]
  exact (exec_tpRead_at (s := readAhead n.toNat [] s.rx s) ready.1 rfl).symm

/-- TP_READ's last micro-step, the guard of the drain cleared. -/
theorem exec_tpRead_last {n : Half} {s : State} {r : Ring} {q out : List Byte} {tp : Transport}
    (run : Running (.tpRead n) s) (htp : clearRxGuard (s.withTp tp) = s) :
    exec (.tpRead n) (setPhase (.read .drainUnlock 0 out) ((withReceive r q s).withTp tp)) =
      .next (respond statusOk n out (withReceive r q s)) := by
  conv_rhs => rw [← htp]
  exact exec_tpRead_at (s := setPhase (.read .drainUnlock 0 out) ((withReceive r q s).withTp tp)) run rfl

/-- Settles O25: the bytes asked for, the final drain, the micro-step that clears its guard and answers. -/
theorem tpReadCompletes : Obligations.TpReadCompletes := by
  intro n s inv ready on hle
  have clear := clearRxGuard_eq_self (inv.guardsClear ready.1.1 (by rw [ready.2]; exact outside_start))
  obtain ⟨ring, holds⟩ := inv.rx.skip n.toNat hle
  have bytes := reaches_readBytes (i := .tpRead n) rfl ready.1 clear 0 n.toNat [] inv.rx hle
  rw [Nat.zero_add, List.nil_append] at bytes
  obtain ⟨tp, htp, drain⟩ := reaches_drainUnlock (i := .tpRead n) rfl ready.1
    ((contents s.params.rxCap s.rx).take n.toNat) ring
  obtain ⟨k, run⟩ := (bytes.trans drain).execUntil_last (exec_tpRead_last ready.1 (htp.trans clear)) rfl
  have drained := ring.rxDrained (q := s.phy.rxq)
  have slot : rxDrainedSlot s.params (ringSkip s.params.rxCap n.toNat s.rx) s.phy.rxq =
      s.phy.rxq.drop (s.params.rxCap - (s.rx.count - n.toNat)) := by rw [rxDrainedSlot, ringSkip_count]
  rw [slot] at run
  refine ⟨k, _, (execUntil_congr (exec_tpRead_ahead ready on) k).trans run, ?_, drained.ring, fun a ha => ?_,
    ⟨.start, rfl⟩⟩
  · rw [← holds, ← ringSkip_count]
    exact drained.holds
  · rw [← ringSkip_tail s.params.rxCap n.toNat] at ha
    exact (read_rxDrainedRing ring ha).trans (by rw [ringSkip_buf])

/-- Settles O26: the bytes that are there, then a RingGet that finds `rx` EMPTY. -/
theorem tpReadOfTooMuchFaults : Obligations.TpReadOfTooMuchFaults := by
  intro n s inv ready on hlt
  have clear := clearRxGuard_eq_self (inv.guardsClear ready.1.1 (by rw [ready.2]; exact outside_start))
  obtain ⟨left, hn⟩ : ∃ left, n.toNat = left + 1 + s.rx.count := ⟨n.toNat - s.rx.count - 1, by omega⟩
  have bytes := reaches_readBytes (i := .tpRead n) rfl ready.1 clear (left + 1) s.rx.count [] inv.rx le_rfl
  rw [← hn] at bytes
  have empty : (ringSkip s.params.rxCap s.rx.count s.rx).count = 0 := by rw [ringSkip_count, Nat.sub_self]
  obtain ⟨tp, _, toGet⟩ := reaches_get (i := .tpRead n) rfl ready.1 left
    ([] ++ (contents s.params.rxCap s.rx).take s.rx.count) (ringSkip s.params.rxCap s.rx.count s.rx)
  have fault := (exec_read_pos (i := .tpRead n) rfl
    (s := (s.withRx (ringSkip s.params.rxCap s.rx.count s.rx)).withTp tp) ready.1 .get (left + 1)
    ([] ++ (contents s.params.rxCap s.rx).take s.rx.count)).trans (readAt_get_empty _ _ _ empty)
  obtain ⟨k, run⟩ := (bytes.trans toGet).execUntil_last fault rfl
  have whole := execUntil_add (s.rx.count + 1) ((execUntil_congr (exec_tpRead_ahead ready on) k).trans run)
  exact ⟨_, _, whole, by omega, empty, rfl, rfl, rfl, rfl, rfl, rfl⟩

end Sys2Proof.Safety
end

section
/-! PROOFS. O37 to O41 (R142, R143, R150, R151, R168, R169): the escaping filter and what the wire bytes of a list of bytes
can be, the checksum as sums, and a frame as START, the escaped payload and checksum, END. -/

namespace Sys2Proof.Safety

open Sys2Proof.Machine

/-! ### The escaping filter (R142) -/

theorem reserved_iff (b : Byte) : reserved b = true ↔ b = START ∨ b = END ∨ b = ESC := by
  simp [reserved, or_assoc]

theorem not_reserved_iff (b : Byte) : reserved b = false ↔ b ≠ START ∧ b ≠ END ∧ b ≠ ESC := by
  rw [← Bool.not_eq_true, reserved_iff]
  tauto

theorem esc_of_reserved {b : Byte} (h : reserved b = true) : esc b = [ESC, b ^^^ XMASK] := if_pos h

theorem esc_of_plain {b : Byte} (h : reserved b = false) : esc b = [b] := if_neg (by simp [h])

theorem reserved_mask {b : Byte} (h : reserved b = true) : reserved (b ^^^ XMASK) = false := by
  rcases (reserved_iff b).1 h with rfl | rfl | rfl <;> decide

/-- The second byte of a pair is not reserved. -/
theorem reserved_of_esc_pair {b c d : Byte} (h : esc b = [c, d]) : reserved d = false := by
  cases hb : reserved b with
  | true =>
    rw [esc_of_reserved hb] at h
    cases h
    exact reserved_mask hb
  | false => simp [esc_of_plain hb] at h

/-- Settles O37: a byte is sent as a pair or as it is, as it is reserved or not. -/
theorem escapingFilter : Obligations.EscapingFilter := by
  refine ⟨fun b h => ?_, fun b hs he hx => ?_, rfl, rfl, rfl, fun b c d h => ?_⟩
  · exact esc_of_reserved ((reserved_iff b).2 h)
  · exact esc_of_plain ((not_reserved_iff b).2 ⟨hs, he, hx⟩)
  · exact (not_reserved_iff d).1 (reserved_of_esc_pair h)

/-- Neither START nor END is a wire byte of a byte. -/
theorem ne_of_mem_esc {b c : Byte} (h : c ∈ esc b) : c ≠ START ∧ c ≠ END := by
  cases hb : reserved b with
  | true =>
    rw [esc_of_reserved hb, List.mem_pair] at h
    rcases h with rfl | rfl
    · decide
    · obtain ⟨hs, he, _⟩ := (not_reserved_iff _).1 (reserved_mask hb)
      exact ⟨hs, he⟩
  | false =>
    rw [esc_of_plain hb, List.mem_singleton] at h
    obtain ⟨hs, he, _⟩ := (not_reserved_iff b).1 hb
    exact h ▸ ⟨hs, he⟩

theorem length_esc (b : Byte) : 1 ≤ (esc b).length ∧ (esc b).length ≤ 2 := by
  cases hb : reserved b with
  | true => simp [esc_of_reserved hb]
  | false => simp [esc_of_plain hb]

/-! ### Escaped bytes -/

theorem start_notMem_escaped (l : List Byte) : START ∉ l.flatMap esc := by
  intro h
  obtain ⟨b, _, hb⟩ := List.mem_flatMap.1 h
  exact (ne_of_mem_esc hb).1 rfl

theorem end_notMem_escaped (l : List Byte) : END ∉ l.flatMap esc := by
  intro h
  obtain ⟨b, _, hb⟩ := List.mem_flatMap.1 h
  exact (ne_of_mem_esc hb).2 rfl

theorem length_escaped (l : List Byte) : l.length ≤ (l.flatMap esc).length ∧ (l.flatMap esc).length ≤ 2 * l.length := by
  induction l with
  | nil => simp
  | cons b l ih =>
    have hb := length_esc b
    rw [List.flatMap_cons, List.length_append, List.length_cons]
    omega

/-- ESC stands only before the second byte of its pair. -/
theorem next_of_escaped (l : List Byte) : ∀ {k : Nat}, (l.flatMap esc)[k]? = some ESC →
    ∃ c, (l.flatMap esc)[k + 1]? = some c ∧ reserved c = false := by
  induction l with
  | nil => exact nofun
  | cons b l ih =>
    intro k h
    rw [List.flatMap_cons] at h ⊢
    cases hb : reserved b with
    | true =>
      have second := reserved_mask hb
      rw [esc_of_reserved hb] at h ⊢
      match k, h with
      | 0, _ => exact ⟨_, rfl, second⟩
      | 1, h => rw [Option.some.inj h] at second; cases second
      | k + 2, h => exact ih h
    | false =>
      rw [esc_of_plain hb] at h ⊢
      match k, h with
      | 0, h => rw [Option.some.inj h] at hb; cases hb
      | k + 1, h => exact ih h

/-! ### The checksum (R143) -/

theorem toNat_pair16 (hi lo : Byte) : (pair16 hi lo).toNat = hi.toNat * 256 + lo.toNat := by
  rw [pair16, BitVec.toNat_append, ← Nat.shiftLeft_add_eq_or_of_lt lo.isLt, Nat.shiftLeft_eq]

/-- Settles O38: sums of bytes are sums mod 256, and the fold takes one more byte at its end. -/
theorem checksumArithmetic : Obligations.ChecksumArithmetic := by
  refine ⟨fun s₁ s₂ b => ⟨BitVec.toNat_add _ _, ?_⟩, rfl, fun p b => ?_, fun s₁ s₂ => toNat_pair16 s₂ s₁⟩
  · exact (BitVec.toNat_add _ _).trans (by rw [BitVec.toNat_add])
  · rw [fletcher, List.foldl_append]
    rfl

theorem foldl_flStep_fst (p : List Byte) : ∀ s : Byte × Byte, (p.foldl flStep s).1 = s.1 + p.sum := by
  induction p with
  | nil => simp
  | cons b p ih =>
    intro s
    rw [List.foldl_cons, ih, List.sum_cons, flStep, add_assoc]

/-- The low checksum byte is the sum of the payload's bytes. -/
theorem fletcher_fst (p : List Byte) : (fletcher p).1 = p.sum :=
  (foldl_flStep_fst p _).trans (BitVec.zero_add _)

/-! ### Frames (R149 to R151) -/

/-- The bytes of the frame of `p` between START and END: the payload and its checksum, low byte first, escaped. -/
def frameBody (p : List Byte) : List Byte := (p ++ [(fletcher p).1, (fletcher p).2]).flatMap esc

theorem encodeFrame_eq (p : List Byte) : encodeFrame p = START :: (frameBody p ++ [END]) := by
  simp [encodeFrame, frameBody]

/-- Settles O40: START and END stand around the escaped bytes, which hold neither. -/
theorem wireProperty : Obligations.WireProperty := by
  intro p k b h
  rw [encodeFrame_eq] at h ⊢
  cases k with
  | zero =>
    obtain rfl := Option.some.inj h
    exact ⟨by decide, by simp [START], fun hx => absurd hx (by decide)⟩
  | succ j =>
    rw [List.getElem?_cons_succ] at h
    rcases Nat.lt_or_ge j (frameBody p).length with hj | hj
    · rw [List.getElem?_append_left hj] at h
      have hb : b ∈ frameBody p := List.mem_of_getElem? h
      have hs : b ≠ START := fun e => start_notMem_escaped _ (e ▸ hb)
      have he : b ≠ END := fun e => end_notMem_escaped _ (e ▸ hb)
      refine ⟨iff_of_false hs (by omega), iff_of_false he (by simp; omega), fun hx => ?_⟩
      obtain ⟨c, hc, plain⟩ := next_of_escaped _ (h.trans (congrArg some hx))
      have hlt : j + 1 < (frameBody p).length := (List.getElem?_eq_some_iff.1 hc).1
      refine ⟨c, ?_, (not_reserved_iff c).1 plain⟩
      rw [List.getElem?_cons_succ, List.getElem?_append_left hlt]
      exact hc
    · obtain ⟨rfl, rfl⟩ : j = (frameBody p).length ∧ b = END := by
        rw [List.getElem?_append_right hj, List.getElem?_singleton] at h
        split at h
        · exact ⟨by omega, (Option.some.inj h).symm⟩
        · cases h
      exact ⟨by simp [END], by simp [END], fun hx => absurd hx (by decide)⟩

/-- Settles O41: each of the payload's and the checksum's bytes takes one or two wire bytes. -/
theorem frameLength : Obligations.FrameLength := by
  refine ⟨fun p => ?_, by decide⟩
  have h := length_escaped (p ++ [(fletcher p).1, (fletcher p).2])
  rw [encodeFrame_eq, List.length_cons, List.length_append, frameBody]
  simp only [List.length_append, List.length_cons, List.length_nil] at h ⊢
  omega

end Sys2Proof.Safety
end

section
/-! PROOFS. O39, O42 to O44 (R154, R157 to R161, R164 to R166, R168, R169): Unescape undoes the escaping filter, Steps 2 to
6 on a buffer with no START, with no END, and with a whole frame, and pulls that each ingest a chunk. -/

namespace Sys2Proof.Safety

open Sys2Proof.Machine

/-! ### Unescape (R154) -/

theorem unescape_pair (c : Byte) (y : List Byte) :
    unescape (ESC :: c :: y) = ((c ^^^ XMASK) :: (unescape y).1, (unescape y).2) := by
  rw [unescape, if_pos rfl]

theorem unescape_byte {b : Byte} (h : b ≠ ESC) (y : List Byte) :
    unescape (b :: y) = (b :: (unescape y).1, (unescape y).2) := by
  cases y with
  | nil => simp [unescape, h]
  | cons c y => rw [unescape, if_neg h]

theorem unescape_esc (b : Byte) (y : List Byte) :
    unescape (esc b ++ y) = (b :: (unescape y).1, (unescape y).2) := by
  cases hb : reserved b with
  | true =>
    rw [esc_of_reserved hb]
    refine (unescape_pair _ y).trans ?_
    rw [BitVec.xor_assoc, BitVec.xor_self, BitVec.xor_zero]
  | false =>
    obtain ⟨_, _, hx⟩ := (not_reserved_iff b).1 hb
    rw [esc_of_plain hb]
    exact unescape_byte hx y

theorem unescape_escaped (l y : List Byte) :
    unescape (l.flatMap esc ++ y) = (l ++ (unescape y).1, (unescape y).2) := by
  induction l with
  | nil => rfl
  | cons b l ih =>
    rw [List.flatMap_cons, List.append_assoc, unescape_esc, ih]
    rfl

theorem unescape_flatMap_esc (l : List Byte) : unescape (l.flatMap esc) = (l, true) := by
  simpa [unescape] using unescape_escaped l []

/-- Escaped bytes with one byte among them that was sent as it is. -/
theorem unescape_escaped_byte {c : Byte} (h : c ≠ ESC) (x y : List Byte) :
    unescape (x.flatMap esc ++ c :: y.flatMap esc) = (x ++ c :: y, true) := by
  rw [unescape_escaped, unescape_byte h, unescape_flatMap_esc]

/-! ### Steps 4 and 5 (R159, R160) -/

theorem verify_of_unescape {y p : List Byte} {c₁ c₂ : Byte} (h : unescape y = (p ++ [c₁, c₂], true)) :
    verify y = if (c₁, c₂) = fletcher p then some p else none := by
  have hlen : (p ++ [c₁, c₂]).length - 2 = p.length := by simp
  simp only [verify, h, hlen, List.take_left, List.drop_left]
  simp [Prod.ext_iff]

theorem verify_frameBody (p : List Byte) : verify (frameBody p) = some p := by
  rw [frameBody, verify_of_unescape (unescape_flatMap_esc _), if_pos rfl]

/-! ### Steps 2 to 6 on byte lists (R157 to R161) -/

theorem fromStart_start (bs : List Byte) : fromStart (START :: bs) = START :: bs :=
  List.dropWhile_cons_of_neg (by decide)

theorem fromStart_eq_nil {bs : List Byte} (h : START ∉ bs) : fromStart bs = [] := by
  rw [fromStart, List.dropWhile_eq_nil_iff]
  exact fun b hb => bne_iff_ne.2 fun e => h (e ▸ hb)

/-- A search for START goes on from where one before it ended. -/
theorem fromStart_append (bs cs : List Byte) : fromStart (fromStart bs ++ cs) = fromStart (bs ++ cs) := by
  induction bs with
  | nil => rfl
  | cons b bs ih =>
    by_cases hb : b = START
    · rw [hb, fromStart_start]
    · have skip (l : List Byte) : fromStart (b :: l) = fromStart l := List.dropWhile_cons_of_pos (bne_iff_ne.2 hb)
      rw [skip, ih, List.cons_append, skip]

theorem fromStart_garbage {garbage : List Byte} (h : START ∉ garbage) (bs : List Byte) :
    fromStart (garbage ++ bs) = fromStart bs := by
  rw [← fromStart_append, fromStart_eq_nil h]
  rfl

theorem fromStart_fromStart (bs : List Byte) : fromStart (fromStart bs) = fromStart bs := by
  simpa using fromStart_append bs []

section PullOutcome

variable (par : Params)

/-- Step 2 drops what stands before the first START, so nothing depends on it (R157). -/
theorem pullOutcome_fromStart (bs : List Byte) : pullOutcome par (fromStart bs) = pullOutcome par bs := by
  have h := fromStart_fromStart bs
  unfold fromStart at h ⊢
  unfold pullOutcome
  rw [h]

theorem pullOutcome_of_no_start {bs : List Byte} (h : fromStart bs = []) : pullOutcome par bs = ([], []) := by
  rw [← pullOutcome_fromStart, h]
  rfl

/-- A buffer that begins with START and holds no END is kept, or flushed when it is full (R158). -/
theorem pullOutcome_of_no_end {body : List Byte} (h : fromEnd body = []) :
    pullOutcome par (START :: body) =
      ([], if (START :: body).length = par.accCap ∧ par.accFull = .flush then [] else START :: body) := by
  have hs := fromStart_start body
  unfold fromStart at hs
  unfold fromEnd at h
  simp only [pullOutcome, hs, h]

/-- A frame is verified, and the bytes behind it are kept from the next START on (R158 to R161). -/
theorem pullOutcome_of_end {body rest : List Byte} {b : Byte} (h : fromEnd body = b :: rest) :
    pullOutcome par (START :: body) = ((verify (beforeEnd body)).getD [], fromStart rest) := by
  have hs := fromStart_start body
  unfold fromStart at hs ⊢
  unfold fromEnd at h
  simp only [pullOutcome, hs, h, beforeEnd]

theorem pullOutcome_frame {y : List Byte} (h : END ∉ y) (rest : List Byte) :
    pullOutcome par (START :: (y ++ END :: rest)) = ((verify y).getD [], fromStart rest) := by
  have before (b) (hb : b ∈ y) : (b != END) = true := bne_iff_ne.2 fun e => h (e ▸ hb)
  have hend : fromEnd (y ++ END :: rest) = END :: rest := by
    rw [fromEnd, List.dropWhile_append_of_pos before]
    exact List.dropWhile_cons_of_neg (by decide)
  have hbody : beforeEnd (y ++ END :: rest) = y := by
    rw [beforeEnd, List.takeWhile_append_of_pos before, List.takeWhile_cons_of_neg (by decide), List.append_nil]
  rw [pullOutcome_of_end par hend, hbody]

/-- With no END in a buffer that is not full, what stands from the first START on is kept (R157, R158). -/
theorem pullOutcome_partial {bs : List Byte} (h : END ∉ bs) (hlt : bs.length < par.accCap) :
    pullOutcome par bs = ([], fromStart bs) := by
  rcases fromStart_cases bs with e | ⟨body, e, hlen⟩
  · rw [pullOutcome_of_no_start par e, e]
  · have suffix : fromStart bs <:+ bs := List.dropWhile_suffix _
    have hend : fromEnd body = [] := by
      rw [fromEnd, List.dropWhile_eq_nil_iff]
      intro b hb
      have mem : b ∈ fromStart bs := by rw [e]; exact List.mem_cons_of_mem _ hb
      exact bne_iff_ne.2 fun hE => h (hE ▸ suffix.subset mem)
    rw [← pullOutcome_fromStart, e, pullOutcome_of_no_end par hend, if_neg]
    rw [List.length_cons]
    omega

theorem pullOutcome_encodeFrame {garbage : List Byte} (h : START ∉ garbage) (p tail : List Byte) :
    pullOutcome par (garbage ++ encodeFrame p ++ tail) = (p, fromStart tail) := by
  rw [List.append_assoc, ← pullOutcome_fromStart, fromStart_garbage h, pullOutcome_fromStart, encodeFrame_eq,
    List.cons_append, List.append_assoc]
  refine (pullOutcome_frame par (end_notMem_escaped _) tail).trans ?_
  rw [← frameBody, verify_frameBody]
  rfl

end PullOutcome

/-- Settles O42: the search for START skips the garbage, and the frame verifies. -/
theorem pullFindsTheFrame : Obligations.PullFindsTheFrame :=
  fun par p _ tail h => pullOutcome_encodeFrame par h p tail

/-! ### Successive pulls (R164, R166) -/

/-- By induction on the chunks: before each pull the buffer holds what stands from the first START on of the bytes `seen` so
far, which a pull that meets no END keeps. -/
theorem pulls_chunks (par : Params) {body last : List Byte} {b : Byte} (noEnd : END ∉ body) (hne : last ≠ [])
    (fits : body.length < par.accCap) (chunks : List (List Byte)) : ∀ seen : List Byte,
    seen ++ chunks.flatten ++ last = body ++ [b] →
    pulls par (fromStart seen) (chunks ++ [last]) =
      (List.replicate chunks.length [] ++ [(pullOutcome par (body ++ [b])).1], (pullOutcome par (body ++ [b])).2) := by
  have pull (seen c : List Byte) : pullOutcome par (fromStart seen ++ c) = pullOutcome par (seen ++ c) := by
    rw [← pullOutcome_fromStart, fromStart_append, pullOutcome_fromStart]
  induction chunks with
  | nil =>
    intro seen h
    rw [List.flatten_nil, List.append_nil] at h
    simp only [List.nil_append, pulls, pull, h]
    rfl
  | cons c chunks ih =>
    intro seen h
    rw [List.flatten_cons, ← List.append_assoc] at h
    have pre : seen ++ c <+: body := by
      rw [← List.dropLast_append_getLast hne, ← List.append_assoc] at h
      exact ⟨chunks.flatten ++ last.dropLast, by simpa using List.append_inj_left' h rfl⟩
    have kept := pullOutcome_partial par (fun hm => noEnd (pre.subset hm)) (pre.length_le.trans_lt fits)
    rw [List.cons_append, pulls, pull, kept]
    simp only [ih (seen ++ c) h]
    rfl

/-- Settles O43: pulls before the last meet no END, since it is the frame's last byte. -/
theorem roundTripAcrossPulls : Obligations.RoundTripAcrossPulls := by
  intro par p garbage last chunks hs he hne h fits
  have split : garbage ++ encodeFrame p = (garbage ++ START :: frameBody p) ++ [END] := by
    rw [encodeFrame_eq, List.append_assoc, List.cons_append]
  have noEnd : END ∉ garbage ++ START :: frameBody p := by
    rw [List.mem_append, List.mem_cons]
    rintro (hm | hm | hm)
    · exact he hm
    · exact absurd hm (by decide)
    · exact end_notMem_escaped _ hm
  rw [← List.length_append, split, List.length_append] at fits
  have run := pulls_chunks par noEnd hne (Nat.lt_of_succ_le fits) chunks [] (h.trans split)
  have whole := pullOutcome_encodeFrame par hs p []
  rw [List.append_nil, split] at whole
  rw [whole] at run
  exact run

/-! ### Corrupted frames (R165) -/

/-- A region whose checksum bytes do not match is dropped without a payload (R160). -/
theorem pullOutcome_mismatch (par : Params) {y q : List Byte} {c₁ c₂ : Byte} (noEnd : END ∉ y)
    (h : unescape y = (q ++ [c₁, c₂], true)) (hne : (c₁, c₂) ≠ fletcher q) :
    pullOutcome par (START :: (y ++ [END])) = ([], []) := by
  rw [pullOutcome_frame par noEnd [], verify_of_unescape h, if_neg hne]
  rfl

/-- A region in which the byte between the escaped `x` and `y` is `c`, sent as it is. -/
theorem pullOutcome_replaced (par : Params) {x y q : List Byte} {c : Byte} (c₁ c₂ : Byte) (hE : c ≠ END) (hX : c ≠ ESC)
    (h : x ++ c :: y = q ++ [c₁, c₂]) (hne : (c₁, c₂) ≠ fletcher q) :
    pullOutcome par (START :: (x.flatMap esc ++ c :: y.flatMap esc ++ [END])) = ([], []) := by
  refine pullOutcome_mismatch par ?_ ((unescape_escaped_byte hX x y).trans (by rw [h])) hne
  rw [List.mem_append, List.mem_cons]
  rintro (hm | hm | hm)
  · exact end_notMem_escaped _ hm
  · exact hE hm.symm
  · exact end_notMem_escaped _ hm

/-- Payloads that differ in one byte differ in the low checksum byte. -/
theorem fletcher_fst_ne {b c : Byte} (h : c ≠ b) (x y : List Byte) :
    (fletcher (x ++ [b] ++ y)).1 ≠ (fletcher (x ++ [c] ++ y)).1 := by
  simp only [fletcher_fst, List.sum_append, List.sum_singleton]
  exact fun e => h (add_left_cancel (add_right_cancel e)).symm

/-- Settles O44: the replaced byte reaches the verification as it stands, and one of the two sums differs; the false accept is
computed. -/
theorem corruptionDetected : Obligations.CorruptionDetected := by
  refine ⟨fun par x y b c _ hne hE hX => ?_, fun par p c _ hne hE hX => ?_, fun par p c _ hne hE hX => ?_,
    fun par => ⟨by decide, ?_⟩⟩
  · have hsum := fletcher_fst_ne hne x y
    generalize fletcher (x ++ [b] ++ y) = f at hsum ⊢
    have h := pullOutcome_replaced par (x := x) (y := y ++ [f.1, f.2]) (q := x ++ [c] ++ y) f.1 f.2 hE hX (by simp)
      fun e => hsum (congrArg Prod.fst e)
    simpa [START, END] using h
  · have h := pullOutcome_replaced par (x := p) (y := [(fletcher p).2]) (q := p) c (fletcher p).2 hE hX rfl
      fun e => hne (congrArg Prod.fst e)
    simpa [START, END] using h
  · have h := pullOutcome_replaced par (x := p ++ [(fletcher p).1]) (y := []) (q := p) (fletcher p).1 c hE hX (by simp)
      fun e => hne (congrArg Prod.snd e)
    simpa [START, END] using h
  · exact pullOutcome_frame par (y := [0x15, 0x15, 0x15]) (by decide) [0x7E, 0x7F]

/-- Settles O39: the vectors are computed, and the source's frame decodes as every frame does. -/
theorem checksumVectors : Obligations.ChecksumVectors := by
  refine ⟨by decide, by decide, by decide, by decide, fun par => ?_⟩
  exact pullOutcome_encodeFrame par (garbage := []) List.not_mem_nil [0x01, 0x02, 0xF7] []

end Sys2Proof.Safety
end

section
/-! PROOFS. O34, O35 (R144, R155, R170 to R173): `FaultCause` is the table of the causes, and every micro-step keeps `fault` or
raises a code with its cause. `exec_encode` says once what the three encode commands share: the two checks, then
their own part. -/

namespace Sys2Proof.Safety

open Sys2Proof.Machine

/-! ### The encode commands as one (R144 to R148) -/

/-- The encoder's state that an encode command needs (R144). -/
def neededEnc : Instr → EncState
  | .fcStart => .idle
  | _ => .encoding

/-- The part of an encode command's first micro-step behind its checks (R145, R146, R148). -/
def encodeFirst : Instr → State → Result
  | .fcStart => chanWrite [START]
  | .fcPush b => fun s => chanWrite (esc b) (pushSums b s)
  | .fcFinish => fun s => chanWrite (finishBytes s) s
  | _ => fun _ => .refused .noSuchPhase

theorem exec_encode {i : Instr} {s : State} (he : IsEncode (some i)) (run : Running i s) :
    exec i s = chanMicro (requireLine (requireEnc (neededEnc i) (encodeFirst i))) (writeDone i) s := by
  rcases he with e | ⟨b, e⟩ | e <;> cases e
  · exact exec_fcStart run
  · exact exec_fcPush run
  · exact exec_fcFinish run

theorem exec_encode_start {i : Instr} {s : State} (he : IsEncode (some i)) (ready : Ready i s) :
    exec i s = requireLine (requireEnc (neededEnc i) (encodeFirst i)) s := by
  rw [exec_encode he ready.1, chanMicro, ready.2]

theorem requireEnc_in {e : EncState} {body : State → Result} {s : State} (h : s.fc.encState = e) :
    requireEnc e body s = body s := if_pos h

theorem requireEnc_wrong {e : EncState} {body : State → Result} {s : State} (h : s.fc.encState ≠ e) :
    requireEnc e body s = raiseHost codeCodecState s := if_neg h

/-! ### The order of the checks (R173) -/

/-- An encode command in the wrong encoder state, on an enabled line. -/
theorem exec_encode_wrong {i : Instr} {s : State} (he : IsEncode (some i)) (ready : Ready i s) (on : s.tp.lineEn = true)
    (wrong : s.fc.encState ≠ neededEnc i) : ∃ t, exec i s = .next t ∧ Faults 0x02 s t :=
  ⟨_, (exec_encode_start he ready).trans ((requireLine_on on).trans (requireEnc_wrong wrong)),
    faults_takeFault codeCodecState s⟩

/-- Settles O35: acceptance comes first, then the line check, then the encoder's state. -/
theorem codecStateChecks : Obligations.CodecStateChecks := by
  refine ⟨fun s on => ⟨fun ready enc => ?_, fun b ready enc => ?_, fun ready enc => ?_⟩, fun i s he ready off => ?_,
    fun i s idle hi refused => ?_⟩
  · exact exec_encode_wrong (.inl rfl) ready on (by rw [enc]; exact nofun)
  · exact exec_encode_wrong (.inr (.inl ⟨b, rfl⟩)) ready on (by rw [enc]; exact nofun)
  · exact exec_encode_wrong (.inr (.inr rfl)) ready on (by rw [enc]; exact nofun)
  · exact ⟨_, (exec_encode_start he ready).trans (requireLine_off off), faults_takeFault codeNotInit s⟩
  · refine ⟨_, exec_accept idle hi, ?_⟩
    rw [acceptCommand, if_neg (by simp [refused])]
    exact faults_takeFault codeIllegal s

/-! ### The causes of the fault codes (R170) -/

/-- The cause of each code, for a micro-step of the instruction `i` from the state `s`. -/
def FaultCause (i : Instr) (s : State) : Byte → Prop
  | 0x00#8 => True
  | 0x01#8 => (∃ r, i = .rbRead r ∧ (selected r s).count = 0) ∨ (∃ n, i = .tpRead n ∧ s.rx.count = 0)
  | 0x02#8 => (i = .fcStart ∧ s.fc.encState = .encoding) ∨
      ((i = .fcFinish ∨ ∃ b, i = .fcPush b) ∧ s.fc.encState = .idle)
  | 0x03#8 => s.params.race = .opened ∧
      ((i = .evTxc ∧ s.tp.writeLock = false ∧ s.tp.hostInTx = true) ∨
       (i = .evRxd ∧ s.tp.readLock = false ∧ s.tp.hostInRx = true))
  | 0x04#8 => s.host.cmd = none ∧ i.accepted s.params = false
  | 0x05#8 => usesLine i = true ∧ s.tp.lineEn = false
  | _ => False

theorem toNat_le_of_faultCause {i : Instr} {s : State} {c : Byte} (h : FaultCause i s c) : c.toNat ≤ 0x05 := by
  unfold FaultCause at h
  split at h
  case h_7 => exact h.elim
  all_goals decide

/-- The micro-step of `i` from `s` keeps `fault` or raises a code with its cause. -/
abbrev HasCause (i : Instr) (s : State) (r : Result) : Prop :=
  OnNext (fun t => t.fault = s.fault ∨ FaultCause i s t.fault) r

/-- The micro-step from `s` raises nothing. -/
abbrev KeepsFault (s : State) (r : Result) : Prop := OnNext (fun t => t.fault = s.fault) r

theorem KeepsFault.hasCause {s : State} {r : Result} (h : KeepsFault s r) (i : Instr) : HasCause i s r :=
  fun t e => .inl (h t e)

theorem requireLine_hasCause {i : Instr} {s : State} {body : State → Result} (uses : usesLine i = true)
    (h : HasCause i s (body s)) : HasCause i s (requireLine body s) :=
  onNext_requireLine (fun _ => h) fun off => .inr ⟨uses, off⟩

/-! ### The moves of a byte -/

theorem moveTxToPhy_keepsFault (w : Agent) {s : State} (h : s.tx.count ≠ 0) : KeepsFault s (moveTxToPhy w s) := by
  unfold moveTxToPhy
  rcases ringGet_cases s.params.txCap s.tx with ⟨h0, _⟩ | ⟨_, _, got⟩ | ⟨v, _, _, got⟩
  · exact absurd h0 h
  · rw [got]; exact onNext_fault
  · rw [got]
    refine onNext_next.2 ?_
    unfold phyTxPush
    split <;> rfl

theorem movePhyToRx_keepsFault (w : Agent) {s : State}
    (h : ¬ (ringFull s.params.rxCap s.rx || !phyRxAvail s) = true) : KeepsFault s (movePhyToRx w s) := by
  obtain ⟨v, rest, slot⟩ := exists_slot_of_drain h
  rw [movePhyToRx_cons w slot]
  exact onNext_next.2 rfl

/-! ### The bodies of TP_WRITE and TP_READ -/

theorem writeAt_keepsFault {done : State → Result} {s : State} (hdone : KeepsFault s (done (clearTxGuard s)))
    (pos : WritePos) (todo later : List Byte) : KeepsFault s (writeAt done pos todo later s) := by
  cases pos with
  | spin => rw [writeAt_spin]; exact onNext_next.2 rfl
  | put =>
    cases todo with
    | nil => exact onNext_refused
    | cons => exact onNext_next.2 rfl
  | kick =>
    rw [writeAt]
    split
    · exact onNext_next.2 rfl
    · rename_i go
      rw [Bool.or_eq_true, not_or] at go
      exact moveTxToPhy_keepsFault .host (by simpa [ringEmpty] using go.2)
  | kickUnlock =>
    cases later with
    | nil => exact hdone
    | cons => exact onNext_next.2 rfl
  | mark | lock | unlock | kickMark | kickLock => exact onNext_next.2 rfl

theorem writeDone_keepsFault (i : Instr) (s : State) : KeepsFault s (writeDone i (clearTxGuard s)) := by
  cases i with
  | tpWrite | fcStart | fcPush | fcFinish => exact onNext_next.2 rfl
  | _ => exact onNext_refused

theorem readDone_keepsFault (i : Instr) (out : List Byte) (s : State) : KeepsFault s (readDone i out (clearRxGuard s)) := by
  cases i with
  | tpRead | fcPull => exact onNext_next.2 rfl
  | _ => exact onNext_refused

/-- Only the RingGet of the body of TP_READ raises a fault, and only on an EMPTY ring (R126). -/
theorem readAt_hasCause {i : Instr} {s : State} (pos : ReadPos) (left : Nat) (out : List Byte)
    (hget : pos = .get → s.rx.count = 0 → FaultCause i s codeEmptyRead) :
    HasCause i s (readAt (readDone i) pos left out s) := by
  cases pos with
  | get =>
    rw [readAt]
    rcases ringGet_cases s.params.rxCap s.rx with ⟨h0, got⟩ | ⟨_, _, got⟩ | ⟨v, _, _, got⟩ <;> rw [got]
    · exact onNext_raiseHost.2 (.inr (hget rfl h0))
    · exact onNext_fault
    · exact onNext_next.2 (.inl rfl)
  | drain =>
    rw [readAt]
    split
    · exact onNext_next.2 (.inl rfl)
    · exact (movePhyToRx_keepsFault .host ‹_›).hasCause i
  | drainUnlock => exact (readDone_keepsFault i out s).hasCause i
  | mark | lock | unlock | drainMark | drainLock => exact onNext_next.2 (.inl rfl)

theorem enterRead_hasCause {i : Instr} {s : State} (uses : usesLine i = true) (left : Nat) :
    HasCause i s (enterRead (readDone i) left s) :=
  requireLine_hasCause uses (readAt_hasCause _ left [] fun e => absurd e (nextReadPos_ne_get left s))

/-! ### The commands in progress -/

theorem exec_tpWrite_hasCause {bytes : List Byte} {s : State} (run : Running (.tpWrite bytes) s) :
    HasCause (.tpWrite bytes) s (exec (.tpWrite bytes) s) := by
  have body (pos todo later) := (writeAt_keepsFault (writeDone_keepsFault (.tpWrite bytes) s) pos todo later).hasCause
    (.tpWrite bytes)
  simp only [exec, execTpWrite]
  rw [running_body run]
  split
  · exact requireLine_hasCause rfl (body _ _ _)
  · exact body _ _ _
  all_goals exact onNext_refused

theorem chanWrite_keepsFault {s u : State} (bytes : List Byte) (h : u.fault = s.fault) :
    KeepsFault s (chanWrite bytes u) := by
  cases bytes with
  | nil => exact onNext_refused
  | cons => exact onNext_next.2 h

theorem encodeFirst_keepsFault (i : Instr) (s : State) : KeepsFault s (encodeFirst i s) := by
  cases i with
  | fcStart => exact chanWrite_keepsFault (u := s) [START] rfl
  | fcPush b => exact chanWrite_keepsFault (u := pushSums b s) _ rfl
  | fcFinish => exact chanWrite_keepsFault (u := s) _ rfl
  | _ => exact onNext_refused

/-- An encoder state that an encode command does not need is CODEC_STATE's cause (R144). -/
theorem faultCause_codecState {i : Instr} {s : State} (he : IsEncode (some i)) (wrong : s.fc.encState ≠ neededEnc i) :
    FaultCause i s codeCodecState := by
  rcases he with e | ⟨b, e⟩ | e <;> cases e
  · exact .inl ⟨rfl, by cases h : s.fc.encState with | idle => exact absurd h wrong | encoding => rfl⟩
  · exact .inr ⟨.inr ⟨b, rfl⟩, by cases h : s.fc.encState with | idle => rfl | encoding => exact absurd h wrong⟩
  · exact .inr ⟨.inl rfl, by cases h : s.fc.encState with | idle => rfl | encoding => exact absurd h wrong⟩

theorem exec_encode_hasCause {i : Instr} {s : State} (he : IsEncode (some i)) (run : Running i s) :
    HasCause i s (exec i s) := by
  have uses : usesLine i = true := by rcases he with e | ⟨b, e⟩ | e <;> cases e <;> rfl
  have body (pos todo later) := (writeAt_keepsFault (writeDone_keepsFault i s) pos todo later).hasCause i
  rw [exec_encode he run, chanMicro]
  split
  · refine requireLine_hasCause uses ?_
    by_cases henc : s.fc.encState = neededEnc i
    · rw [requireEnc_in henc]
      exact (encodeFirst_keepsFault i s).hasCause i
    · rw [requireEnc_wrong henc]
      exact onNext_raiseHost.2 (.inr (faultCause_codecState he henc))
  · exact requireLine_hasCause uses (body _ _ _)
  · exact body _ _ _
  all_goals exact onNext_refused

theorem exec_tpRead_hasCause {n : Half} {s : State} (run : Running (.tpRead n) s) :
    HasCause (.tpRead n) s (exec (.tpRead n) s) := by
  simp only [exec, execTpRead]
  rw [running_body run]
  split
  · exact enterRead_hasCause (i := .tpRead n) rfl _
  · exact readAt_hasCause (i := .tpRead n) _ _ _ fun _ h0 => .inr ⟨n, rfl, h0⟩
  all_goals exact onNext_refused

/-- The bytes that FC_PULL's body dequeues are in `rx`, so its RingGet finds one (R155). -/
theorem Inv.pull_covered {s : State} {left : Nat} {out : List Byte} (inv : Inv s) (run : Running .fcPull s)
    (hp : s.host.phase = .read .get left out) : s.rx.count ≠ 0 := by
  obtain ⟨⟨n, hc, _⟩ | ⟨_, _, covered⟩, hleft⟩ := inv.read_position hp
  · cases run.2.symm.trans hc
  · exact Nat.ne_of_gt (Nat.lt_of_lt_of_le hleft covered)

theorem exec_fcPull_hasCause {s : State} (inv : Inv s) (run : Running .fcPull s) : HasCause .fcPull s (exec .fcPull s) := by
  simp only [exec, execFcPull]
  rw [running_body run]
  split
  · exact requireLine_hasCause rfl (onNext_next.2 (.inl rfl))
  · exact enterRead_hasCause (i := .fcPull) rfl _
  · rename_i hp
    exact readAt_hasCause (i := .fcPull) _ _ _ fun e h0 => absurd h0 (inv.pull_covered run (e ▸ hp))
  · unfold fcPullDecode
    split
    · exact onNext_fault
    · exact onNext_next.2 (.inl rfl)
  all_goals exact onNext_refused

theorem exec_command_hasCause {i : Instr} {s : State} (inv : Inv s) (hi : i.isCommand = true) (run : Running i s) :
    HasCause i s (exec i s) := by
  cases i with
  | rbInit r c => rw [exec_rbInit run]; exact onNext_next.2 (.inl (withSelected_fault r _ s))
  | rbWrite r b => rw [exec_rbWrite run]; exact onNext_next.2 (.inl (withSelected_fault r _ s))
  | rbRead r =>
    rw [exec_rbRead run]
    rcases ringGet_cases (s.params.cap r) (selected r s) with ⟨h0, got⟩ | ⟨_, _, got⟩ | ⟨v, _, _, got⟩ <;> rw [got]
    · exact onNext_raiseHost.2 (.inr (.inl ⟨r, rfl, h0⟩))
    · exact onNext_fault
    · exact onNext_next.2 (.inl (withSelected_fault r _ s))
  | rbStatus r => rw [exec_rbStatus run]; exact onNext_next.2 (.inl rfl)
  | rbOcc r => rw [exec_rbOcc run]; exact onNext_next.2 (.inl rfl)
  | rbFree r => rw [exec_rbFree run]; exact onNext_next.2 (.inl rfl)
  | tpInit => rw [exec_tpInit run]; exact onNext_next.2 (.inl rfl)
  | tpReadable => rw [exec_tpReadable run]; exact requireLine_hasCause rfl (onNext_next.2 (.inl rfl))
  | tpWriteable => rw [exec_tpWriteable run]; exact requireLine_hasCause rfl (onNext_next.2 (.inl rfl))
  | tpWrite bytes => exact exec_tpWrite_hasCause run
  | tpRead n => exact exec_tpRead_hasCause run
  | fcStart => exact exec_encode_hasCause (.inl rfl) run
  | fcPush b => exact exec_encode_hasCause (.inr (.inl ⟨b, rfl⟩)) run
  | fcFinish => exact exec_encode_hasCause (.inr (.inr rfl)) run
  | fcPull => exact exec_fcPull_hasCause inv run
  | evTxc | evRxd => cases hi

/-- The acceptance micro-step raises ILLEGAL on a command that the port refuses, and nothing else (R80, R86). -/
theorem acceptCommand_hasCause {i : Instr} {s : State} (idle : s.host.cmd = none) :
    HasCause i s (.next (acceptCommand i s)) := by
  refine onNext_next.2 ?_
  unfold acceptCommand
  split
  · exact .inl rfl
  · rename_i refused
    exact .inr ⟨idle, Bool.eq_false_iff.2 refused⟩

/-! ### The handlers -/

theorem dispatchHandler_hasCause {i : Instr} {s : State} (h : Handler) {guard hidden : Bool}
    (hrace : guard = false → hidden = true → s.params.race = .opened → FaultCause i s codeRingRace) :
    HasCause i s (dispatchHandler h guard hidden s) := by
  rcases dispatchHandler_cases h guard hidden s with ⟨_, e⟩ | ⟨clear, race, hid, _, e⟩ | ⟨_, _, e⟩ <;>
    rw [e]
  · cases h <;> exact onNext_next.2 (.inl rfl)
  · exact onNext_next.2 (.inr (hrace clear hid race))
  · exact onNext_next.2 (.inl rfl)

theorem ringAccess_hasCause {i : Instr} {s : State} {hidden : Bool} {access : State → Result}
    (hrace : hidden = true → s.params.race = .opened → FaultCause i s codeRingRace) (h : KeepsFault s (access s)) :
    HasCause i s (ringAccess hidden access s) := by
  rcases ringAccess_cases hidden access s with ⟨race, hid, e⟩ | ⟨_, e⟩ <;> rw [e]
  · exact onNext_next.2 (.inr (hrace hid race))
  · exact h.hasCause i

theorem txcDrain_keepsFault (s : State) : KeepsFault s (txcDrain s) := by
  unfold txcDrain
  split
  · exact onNext_next.2 rfl
  · rename_i go
    rw [Bool.or_eq_true, not_or] at go
    exact moveTxToPhy_keepsFault .isr (by simpa [ringEmpty] using go.1)

theorem rxdDrain_keepsFault (s : State) : KeepsFault s (rxdDrain s) := by
  unfold rxdDrain
  split
  · exact onNext_next.2 rfl
  · exact movePhyToRx_keepsFault .isr ‹_›

theorem exec_evTxc_hasCause {s : State} (inv : Inv s) (hf : s.fault = 0) : HasCause .evTxc s (exec .evTxc s) := by
  have race (clear : s.tp.writeLock = false) (hid : s.tp.hostInTx = true) (opened : s.params.race = .opened) :
      FaultCause .evTxc s codeRingRace := ⟨opened, .inl ⟨rfl, clear, hid⟩⟩
  simp only [exec, execEvTxc, if_neg (not_not.2 hf)]
  split
  · split
    · exact dispatchHandler_hasCause .txc race
    · exact onNext_refused
  · rename_i running
    unfold txcMicro
    split
    · exact onNext_next.2 (.inl rfl)
    · exact ringAccess_hasCause (race ((inv.exclusion hf).txc running).1) (txcDrain_keepsFault s)
  · exact onNext_refused

theorem exec_evRxd_hasCause {s : State} (inv : Inv s) (hf : s.fault = 0) : HasCause .evRxd s (exec .evRxd s) := by
  have race (clear : s.tp.readLock = false) (hid : s.tp.hostInRx = true) (opened : s.params.race = .opened) :
      FaultCause .evRxd s codeRingRace := ⟨opened, .inr ⟨rfl, clear, hid⟩⟩
  simp only [exec, execEvRxd, if_neg (not_not.2 hf)]
  split
  · split
    · exact dispatchHandler_hasCause .rxd race
    · exact onNext_refused
  · rename_i running
    unfold rxdMicro
    split
    · exact onNext_next.2 (.inl rfl)
    · exact ringAccess_hasCause (race ((inv.exclusion hf).rxd running).1) (rxdDrain_keepsFault s)
  · exact onNext_refused

/-! ### Every instruction -/

/-- A micro-step of an instruction from a state without a fault is one of a handler, an acceptance, or one of the command in
progress. -/
theorem exec_hasCause (i : Instr) {s : State} (inv : Inv s) (hf : s.fault = 0) : HasCause i s (exec i s) := by
  cases hi : i.isCommand with
  | false =>
    cases i with
    | evTxc => exact exec_evTxc_hasCause inv hf
    | evRxd => exact exec_evRxd_hasCause inv hf
    | _ => cases hi
  | true =>
    obtain ⟨body, hbody⟩ := exec_eq_hostCommand hi
    by_cases ha : s.isr.active = .none
    · rw [hbody]
      refine onNext_hostCommand (fun hc => onNext_next.1 (acceptCommand_hasCause hc)) fun hc => ?_
      rw [← hostCommand_running (body := body) hf ha hc, ← hbody]
      exact exec_command_hasCause inv hi ⟨⟨hf, ha⟩, hc⟩
    · rw [hbody, hostCommand, if_neg (not_not.2 hf), if_pos ha]
      exact onNext_refused

/-- Settles O34: each clause is the code's row of `FaultCause`. -/
theorem faultCauses : Obligations.FaultCauses := by
  intro i s t inv hf h
  have cause : FaultCause i s t.fault := by
    rcases exec_hasCause i inv hf t h with e | cause
    · rw [e, hf]
      trivial
    · exact cause
  refine ⟨fun e => ?_, fun e => ?_, fun e => ?_, fun e => ?_, fun e => ?_, toNat_le_of_faultCause cause⟩ <;>
    rw [e] at cause <;> exact cause

end Sys2Proof.Safety
end

section
/-! PROOFS. O45 to O47 (R90, R121, R145 to R149): the encode commands. One wire byte's TP_WRITE body is one lemma, a ChanWrite
is an induction on its bytes, and a whole command leaves the state `encoded`; the commands of FRAME compose. -/

namespace Sys2Proof.Safety

open Sys2Proof.Machine

/-! ### The codec's own micro-steps (R145 to R148) -/

theorem writesChannel_of_isEncode {i : Instr} (he : IsEncode (some i)) : writesChannel i = true := by
  obtain ⟨j, hj, hw⟩ := he.writesChannel
  rwa [Option.some.inj hj]

/-- The first micro-step behind its checks. -/
theorem exec_encode_first {i : Instr} {s : State} (he : IsEncode (some i)) (ready : Ready i s) (on : s.tp.lineEn = true)
    (enc : s.fc.encState = neededEnc i) : exec i s = encodeFirst i s :=
  (exec_encode_start he ready).trans ((requireLine_on on).trans (requireEnc_in enc))

/-- A ChanWrite begins with the body of its first byte. -/
theorem chanWrite_of_eq {bytes : List Byte} {b : Byte} {later : List Byte} (h : bytes = b :: later) (s : State) :
    chanWrite bytes s = .next (setPhase (.writeEnter [b] later) s) := by
  rw [h]
  rfl

/-- The first micro-step of a wire byte's body is its spin test (log entry 7). -/
theorem exec_encode_enter {i : Instr} {s : State} {b : Byte} {later : List Byte} (he : IsEncode (some i))
    (run : Running i s) (on : s.tp.lineEn = true) (hp : s.host.phase = .writeEnter [b] later) :
    exec i s = writeAt (writeDone i) .spin [b] later s := by
  rw [exec_encode he run, chanMicro, hp]
  exact requireLine_on on

/-- Settles O45: the first micro-step of each command, the change of bodies, the end of each command. -/
theorem encodeMicroSteps : Obligations.EncodeMicroSteps := by
  refine ⟨fun s on => ⟨fun ready enc => ?_, fun b x xs ready enc h => ?_, fun x xs ready enc h => ?_⟩,
    fun i s b later he run on hp => ?_, fun i s b todo later he run hp => ?_,
    fun s todo hp => ⟨fun run => ?_, fun b run => ?_, fun run => ?_⟩⟩
  · exact exec_encode_first (.inl rfl) ready on enc
  · exact (exec_encode_first (.inr (.inl ⟨b, rfl⟩)) ready on enc).trans (chanWrite_of_eq h (pushSums b s))
  · exact (exec_encode_first (.inr (.inr rfl)) ready on enc).trans (chanWrite_of_eq h s)
  · rw [exec_encode_enter he run on hp, writeAt_spin, guardTxPos_eq]
  · exact exec_write_at (writesChannel_of_isEncode he) run hp
  · exact ⟨_, exec_write_at rfl run hp, answers_respond _ _ _ _⟩
  · exact ⟨_, exec_write_at rfl run hp, answers_respond _ _ _ _⟩
  · exact ⟨_, exec_write_at rfl run hp, answers_respond _ _ _ _⟩

/-! ### What wire bytes leave in `tx` and in the transmit slot -/

/-- The ring `r'` and the slot `q'` that the bytes `wire` leave, each queued and the slot filled after it. -/
structure Transmits (p : Params) (r : Ring) (q wire : List Byte) (r' : Ring) (q' : List Byte) : Prop where
  ring : RingOk p.txCap r'
  slot : q' = (q ++ contents p.txCap r ++ wire).take p.hwTxDepth
  holds : contents p.txCap r' = (q ++ contents p.txCap r ++ wire).drop p.hwTxDepth
  count : r'.count ≤ r.count + wire.length
  tail : r'.tail = (r.tail + wire.length) % p.txCap
  frame : ∀ a, (∀ k, k < wire.length → a ≠ (r.tail + k) % p.txCap) → Memory.read r'.buf a = Memory.read r.buf a

section Transmits

variable {p : Params} {r r' r'' : Ring} {q q' q'' wire wire' : List Byte}

theorem Transmits.slot_le (h : Transmits p r q wire r' q') : q'.length ≤ p.hwTxDepth :=
  h.slot ▸ List.length_take_le _ _

/-- No byte is lost and none is reordered. -/
theorem Transmits.whole (h : Transmits p r q wire r' q') :
    q' ++ contents p.txCap r' = q ++ contents p.txCap r ++ wire := by
  rw [h.slot, h.holds, List.take_append_drop]

theorem Transmits.trans (h : Transmits p r q wire r' q') (h' : Transmits p r' q' wire' r'' q'') :
    Transmits p r q (wire ++ wire') r'' q'' where
  ring := h'.ring
  slot := by rw [h'.slot, h.whole, List.append_assoc _ wire]
  holds := by rw [h'.holds, h.whole, List.append_assoc _ wire]
  count := by
    have hle := h.count
    have hle' := h'.count
    rw [List.length_append]
    omega
  tail := by rw [h'.tail, h.tail, Nat.mod_add_mod, List.length_append, Nat.add_assoc]
  frame := by
    intro a ha
    rw [List.length_append] at ha
    rw [h'.frame a fun k hk => ?_, h.frame a fun k hk => ha k (by omega)]
    rw [h.tail, Nat.mod_add_mod, Nat.add_assoc]
    exact ha (wire.length + k) (by omega)

/-- One byte that finds room, and the kick. -/
theorem transmits_byte (h : RingOk p.txCap r) (hq : q.length ≤ p.hwTxDepth) (room : r.count < p.txCap) (b : Byte) :
    Transmits p r q [b] (txDrainedRing p (ringPutAll p.txCap r [b]) q)
      (txDrainedSlot p (ringPutAll p.txCap r [b]) q) := by
  have queued := queued_ringPutAll [b] h room
  refine ⟨txDrainedRing_ok queued.ring, ?_, ?_, ?_, ?_, fun a ha => ?_⟩
  · rw [txDrainedSlot, queued.holds, List.append_assoc]
  · rw [txDrainedRing_holds queued.ring hq, queued.holds, List.append_assoc]
  · rw [txDrainedRing, ringSkip_count, queued.count]
    exact Nat.sub_le _ _
  · rw [txDrainedRing, ringSkip_tail, ringPutAll, ringPut_room b room.ne]
    rfl
  · rw [txDrainedRing, ringSkip_buf]
    exact queued.frame a ha

end Transmits

/-! ### A ChanWrite (R147) -/

/-- What a run of TP_WRITE bodies starts from: an enabled line, clear guards, the two queues within their bounds. -/
structure CanTransmit (s : State) : Prop where
  line : s.tp.lineEn = true
  clear : clearTxGuard s = s
  tx : RingOk s.params.txCap s.tx
  slot : s.phy.txq.length ≤ s.params.hwTxDepth

theorem Inv.canTransmit {s : State} (inv : Inv s) (free : HostFree s) (hp : s.host.phase = .start)
    (on : s.tp.lineEn = true) : CanTransmit s where
  line := on
  clear := clearTxGuard_eq_self (inv.guardsClear free (by rw [hp]; exact outside_start))
  tx := inv.tx
  slot := inv.phy.txq_le

/-- Of the Transport, only the line and the guards matter. -/
theorem CanTransmit.of_tp {s t : State} (can : CanTransmit s) (tp : t.tp = s.tp) (tx : RingOk t.params.txCap t.tx)
    (slot : t.phy.txq.length ≤ t.params.hwTxDepth) : CanTransmit t where
  line := (congrArg Transport.lineEn tp).trans can.line
  clear := by
    have same : { t.tp with writeLock := false, hostInTx := false } = t.tp := by
      rw [tp]
      exact congrArg State.tp can.clear
    exact congrArg t.withTp same
  tx := tx
  slot := slot

/-- The state after the body of one wire byte that found room. -/
def wireByteSent (b : Byte) (s : State) : State :=
  withTransmit (txDrainedRing s.params (ringPutAll s.params.txCap s.tx [b]) s.phy.txq)
    (txDrainedSlot s.params (ringPutAll s.params.txCap s.tx [b]) s.phy.txq) s

theorem CanTransmit.transmits {s : State} (can : CanTransmit s) (room : s.tx.count < s.params.txCap) (b : Byte) :
    Transmits s.params s.tx s.phy.txq [b] (wireByteSent b s).tx (wireByteSent b s).phy.txq :=
  transmits_byte can.tx can.slot room b

theorem canTransmit_wireByteSent {s : State} (can : CanTransmit s) (room : s.tx.count < s.params.txCap) (b : Byte) :
    CanTransmit (wireByteSent b s) :=
  can.of_tp rfl (can.transmits room b).ring (can.transmits room b).slot_le

/-- The end of a command depends on nothing of its position. -/
theorem writeDone_setPhase {i : Instr} (he : IsEncode (some i)) (ph : Phase) (s : State) :
    writeDone i (setPhase ph s) = writeDone i s := by
  rcases he with e | ⟨b, e⟩ | e <;> cases e <;> rfl

/-- A run goes on from the state it leads to. -/
theorem Reaches.execUntil {stop : State → Bool} {i : Instr} {s u t : State} (h : Reaches stop i s u)
    (e : ∃ n, execUntil stop i n u = some t) : ∃ n, execUntil stop i n s = some t := by
  obtain ⟨k, run⟩ := h
  obtain ⟨n, e⟩ := e
  exact ⟨k + n, run.execUntil_eq.trans e⟩

section ChanWrite

variable {i : Instr} (he : IsEncode (some i)) {s : State} (run : Running i s)
include he run

/-- The micro-step that clears the kick's guard. -/
theorem exec_kickUnlock {tp : Transport} (clear : clearTxGuard (s.withTp tp) = s) (later : List Byte) (r : Ring)
    (q : List Byte) :
    exec i (setPhase (.write .kickUnlock [] later) ((withTransmit r q s).withTp tp)) =
      endWrite (writeDone i) later (setPhase (.write .kickUnlock [] later) (withTransmit r q s)) := by
  conv_rhs => rw [← clear]
  exact exec_write_pos (writesChannel_of_isEncode he) (s := (withTransmit r q s).withTp tp) run later .kickUnlock []

/-- The body of one wire byte. -/
theorem execUntil_wireByte {t : State} (can : CanTransmit s) (room : s.tx.count < s.params.txCap) (b : Byte)
    (later : List Byte)
    (rest : ∃ n, execUntil hostDone i n (setPhase (.write .kickUnlock [] later) (wireByteSent b s)) = some t) :
    ∃ n, execUntil hostDone i n (setPhase (.writeEnter [b] later) s) = some t := by
  have hi := writesChannel_of_isEncode he
  have enter : exec i (setPhase (.writeEnter [b] later) s) = exec i (writeAhead [b] later s.tx s) := by
    rw [exec_encode_enter he (s := setPhase (.writeEnter [b] later) s) run can.line rfl, writeAt_spin]
    exact ((exec_write_pos hi run later .spin [b]).trans (writeAt_spin _ _ _ _)).symm
  obtain ⟨tp, htp, body⟩ := reaches_writeBody hi run later can.clear can.slot [b] can.tx room
  obtain ⟨n, rest⟩ := rest
  have unlock (r q) := (exec_kickUnlock he run htp later r q).trans
    (exec_kickUnlock he run (tp := s.tp) can.clear later r q).symm
  obtain ⟨m, whole⟩ := body.execUntil ⟨n, (execUntil_congr (unlock _ _) n).trans rest⟩
  exact ⟨m, (execUntil_congr enter m).trans whole⟩

end ChanWrite

/-- By induction on the bytes: each one's body, then the next one's, then the end of the command. -/
theorem execUntil_chanWrite {i : Instr} (he : IsEncode (some i)) (later : List Byte) : ∀ {s : State} (b : Byte),
    Running i s → CanTransmit s → s.tx.count + (b :: later).length ≤ s.params.txCap →
    ∃ r q, Transmits s.params s.tx s.phy.txq (b :: later) r q ∧
      ∀ t, writeDone i (withTransmit r q s) = .next t → hostDone t = true →
        ∃ n, execUntil hostDone i n (setPhase (.writeEnter [b] later) s) = some t := by
  induction later with
  | nil =>
    intro s b run can room
    refine ⟨_, _, can.transmits room b, fun t done stop => execUntil_wireByte he run can room b [] ⟨1, ?_⟩⟩
    have unlock := exec_kickUnlock he run (tp := s.tp) can.clear [] (wireByteSent b s).tx (wireByteSent b s).phy.txq
    exact (RunsTo.refl _).execUntil_last (unlock.trans ((writeDone_setPhase he _ _).trans done)) stop
  | cons b' later ih =>
    intro s b run can room
    rw [List.length_cons, List.length_cons] at room
    have first := can.transmits (by omega) b
    have count := first.count
    rw [List.length_singleton] at count
    obtain ⟨r, q, rest, ends⟩ := ih (s := wireByteSent b s) b' run (canTransmit_wireByteSent can (by omega) b)
      (show _ + (later.length + 1) ≤ s.params.txCap by omega)
    refine ⟨r, q, first.trans rest, fun t done stop => execUntil_wireByte he run can (by omega) b (b' :: later) ?_⟩
    have unlock := exec_kickUnlock he run (tp := s.tp) can.clear (b' :: later) (wireByteSent b s).tx
      (wireByteSent b s).phy.txq
    have busy : hostDone (setPhase (.writeEnter [b'] later) (wireByteSent b s)) = false := hostDone_eq_false (s := s) run
    exact (Reaches.step unlock busy (.refl _)).execUntil (ends t done stop)

/-! ### Whole encode commands (R145, R146, R148) -/

/-- In the codec state `c` the encode command `i` sends the bytes `wire`, leaves the codec state `c'` and answers `v`. -/
def Encodes (i : Instr) (c : Codec) (wire : List Byte) (c' : Codec) (v : Half) : Prop :=
  (i = .fcStart ∧ c.encState = .idle ∧ wire = [0xF7] ∧
    c' = { c with encState := .encoding, sum1 := 0, sum2 := 0 } ∧ v = 0) ∨
  (∃ b, i = .fcPush b ∧ c.encState = .encoding ∧ wire = esc b ∧
    c' = { c with sum1 := (flStep (c.sum1, c.sum2) b).1, sum2 := (flStep (c.sum1, c.sum2) b).2 } ∧ v = 0) ∨
  (i = .fcFinish ∧ c.encState = .encoding ∧ wire = esc c.sum1 ++ esc c.sum2 ++ [0x7F] ∧
    c' = { c with encState := .idle } ∧ v = pair16 c.sum2 c.sum1)

/-- The state after commands that have left the ring `r`, the slot `q` and the codec `c` and have answered `rs`. -/
def encoded (r : Ring) (q : List Byte) (c : Codec) (rs : List Response) (s : State) : State :=
  ((withTransmit r q s).withFc c).withHost
    { s.host with cmd := none, phase := .start, responses := s.host.responses ++ rs }

theorem Encodes.isEncode {i : Instr} {c c' : Codec} {wire : List Byte} {v : Half} (h : Encodes i c wire c' v) :
    IsEncode (some i) := by
  rcases h with ⟨rfl, _⟩ | ⟨b, rfl, _⟩ | ⟨rfl, _⟩
  · exact .inl rfl
  · exact .inr (.inl ⟨b, rfl⟩)
  · exact .inr (.inr rfl)

/-- The first micro-step of an encode command hands its first wire byte over, and its end answers. -/
theorem Encodes.exec_first {i : Instr} {s : State} {c' : Codec} {wire : List Byte} {v : Half}
    (h : Encodes i s.fc wire c' v) (ready : Ready i s) (on : s.tp.lineEn = true) :
    ∃ b later c, wire = b :: later ∧ exec i s = .next (setPhase (.writeEnter [b] later) (s.withFc c)) ∧
      ∀ r q, writeDone i (withTransmit r q (s.withFc c)) = .next (encoded r q c' [⟨0x00, 0, v, []⟩] s) := by
  have he := h.isEncode
  rcases h with ⟨rfl, enc, rfl, rfl, rfl⟩ | ⟨b, rfl, enc, rfl, rfl, rfl⟩ | ⟨rfl, enc, rfl, rfl, rfl⟩
  · exact ⟨_, _, s.fc, rfl, exec_encode_first he ready on enc, fun _ _ => rfl⟩
  · obtain ⟨x, xs, hx⟩ := List.exists_cons_of_ne_nil (esc_ne_nil b)
    exact ⟨x, xs, (pushSums b s).fc, hx, (exec_encode_first he ready on enc).trans (chanWrite_of_eq hx _), fun _ _ => rfl⟩
  · obtain ⟨x, xs, hx⟩ := List.exists_cons_of_ne_nil (l := esc s.fc.sum1 ++ esc s.fc.sum2 ++ [0x7F]) (by simp)
    exact ⟨x, xs, s.fc, hx, (exec_encode_first he ready on enc).trans (chanWrite_of_eq hx _), fun _ _ => rfl⟩

theorem Encodes.completes {i : Instr} {s : State} {c' : Codec} {wire : List Byte} {v : Half}
    (h : Encodes i s.fc wire c' v) (ready : Ready i s) (can : CanTransmit s)
    (room : s.tx.count + wire.length ≤ s.params.txCap) :
    ∃ n r q, execUntil hostDone i n s = some (encoded r q c' [⟨0x00, 0, v, []⟩] s) ∧
      Transmits s.params s.tx s.phy.txq wire r q := by
  obtain ⟨b, later, c, rfl, first, done⟩ := h.exec_first ready can.line
  obtain ⟨r, q, sent, ends⟩ := execUntil_chanWrite h.isEncode later (s := s.withFc c) b ready.1
    (can.of_tp rfl can.tx can.slot) room
  obtain ⟨n, run⟩ := (Reaches.step first (hostDone_eq_false (i := i) ready.1) (.refl _)).execUntil (ends _ (done r q) rfl)
  exact ⟨n, r, q, run, sent⟩

/-- Settles O46: the first micro-step, the bodies of the wire bytes, the end. -/
theorem encodeCommandsComplete : Obligations.EncodeCommandsComplete := by
  intro i s wire fc' value inv ready on (h : Encodes i s.fc wire fc' value) room
  obtain ⟨n, r, q, run, sent⟩ := h.completes ready (inv.canTransmit ready.1.1 ready.2 on) room
  exact ⟨n, _, run, sent.slot, sent.holds, sent.ring, sent.frame, ⟨.start, rfl⟩⟩

/-! ### The commands of FRAME (R149) -/

theorem Encodes.accepted {i : Instr} {c c' : Codec} {wire : List Byte} {v : Half} (h : Encodes i c wire c' v)
    (p : Params) : i.isCommand = true ∧ i.accepted p = true := by
  rcases h with ⟨rfl, _⟩ | ⟨b, rfl, _⟩ | ⟨rfl, _⟩ <;> exact ⟨rfl, rfl⟩

theorem encoded_encoded (r r' : Ring) (q q' : List Byte) (c c' : Codec) (rs rs' : List Response) (s : State) :
    encoded r' q' c' rs' (encoded r q c rs s) = encoded r' q' c' (rs ++ rs') s := by
  simp only [encoded, State.withHost_host, List.append_assoc]
  rfl

theorem canTransmit_encoded {s : State} {r : Ring} {q wire : List Byte} (can : CanTransmit s)
    (sent : Transmits s.params s.tx s.phy.txq wire r q) (c : Codec) (rs : List Response) :
    CanTransmit (encoded r q c rs s) :=
  can.of_tp rfl sent.ring sent.slot_le

/-- An encode command that an idle HOST accepts, in front of the commands that follow it. -/
theorem Encodes.completesAll {i : Instr} {s : State} {c' : Codec} {wire : List Byte} {v : Half}
    (h : Encodes i s.fc wire c' v) (idle : IdleHost s) (can : CanTransmit s)
    (room : s.tx.count + wire.length ≤ s.params.txCap) :
    ∃ r q, Transmits s.params s.tx s.phy.txq wire r q ∧
      ∀ is u, CompletesAll is (encoded r q c' [⟨0x00, 0, v, []⟩] s) u → CompletesAll (i :: is) s u := by
  obtain ⟨hi, acc⟩ := h.accepted s.params
  have accept := exec_accept idle hi
  rw [acceptCommand_accepted acc] at accept
  obtain ⟨n, r, q, run, sent⟩ := h.completes (s := s.withHost { s.host with cmd := some i, phase := .start })
    ⟨⟨idle.1, rfl⟩, rfl⟩ (can.of_tp rfl can.tx can.slot) room
  obtain ⟨m, whole⟩ := (Reaches.step accept rfl (.refl _)).execUntil ⟨n, run⟩
  exact ⟨r, q, sent, fun is u rest => ⟨m, _, whole, idle.1.1, rest⟩⟩

/-- The codec after FC_START. -/
def afterStart (c : Codec) : Codec := { c with encState := .encoding, sum1 := 0, sum2 := 0 }

/-- The codec after FC_PUSH of `b`. -/
def afterPush (b : Byte) (c : Codec) : Codec :=
  { c with sum1 := (flStep (c.sum1, c.sum2) b).1, sum2 := (flStep (c.sum1, c.sum2) b).2 }

/-- The codec after a frame whose payload's sums went on from those of `c`. -/
def afterFrame (c : Codec) (p : List Byte) : Codec :=
  { c with
    encState := .idle
    sum1 := (p.foldl flStep (c.sum1, c.sum2)).1
    sum2 := (p.foldl flStep (c.sum1, c.sum2)).2 }

/-- The wire bytes that FC_PUSH of each payload byte and FC_FINISH send. -/
def payloadWire (c : Codec) (p : List Byte) : List Byte :=
  p.flatMap esc ++ (esc (afterFrame c p).sum1 ++ esc (afterFrame c p).sum2 ++ [0x7F])

/-- The responses to them. -/
def payloadResponses (c : Codec) (p : List Byte) : List Response :=
  List.replicate p.length ⟨0x00, 0, 0, []⟩ ++ [⟨0x00, 0, pair16 (afterFrame c p).sum2 (afterFrame c p).sum1, []⟩]

/-- By induction on the payload: FC_PUSH of each byte, then FC_FINISH. -/
theorem completesAll_payload (p : List Byte) : ∀ {s : State}, IdleHost s → CanTransmit s → s.fc.encState = .encoding →
    s.tx.count + (payloadWire s.fc p).length ≤ s.params.txCap →
    ∃ r q, Transmits s.params s.tx s.phy.txq (payloadWire s.fc p) r q ∧
      CompletesAll (p.map .fcPush ++ [.fcFinish]) s (encoded r q (afterFrame s.fc p) (payloadResponses s.fc p) s) := by
  induction p with
  | nil =>
    intro s idle can enc room
    obtain ⟨r, q, sent, run⟩ := Encodes.completesAll (.inr (.inr ⟨rfl, enc, rfl, rfl, rfl⟩)) idle can
      (wire := payloadWire s.fc []) room
    exact ⟨r, q, sent, run [] _ rfl⟩
  | cons b p ih =>
    intro s idle can enc room
    have split : payloadWire s.fc (b :: p) = esc b ++ payloadWire (afterPush b s.fc) p := List.append_assoc _ _ _
    rw [split, List.length_append] at room
    obtain ⟨r, q, sent, run⟩ := Encodes.completesAll (c' := afterPush b s.fc) (.inr (.inl ⟨b, rfl, enc, rfl, rfl, rfl⟩))
      idle can (by omega)
    have count := sent.count
    have room' : r.count + (payloadWire (afterPush b s.fc) p).length ≤ s.params.txCap := by omega
    obtain ⟨r', q', sent', rest⟩ := ih (s := encoded r q (afterPush b s.fc) _ s) ⟨idle.1, rfl⟩
      (canTransmit_encoded can sent _ _) enc room'
    rw [encoded_encoded] at rest
    exact ⟨r', q', split ▸ sent.trans sent', run _ _ rest⟩

/-- The commands of FRAME, from an idle HOST. -/
theorem completesAll_frame (p : List Byte) {s : State} (idle : IdleHost s) (can : CanTransmit s)
    (enc : s.fc.encState = .idle) (room : s.tx.count + (encodeFrame p).length ≤ s.params.txCap) :
    ∃ r q, Transmits s.params s.tx s.phy.txq (encodeFrame p) r q ∧
      CompletesAll (Pseudo.frame p) s (encoded r q (afterFrame (afterStart s.fc) p)
        (⟨0x00, 0, 0, []⟩ :: payloadResponses (afterStart s.fc) p) s) := by
  have split : encodeFrame p = [0xF7] ++ payloadWire (afterStart s.fc) p := by
    simp [encodeFrame, payloadWire, afterFrame, afterStart, fletcher, START, END]
  rw [split, List.length_append] at room
  obtain ⟨r, q, sent, run⟩ := Encodes.completesAll (c' := afterStart s.fc) (.inl ⟨rfl, enc, rfl, rfl, rfl⟩) idle can
    (by omega)
  have count := sent.count
  have room' : r.count + (payloadWire (afterStart s.fc) p).length ≤ s.params.txCap := by omega
  obtain ⟨r', q', sent', rest⟩ := completesAll_payload p (s := encoded r q (afterStart s.fc) _ s) ⟨idle.1, rfl⟩
    (canTransmit_encoded can sent _ _) rfl room'
  rw [encoded_encoded] at rest
  exact ⟨r', q', split ▸ sent.trans sent', run _ _ rest⟩

/-- Settles O47: FC_START, then the payload and FC_FINISH, whose sums are the payload's checksum. -/
theorem frameCommandsWriteTheFrame : Obligations.FrameCommandsWriteTheFrame := by
  refine ⟨fun p => rfl, fun p s inv idle on enc room => ?_⟩
  have can := inv.canTransmit idle.1 (inv.host.idle_start idle.2) on
  obtain ⟨r, q, sent, run⟩ := completesAll_frame p idle can enc room
  refine ⟨_, run, ?_, ?_, rfl, rfl, rfl, rfl⟩
  · calc s.phy.wireOut ++ q ++ contents s.params.txCap r
      _ = s.phy.wireOut ++ (s.phy.txq ++ contents s.params.txCap s.tx ++ encodeFrame p) := by
        rw [List.append_assoc, sent.whole]
      _ = outbound s ++ encodeFrame p := by simp only [outbound, List.append_assoc]
  · rw [List.append_assoc, List.replicate_succ]
    rfl

end Sys2Proof.Safety
end

section
/-! PROOFS. O48 to O50 (R155 to R162, R164, R166): FC_PULL. `KeepsBytes` says what a rewriting of the accumulation buffer
leaves, Steps 2 to 6 on the buffer are `pullOutcome` on its bytes, and the whole command is the body of TP_READ between its own
parts. -/

namespace Sys2Proof.Safety

open Sys2Proof.Machine

/-! ### The accumulation buffer's bytes (R33) -/

theorem readList_append {m : Memory} {k : Nat} {bs cs : List Byte} (h : Memory.readList m 0 k = some bs) :
    Memory.readList (Memory.writeList m k cs) 0 (k + cs.length) = some (bs ++ cs) := by
  rw [Memory.readList_eq_some] at h ⊢
  obtain ⟨rfl, hread⟩ := h
  refine ⟨List.length_append, fun j hj => ?_⟩
  rw [Memory.read_writeList, Nat.zero_add]
  split
  · exact (List.getElem?_append_right (by omega)).symm
  · have before := hread j (by omega)
    rw [Nat.zero_add] at before
    rw [before, List.getElem?_append_left (by omega)]

theorem accBytes_eq {s : State} {bs : List Byte} (h : Memory.readList s.fc.acc 0 s.fc.fill = some bs) :
    accBytes s = bs := by
  rw [accBytes, h]
  rfl

theorem AccOk.readList {s : State} (h : AccOk s.params s.fc) :
    Memory.readList s.fc.acc 0 s.fc.fill = some (accBytes s) := by
  obtain ⟨bs, hbs, _⟩ := h.read
  rw [accBytes_eq hbs, hbs]

/-- The codec `d` is `c` with the bytes `bs` populating its buffer and the cells from `c.fill` on as they were. -/
structure KeepsBytes (c : Codec) (bs : List Byte) (d : Codec) : Prop where
  codec : d = { c with acc := d.acc, fill := bs.length }
  bytes : Memory.readList d.acc 0 bs.length = some bs
  frame : ∀ a, c.fill ≤ a → Memory.read d.acc a = Memory.read c.acc a

section KeepsBytes

variable {c d : Codec} {bs : List Byte}

theorem keepsBytes_self (h : Memory.readList c.acc 0 c.fill = some bs) : KeepsBytes c bs c := by
  have hlen : bs.length = c.fill := ((Memory.readList_eq_some _ _ _ _).1 h).1
  exact ⟨by rw [hlen], by rw [hlen, h], fun _ _ => rfl⟩

theorem keepsBytes_cleared (c : Codec) : KeepsBytes c [] (accCleared c) := ⟨rfl, rfl, fun _ _ => rfl⟩

theorem keepsBytes_moved (h : bs.length ≤ c.fill) : KeepsBytes c bs (accMoved bs c) where
  codec := rfl
  bytes := Memory.readList_writeList bs c.acc 0
  frame := fun a ha => (Memory.read_writeList bs c.acc 0 a).trans (if_neg (by omega))

theorem KeepsBytes.fill (h : KeepsBytes c bs d) : d.fill = bs.length := by rw [h.codec]

theorem KeepsBytes.readList (h : KeepsBytes c bs d) : Memory.readList d.acc 0 d.fill = some bs := by
  rw [h.fill, h.bytes]

theorem KeepsBytes.trans {e : Codec} {cs : List Byte} (h : KeepsBytes c bs d) (hle : bs.length ≤ c.fill)
    (h' : KeepsBytes d cs e) : KeepsBytes c cs e where
  codec := by
    have hd := h.codec
    rw [h'.codec, hd]
  bytes := h'.bytes
  frame := fun a ha => (h'.frame a (by rw [h.fill]; omega)).trans (h.frame a ha)

end KeepsBytes

/-! ### Steps 2 to 6 (R157 to R161) -/

/-- Step 6 keeps what stands from the next START on. -/
theorem retire_keepsBytes {c : Codec} {rest : List Byte} (h : rest.length ≤ c.fill) :
    KeepsBytes c (fromStart rest) (retire rest c) := by
  have hlen := length_fromStart_le rest
  unfold retire
  split
  · rename_i e
    rw [e]
    exact keepsBytes_cleared c
  · rename_i e
    rw [e] at hlen ⊢
    exact keepsBytes_moved (hlen.trans h)

/-- Steps 3 to 6 on a buffer that holds START and `body`. -/
theorem stepsFromStart_outcome (p : Params) {c : Codec} {body : List Byte}
    (h : Memory.readList c.acc 0 c.fill = some (START :: body)) :
    (stepsFromStart p body c).1 = (pullOutcome p (START :: body)).1 ∧
      KeepsBytes c (pullOutcome p (START :: body)).2 (stepsFromStart p body c).2 := by
  have hlen : (START :: body).length = c.fill := ((Memory.readList_eq_some _ _ _ _).1 h).1
  have hend : (fromEnd body).length ≤ body.length := (List.dropWhile_suffix _).length_le
  unfold stepsFromStart
  cases e : fromEnd body with
  | nil =>
    rw [pullOutcome_of_no_end p e, hlen]
    refine ⟨rfl, ?_⟩
    dsimp only
    split
    · exact keepsBytes_cleared c
    · exact keepsBytes_self h
  | cons b rest =>
    rw [pullOutcome_of_end p e]
    rw [e, List.length_cons] at hend
    rw [List.length_cons] at hlen
    exact ⟨rfl, retire_keepsBytes (by omega)⟩

/-- Steps 2 to 6 on the accumulation buffer are `pullOutcome` on its bytes. -/
theorem stepsTwoToSix_outcome (p : Params) {c : Codec} {bs : List Byte} (h : Memory.readList c.acc 0 c.fill = some bs) :
    (stepsTwoToSix p bs c).1 = (pullOutcome p bs).1 ∧ KeepsBytes c (pullOutcome p bs).2 (stepsTwoToSix p bs c).2 := by
  have hlen : bs.length = c.fill := ((Memory.readList_eq_some _ _ _ _).1 h).1
  rw [← pullOutcome_fromStart]
  unfold stepsTwoToSix
  rcases fromStart_cases bs with e | ⟨body, e, hbody⟩ <;> rw [e]
  · exact ⟨rfl, keepsBytes_cleared c⟩
  · have hle : (START :: body).length ≤ c.fill := hlen ▸ hbody
    have moved := keepsBytes_moved hle
    obtain ⟨payload, kept⟩ := stepsFromStart_outcome p moved.readList
    exact ⟨payload, moved.trans hle kept⟩

/-! ### FC_PULL's own micro-steps (R155, R156) -/

/-- FC_PULL's last micro-step answers what Steps 2 to 6 find. -/
theorem exec_fcPull_outcome {s : State} (run : Running .fcPull s) (hp : s.host.phase = .decode)
    (acc : AccOk s.params s.fc) :
    ∃ c, KeepsBytes s.fc (pullOutcome s.params (accBytes s)).2 c ∧
      exec .fcPull s = .next (respond statusOk (countValue (pullOutcome s.params (accBytes s)).1.length)
        (pullOutcome s.params (accBytes s)).1 (s.withFc c)) := by
  obtain ⟨payload, kept⟩ := stepsTwoToSix_outcome s.params acc.readList
  refine ⟨_, kept, (exec_fcPull_decode run hp).trans ?_⟩
  unfold fcPullDecode
  simp only [acc.readList, payload]

/-- The first micro-step of FC_PULL's body is the one at the position the body begins with (log entry 7). -/
theorem exec_fcPull_body {s : State} {left : Nat} (run : Running .fcPull s) (on : s.tp.lineEn = true)
    (hp : s.host.phase = .readEnter left) :
    exec .fcPull s = readAt fcPullIngest (nextReadPos left s) left [] s :=
  (exec_fcPull_enter run hp).trans (requireLine_on on)

/-- Settles O48: the count, the body's first micro-step, the ingest, Steps 2 to 6. -/
theorem pullMicroSteps : Obligations.PullMicroSteps := by
  refine ⟨fun s ready on => (exec_fcPull_start ready).trans (requireLine_on on),
    fun s left run on hp => ⟨fun hopen => ?_, fun hclosed => ?_⟩, fun s left out run hp => exec_fcPull_at run hp,
    fun s run hp acc => ?_⟩
  · rw [exec_fcPull_body run on hp, nextReadPos_eq, if_pos hopen, if_pos hopen]
    split_ifs <;> rfl
  · have hnot : s.params.race ≠ .opened := by simp [hclosed]
    rw [exec_fcPull_body run on hp, nextReadPos_eq, if_neg hnot, if_neg hnot]
    split_ifs <;> rfl
  · obtain ⟨c, kept, step⟩ := exec_fcPull_outcome run hp acc
    refine ⟨_, step, accBytes_eq kept.readList, kept.frame, ?_⟩
    rw [respond_fc, State.withFc_fc, ← kept.codec]
    exact answers_respond _ _ _ _

/-! ### The whole command (R155 to R162) -/

/-- The state in which the ingest of FC_PULL has ended: `k` bytes of `rx` in the accumulation buffer, the receive slot drained
into `rx`. -/
def pullIngested (k : Nat) (s : State) : State :=
  setPhase .decode ((withReceive (rxDrainedRing s.params (ringSkip s.params.rxCap k s.rx) s.phy.rxq)
    (s.phy.rxq.drop (s.params.rxCap - (s.rx.count - k))) s).withFc
    { s.fc with
      acc := Memory.writeList s.fc.acc s.fc.fill ((contents s.params.rxCap s.rx).take k)
      fill := s.fc.fill + ((contents s.params.rxCap s.rx).take k).length })

/-- The ingest of FC_PULL, with no other agent stepping. -/
theorem execUntil_pullIngest {s t : State} (inv : Inv s) (ready : Ready .fcPull s) (on : s.tp.lineEn = true) {k : Nat}
    (hk : k = min s.rx.count (s.params.accCap - s.fc.fill))
    (rest : ∃ n, execUntil hostDone .fcPull n (pullIngested k s) = some t) :
    ∃ n, execUntil hostDone .fcPull n s = some t := by
  have clear := clearRxGuard_eq_self (inv.guardsClear ready.1.1 (by rw [ready.2]; exact outside_start))
  have hle : k ≤ s.rx.count := hk ▸ Nat.min_le_left _ _
  have first : exec .fcPull s = .next (setPhase (.readEnter k) s) := by
    rw [hk]
    exact (exec_fcPull_start ready).trans (requireLine_on on)
  have enter : exec .fcPull (setPhase (.readEnter k) s) = exec .fcPull (readAhead k [] s.rx s) := by
    rw [exec_fcPull_body (s := setPhase (.readEnter k) s) ready.1 on rfl, readAt_nextReadPos]
    exact (exec_fcPull_at (s := readAhead k [] s.rx s) ready.1 rfl).symm
  have bytes := reaches_readBytes (i := .fcPull) rfl ready.1 clear 0 k [] inv.rx hle
  rw [Nat.zero_add, List.nil_append] at bytes
  obtain ⟨tp, htp, drain⟩ := reaches_drainUnlock (i := .fcPull) rfl ready.1 ((contents s.params.rxCap s.rx).take k)
    (inv.rx.skip k hle).1
  rw [rxDrainedSlot, ringSkip_count] at drain
  have ingest (r q out) : exec .fcPull (setPhase (.read .drainUnlock 0 out) ((withReceive r q s).withTp tp)) =
      fcPullIngest out (setPhase (.read .drainUnlock 0 out) (withReceive r q s)) := by
    conv_rhs => rw [← htp.trans clear]
    exact exec_fcPull_at (s := setPhase (.read .drainUnlock 0 out) ((withReceive r q s).withTp tp)) ready.1 rfl
  have busy : hostDone (pullIngested k s) = false := hostDone_eq_false (i := .fcPull) ready.1
  obtain ⟨n, run⟩ := (bytes.trans (drain.trans (.step (ingest _ _ _) busy (.refl _)))).execUntil rest
  exact (Reaches.step first (hostDone_eq_false (i := .fcPull) ready.1) (.refl _)).execUntil
    ⟨n, (execUntil_congr enter n).trans run⟩

/-- Settles O49: the ingest, then Steps 2 to 6 on the bytes that stood in the buffer and those ingested. -/
theorem fcPullCompletes : Obligations.FcPullCompletes := by
  intro s k out inv ready on hk hout
  have hle : k ≤ s.rx.count := hk ▸ Nat.min_le_left _ _
  have hfill := inv.acc.fill_le
  have taken : ((contents s.params.rxCap s.rx).take k).length = k := by
    rw [List.length_take, inv.rx.length_contents]
    exact Nat.min_eq_left hle
  have bytes : accBytes (pullIngested k s) = accBytes s ++ (contents s.params.rxCap s.rx).take k :=
    accBytes_eq (readList_append inv.acc.readList)
  have acc : AccOk s.params (pullIngested k s).fc := inv.acc.write le_rfl (by rw [taken]; omega)
  have found : pullOutcome s.params (accBytes (pullIngested k s)) = out := by rw [bytes, hout]
  obtain ⟨c, kept, step⟩ := exec_fcPull_outcome (s := pullIngested k s) ready.1 rfl acc
  rw [show (pullIngested k s).params = s.params from rfl, found] at kept step
  obtain ⟨n, run⟩ := execUntil_pullIngest inv ready on hk ⟨1, (RunsTo.refl _).execUntil_last step rfl⟩
  obtain ⟨ring, holds⟩ := inv.rx.skip k hle
  have drained := ring.rxDrained (q := s.phy.rxq)
  refine ⟨n, _, run, accBytes_eq kept.readList, ?_, drained.ring, fun a ha => ?_,
    fun a ha => ?_, .start, ?_⟩
  · rw [← holds, ← ringSkip_count]
    exact drained.holds
  · rw [← ringSkip_tail s.params.rxCap k] at ha
    exact (read_rxDrainedRing ring ha).trans (by rw [ringSkip_buf])
  · refine (kept.frame a (by simpa [pullIngested, taken] using ha)).trans ?_
    exact (Memory.read_writeList _ _ _ _).trans (if_neg (by omega))
  · have codec := kept.codec
    conv_lhs => rw [codec]
    rfl

/-- Settles O50: the whole of `rx` fits the empty buffer, and the frame is found there. -/
theorem pullReturnsThePayload : Obligations.PullReturnsThePayload := by
  intro s p garbage tail inv ready on empty noStart hrx fits
  have hlen := inv.rx.length_contents
  have all : (contents s.params.rxCap s.rx).take s.rx.count = contents s.params.rxCap s.rx :=
    List.take_of_length_le hlen.le
  have nothing : accBytes s = [] := accBytes_eq (by rw [empty]; rfl)
  have found : (p, fromStart tail) =
      pullOutcome s.params (accBytes s ++ (contents s.params.rxCap s.rx).take s.rx.count) := by
    rw [nothing, List.nil_append, all, hrx, pullOutcome_encodeFrame s.params noStart]
  obtain ⟨n, t, run, bytes, _, _, _, _, ph, answer⟩ := fcPullCompletes s s.rx.count _ inv ready on
    (by rw [empty, Nat.sub_zero, Nat.min_eq_left fits]) found
  have short : p.length < 65536 := by
    have frame := (frameLength.1 p).1
    have cap := s.params.accCap_legal.2
    rw [hrx, List.length_append, List.length_append] at hlen
    omega
  exact ⟨n, t, run, by rw [answer]; rfl, short, by rw [answer]; exact ready.1.1.1, bytes⟩

end Sys2Proof.Safety
end

section
/-! PROOFS. O20, O27 (R172, R177): the first micro-step of every command that uses the line is a line check before its body, and
what the other instructions raise is EMPTY_READ (RB_READ) or RING_RACE (the handlers); the conditions of a dispatch. -/

namespace Sys2Proof.Safety

open Sys2Proof.Machine

/-! ### The line check (R172) -/

/-- The first micro-step of every command that uses the line checks the line before it does anything else. -/
theorem exec_ready_requireLine {i : Instr} {s : State} (ready : Ready i s) (uses : usesLine i = true) :
    ∃ body, exec i s = requireLine body s := by
  cases i with
  | tpWrite bytes => exact ⟨_, exec_tpWrite_start ready⟩
  | tpRead n => exact ⟨_, exec_tpRead_start ready⟩
  | tpReadable => exact ⟨_, exec_tpReadable ready.1⟩
  | tpWriteable => exact ⟨_, exec_tpWriteable ready.1⟩
  | fcStart => exact ⟨_, exec_encode_start (.inl rfl) ready⟩
  | fcPush b => exact ⟨_, exec_encode_start (.inr (.inl ⟨b, rfl⟩)) ready⟩
  | fcFinish => exact ⟨_, exec_encode_start (.inr (.inr rfl)) ready⟩
  | fcPull => exact ⟨_, exec_fcPull_start ready⟩
  | rbInit | rbWrite | rbRead | rbStatus | rbOcc | rbFree | tpInit | evTxc | evRxd => cases uses

/-! ### What the instructions without a line check raise (R170) -/

/-- Of the RB_* commands and TP_INIT only RB_READ raises a fault, EMPTY_READ (R102). -/
theorem exec_ring_or_init_fault {i : Instr} {s : State} (run : Running i s) (hi : i.isCommand = true)
    (noLine : usesLine i = false) : OnNext (fun t => t.fault = s.fault ∨ t.fault = codeEmptyRead) (exec i s) := by
  cases i with
  | rbInit r c => rw [exec_rbInit run]; exact onNext_next.2 (.inl (withSelected_fault r _ s))
  | rbWrite r b => rw [exec_rbWrite run]; exact onNext_next.2 (.inl (withSelected_fault r _ s))
  | rbRead r =>
    rw [exec_rbRead run]
    split
    · exact onNext_raiseHost.2 (.inr rfl)
    · exact onNext_fault
    · exact onNext_next.2 (.inl (withSelected_fault r _ s))
  | rbStatus r => rw [exec_rbStatus run]; exact onNext_next.2 (.inl rfl)
  | rbOcc r => rw [exec_rbOcc run]; exact onNext_next.2 (.inl rfl)
  | rbFree r => rw [exec_rbFree run]; exact onNext_next.2 (.inl rfl)
  | tpInit => rw [exec_tpInit run]; exact onNext_next.2 (.inl rfl)
  | tpWrite | tpRead | tpReadable | tpWriteable | fcStart | fcPush | fcFinish | fcPull => cases noLine
  | evTxc | evRxd => cases hi

/-- A handler raises RING_RACE and nothing else (R171). -/
theorem exec_event_fault {i : Instr} {s t : State} (hi : i.isCommand = false) (e : exec i s = .next t) :
    t.fault = s.fault ∨ t.fault = codeRingRace := by
  have frame : AgentFrame s t := by
    cases i with
    | evTxc => exact (exec_evTxc_step e).2.frame
    | evRxd => exact (exec_evRxd_step e).2.frame
    | _ => cases hi
  exact frame.fault.imp_right And.left

/-- Settles O20: the line check comes first, and an instruction without it raises no code but EMPTY_READ or RING_RACE. -/
theorem notInitFaults : Obligations.NotInitFaults := by
  intro i s ready
  refine ⟨fun uses off => ?_, fun noLine t e => ?_⟩
  · obtain ⟨body, hbody⟩ := exec_ready_requireLine ready uses
    exact ⟨_, hbody.trans (requireLine_off off), faults_takeFault codeNotInit s⟩
  · obtain ⟨run, _⟩ := ready
    have codes : t.fault = s.fault ∨ t.fault = codeEmptyRead ∨ t.fault = codeRingRace := by
      cases hi : i.isCommand with
      | true => exact (exec_ring_or_init_fault run hi noLine t e).imp_right .inl
      | false => exact (exec_event_fault hi e).imp_right .inr
    rcases codes with h | h | h <;> rw [h]
    · obtain ⟨⟨noFault, _⟩, _⟩ := run
      rw [noFault]
      decide
    · decide
    · decide

/-! ### When a handler may be dispatched (R177) -/

theorem txcWaiting_iff (s : State) : txcWaiting s = true ↔
    s.tp.lineEn = true ∧ s.phy.txPending = true ∧ (s.params.exclusion = .advisory ∨ s.tp.writeLock = false) := by
  simp [txcWaiting, advisory, and_assoc]

theorem rxdWaiting_iff (s : State) : rxdWaiting s = true ↔
    s.tp.lineEn = true ∧ s.phy.rxPending = true ∧ (s.params.exclusion = .advisory ∨ s.tp.readLock = false) := by
  simp [rxdWaiting, advisory, and_assoc]

/-- Settles O27: no fault and no handler running, which both dispatches need, and each handler's own conditions. -/
theorem dispatchConditions : Obligations.DispatchConditions := by
  refine ⟨fun s => ?_, fun s => ?_⟩
  · rw [enabled, Bool.and_eq_true, txcWaiting_iff, Bool.and_eq_true, beq_iff_eq, beq_iff_eq]
    tauto
  · rw [enabled, Bool.and_eq_true, rxdWaiting_iff, Bool.and_eq_true, beq_iff_eq, beq_iff_eq]
    tauto

end Sys2Proof.Safety
end

section
/-! PROOFS. O60 (R197 case 1, R122): the spin on a FULL ring is a fixed point of the HOST. TP_WRITE fills `tx` and comes to it;
from there no agent has a move that drains `tx`, so the hang stays under every interleaving. -/

namespace Sys2Proof.Safety

open Sys2Proof.Machine

/-! ### The spin on a FULL ring -/

theorem setPhase_eq_self {s : State} {ph : Phase} (hp : s.host.phase = ph) : setPhase ph s = s := by
  subst hp
  rfl

theorem exec_spin_full {i : Instr} {s : State} {todo later : List Byte} (hi : writesChannel i = true) (run : Running i s)
    (hp : s.host.phase = .write .spin todo later) (full : s.tx.count = s.params.txCap) : exec i s = .next s := by
  rw [exec_write_at hi run hp, writeAt_spin, if_neg full.not_lt, setPhase_eq_self hp]

/-- A HOST that is not idle has a micro-step of the command `i` only if `i` is the command in progress. -/
theorem running_of_exec_next {i : Instr} {s t : State} (hi : i.isCommand = true) (busy : hostDone s = false)
    (e : exec i s = .next t) : Running i s := by
  obtain ⟨body, hbody⟩ := exec_eq_hostCommand hi
  rw [hbody] at e
  rcases hostCommand_cases i body s with ⟨_, h⟩ | ⟨_, _, h⟩ | ⟨_, _, hc, _⟩ | ⟨hf, ha, hc, _⟩ | ⟨_, _, _, h⟩
  · cases h.symm.trans e
  · cases h.symm.trans e
  · rw [hostDone, hc] at busy
    cases busy
  · exact ⟨⟨hf, ha⟩, hc⟩
  · cases h.symm.trans e

/-! ### Runs into a fixed point -/

section FixedPoint

variable {stop stop' : State → Bool} {i : Instr} {n : Nat} {s t : State}

theorem RunsTo.eq_of_fixed (stays : ∀ u, exec i s = .next u → u = s) (h : RunsTo stop i n s t) : t = s := by
  induction h with
  | refl => rfl
  | step e _ _ ih =>
    obtain rfl := stays _ e
    exact ih stays

/-- Where every state that satisfies `stop'` is a fixed point, a run that leads to such a state has met no other. -/
theorem RunsTo.execUntil_of_fixed {p : Params} (h : RunsTo stop i n s t) (hs : s.params = p) (fixed : exec i t = .next t)
    (hstop : stop' t = true)
    (stays : ∀ u v, u.params = p → stop u = false → stop' u = true → exec i u = .next v → v = u) :
    ∃ m, execUntil stop' i m s = some t := by
  induction h with
  | refl => exact ⟨1, by rw [execUntil, fixed]; exact if_pos hstop⟩
  | @step _ s u t e go rest ih =>
    have kept : u.params = p := (exec_keepsParams i s u e).trans hs
    cases hu : stop' u with
    | true =>
      obtain rfl := rest.eq_of_fixed fun v => stays u v kept go hu
      exact ⟨1, by rw [execUntil, e]; exact if_pos hu⟩
    | false =>
      obtain ⟨m, run⟩ := ih kept fixed hstop
      exact ⟨m + 1, by rw [execUntil, e]; simpa [hu] using run⟩

end FixedPoint

/-! ### The run into the spin (R121, R122) -/

/-- The bytes `front` find room and are queued, and the body goes on with the others. -/
theorem reaches_writeAhead {i : Instr} (hi : writesChannel i = true) {s : State} (run : Running i s)
    (clear : clearTxGuard s = s) (todo later front : List Byte) : ∀ {r : Ring}, r.count + front.length ≤ s.params.txCap →
    Reaches hostDone i (writeAhead (front ++ todo) later r s) (writeAhead todo later (ringPutAll s.params.txCap r front) s) := by
  induction front with
  | nil => exact fun _ => .refl _
  | cons b front ih =>
    intro r hle
    rw [List.length_cons] at hle
    have byte := reaches_writeByte hi run later b (front ++ todo) (r := r) (by omega)
    rw [clear] at byte
    exact byte.trans (ih (by rw [ringPut_count b (by omega)]; omega))

theorem writeAhead_phase {todo later : List Byte} {r : Ring} {s : State} (hne : todo ≠ []) :
    (writeAhead todo later r s).host.phase = .write .spin todo later := by
  rw [writeAhead, nextWritePos_eq, if_pos hne]
  rfl

/-- The state in which a TP_WRITE on an idle transmitter, with the bytes `todo` left, spins on the FULL ring `r`. -/
theorem hung_writeAhead {bytes todo : List Byte} {s : State} {r : Ring} (inv : Inv s) (ready : Ready (.tpWrite bytes) s)
    (on : s.tp.lineEn = true) (idle : s.phy.txq = [] ∧ s.phy.txPending = false) (hr : RingOk s.params.txCap r)
    (full : r.count = s.params.txCap) (rest : todo <:+ bytes) (hne : todo ≠ []) : Hung (writeAhead todo [] r s) := by
  obtain ⟨⟨free, hc⟩, hp⟩ := ready
  have work : AtWork s := inv.atWork free (by rw [hc]; exact Option.some_ne_none _) on (by rw [hp]; exact Phase.noConfusion)
  have clear := inv.guardsClear free (by rw [hp]; exact outside_start)
  exact {
    inv := AtWork.inv_nextWrite (u := s.withTx r) { work with tx := hr } (.inl ⟨bytes, hc, rest, rfl⟩) { clear with }
    noFault := free.1
    spinning := ⟨bytes, todo, [], hc, writeAhead_phase hne⟩
    full := full
    idle := idle
    noHandler := by rw [writeAhead, setPhase_isr, State.withTx_isr, free.2]; exact Handler.noConfusion }

/-- A TP_WRITE of more bytes than `tx` has free comes to spin on the FULL ring, and hangs there. -/
theorem tpWrite_comes_to_hang {bytes : List Byte} {s : State} (inv : Inv s) (ready : Ready (.tpWrite bytes) s)
    (on : s.tp.lineEn = true) (idle : s.phy.txq = [] ∧ s.phy.txPending = false)
    (long : s.params.txCap < s.tx.count + bytes.length) :
    ∃ n t, execUntil
      (fun u => decide (u.tx.count = s.params.txCap ∧ u.host.phase = .write .spin (bytes.drop (s.params.txCap - s.tx.count)) []))
      (.tpWrite bytes) n s = some t ∧ Hung t := by
  generalize hk : s.params.txCap - s.tx.count = k
  have hle := inv.tx.count_le
  have fits : (bytes.take k).length = k := List.length_take_of_le (by omega)
  have hne : bytes.drop k ≠ [] := List.ne_nil_of_length_pos (by rw [List.length_drop]; omega)
  have clear := clearTxGuard_eq_self (inv.guardsClear ready.1.1 (by rw [ready.2]; exact outside_start))
  have queued := queued_ringPutAll (bytes.take k) inv.tx (by omega)
  have full : (ringPutAll s.params.txCap s.tx (bytes.take k)).count = s.params.txCap := by rw [queued.count]; omega
  have hung := hung_writeAhead inv ready on idle queued.ring full (List.drop_suffix k bytes) hne
  obtain ⟨n, run⟩ := reaches_writeAhead (i := .tpWrite bytes) rfl ready.1 clear (bytes.drop k) [] (bytes.take k)
    (r := s.tx) (by omega)
  rw [List.take_append_drop] at run
  have spin := writeAhead_phase (later := []) (r := ringPutAll s.params.txCap s.tx (bytes.take k)) (s := s) hne
  obtain ⟨m, whole⟩ := run.execUntil_of_fixed rfl (exec_spin_full rfl ready.1 spin full)
    (stop' := fun u => decide (u.tx.count = s.params.txCap ∧ u.host.phase = .write .spin (bytes.drop k) []))
    (decide_eq_true ⟨full, spin⟩) fun u v params busy hu e => by
      obtain ⟨hfull, hp⟩ := of_decide_eq_true hu
      have again := exec_spin_full rfl (running_of_exec_next rfl busy e) hp (by rw [hfull, params]; rfl)
      exact Host.Outcome.next.inj (e.symm.trans again)
  exact ⟨m, _, (execUntil_congr (exec_tpWrite_ahead ready on) m).trans whole, hung⟩

/-! ### No agent ends the hang (R122, R197) -/

/-- The HOST spins with every guard and hidden flag clear. -/
theorem Hung.guardsClear {s : State} (h : Hung s) : GuardsClear s := by
  obtain ⟨_, _, _, _, hp⟩ := h.spinning
  exact (h.inv.guards h.noFault).clear (by rw [hp]; rfl) (by rw [hp]; rfl)

/-- An agent that keeps the transmit side, raises nothing and is not EV_TXC leaves the hang as it is. -/
theorem Hung.of_frame {s t : State} (h : Hung s) (inv : Inv t) (f : AgentFrame s t) (side : TransmitSideKept s t)
    (noFault : t.fault = 0) (noHandler : t.isr.active ≠ .txc) : Hung t := by
  obtain ⟨tx, txq, txPending, _⟩ := side
  exact {
    inv := inv
    noFault := noFault
    spinning := by rw [f.host]; exact h.spinning
    full := by rw [tx, f.params]; exact h.full
    idle := by rw [txq, txPending]; exact h.idle
    noHandler := noHandler }

theorem HandlerStep.rxd_keeps_transmit {s t : State} (step : HandlerStep .rxd s t) :
    TransmitSideKept s t ∧ (t.isr.active = .none ∨ t.isr.active = .rxd) := by
  cases step with
  | skip | exit => exact ⟨⟨rfl, rfl, rfl, rfl⟩, .inl rfl⟩
  | dispatchRace | enter => exact ⟨⟨rfl, rfl, rfl, rfl⟩, .inr rfl⟩
  | accessRace ha | finish ha | moveIn _ _ _ ha => exact ⟨⟨rfl, rfl, rfl, rfl⟩, .inr ha⟩
  | moveOut _ _ hh => cases hh

theorem phyArrive_keeps_transmit (s : State) :
    TransmitSideKept s (phyArrive s) ∧ (phyArrive s).fault = s.fault ∧ (phyArrive s).isr = s.isr := by
  unfold phyArrive
  split <;> exact ⟨⟨rfl, rfl, rfl, rfl⟩, rfl, rfl⟩

theorem exec_evRxd_noFault {s t : State} (inv : Inv s) (noFault : s.fault = 0) (hidden : s.tp.hostInRx = false)
    (e : exec .evRxd s = .next t) : t.fault = 0 := by
  rcases (exec_evRxd_step e).2.frame.fault with h | ⟨h, _⟩
  · exact h.trans noFault
  · obtain ⟨_, _, race, _⟩ := faultCauses .evRxd s t inv noFault e
    rcases (race h).2 with ⟨hi, _⟩ | ⟨_, _, set⟩
    · cases hi
    · exact absurd (hidden.symm.trans set) Bool.noConfusion

/-- The hang of `s` goes on in `t`, with nothing of the HOST changed. -/
def StaysHung (s t : State) : Prop := Hung t ∧ t.host = s.host

theorem Hung.stays_of_evRxd {s t : State} (h : Hung s) (inv : Inv t) (e : exec .evRxd s = .next t) : StaysHung s t := by
  have step := (exec_evRxd_step e).2
  obtain ⟨side, active⟩ := step.rxd_keeps_transmit
  refine ⟨h.of_frame inv step.frame side (exec_evRxd_noFault h.inv h.noFault h.guardsClear.hostInRx e) ?_, step.frame.host⟩
  rcases active with ha | ha <;> rw [ha] <;> exact Handler.noConfusion

/-- Every move but the reset: the spin, EV_RXD and PhyArrive keep the hang, and nothing enables EV_TXC or PhyShiftOut. -/
theorem Hung.stays_of_perform {s t : State} {m : Move} (h : Hung s) (he : enabled s m = true) (hm : m ≠ .reset)
    (e : perform m s = .next t) : StaysHung s t := by
  have inv : Inv t := by
    obtain ⟨u, hu, inv⟩ := perform_advances h.inv he
    cases hu.symm.trans e
    exact inv
  obtain ⟨txq, txPending⟩ := h.idle
  cases m with
  | host =>
    obtain ⟨bytes, todo, later, hc, hp⟩ := h.spinning
    have spin : hostMove s = .next s := (hostMove_running hc).trans
      (exec_spin_full rfl ⟨hostFree_of_enabled he, hc⟩ hp h.full)
    cases spin.symm.trans e
    exact ⟨h, rfl⟩
  | dispatchTxc => simp [enabled, txcWaiting, txPending] at he
  | shiftOut => simp [enabled, txq] at he
  | dispatchRxd => exact h.stays_of_evRxd inv e
  | isr =>
    cases ha : s.isr.active with
    | none => simp [enabled, ha] at he
    | txc => exact absurd ha h.noHandler
    | rxd =>
      rw [perform, isrMove, ha] at e
      exact h.stays_of_evRxd inv e
  | arrive =>
    cases e
    obtain ⟨side, fault, isr⟩ := phyArrive_keeps_transmit s
    have frame := phyArrive_frame s
    exact ⟨h.of_frame inv frame side (fault.trans h.noFault) (by rw [isr]; exact h.noHandler), frame.host⟩
  | reset => exact absurd rfl hm

/-- The hang speaks of neither the schedule nor the count of free choices. -/
theorem Hung.withChoice {s : State} (h : Hung s) (q : List Move) (k : Nat) : Hung ((s.withSched q).withTick k) :=
  { h with inv := h.inv.withChoice q k }

/-- Settles O60: the run into the spin; then a step is an enabled move other than the reset, or nothing is enabled. -/
theorem longWriteHangs : Obligations.LongWriteHangs := by
  refine ⟨fun bytes s inv ready on txq txPending long => tpWrite_comes_to_hang inv ready on ⟨txq, txPending⟩ long,
    fun s t h noReset e => ?_⟩
  obtain ⟨hung, host⟩ : StaysHung s t := by
    rcases step_cases_of_no_reset noReset with ⟨m, q, k, hm, he, e'⟩ | e' <;> rw [e'] at e
    · exact (h.withChoice q k).stays_of_perform (by simpa using he) hm e
    · rw [rest, if_neg (not_not.2 h.noFault)] at e
      cases e
      exact ⟨h.withChoice [] s.tick, rfl⟩
  exact ⟨hung, congrArg HostPort.cmd host, congrArg HostPort.responses host⟩

end Sys2Proof.Safety
end
